-- ==== Sys2Proof/Word.lean ====
section
/-! DEFINITION. The word types of the block: bus words, bytes, symbols, bus offsets and node indexes. -/

namespace Sys2Proof

/-- A bus word or register word; bit 0 is the least significant bit (00_scope.md R9). -/
abbrev Word := BitVec 32

/-- One byte of storage. -/
abbrev Byte := BitVec 8

/-- A Symbol, 8 bits wide (00_scope.md R5, SYM_BITS). -/
abbrev Symbol := BitVec 8

/-- A byte offset from HUFF_BASE, `req_addr[15:0]` (00_scope.md R10; 20_memory.md R62). -/
abbrev Offset := BitVec 16

/-- A node index field, 9 bits (30_encoding.md R97). -/
abbrev NodeIndex := BitVec 9

/-- A bit-string, first bit first (00_scope.md R11). -/
abbrev BitString := List Bool

end Sys2Proof
end

