-- ==== Sys2Proof/Config.lean ====
section
/-! DEFINITION. The parameters the spec fixes (00_scope.md R5), the constant registers, the parameters it leaves open
(00_scope.md R6) and the free values (00_scope.md R12). -/

namespace Sys2Proof.Config

/-- ALPHA: the alphabet is the values 0..255 (00_scope.md R5). -/
abbrev alpha : Nat := 256

/-- N_MAX: capacity of SYM_IN and SYM_OUT in symbols (00_scope.md R5). -/
abbrev nMax : Nat := 4096

/-- B_MAX: capacity of BITBUF in bits (00_scope.md R5). -/
abbrev bMax : Nat := 32768

/-- NODE_MAX: tree-node slots that a tree can use (00_scope.md R5). -/
abbrev nodeMax : Nat := 511

/-- CODE_MAX: longest possible code in bits (00_scope.md R5). -/
abbrev codeMax : Nat := 255

/-- The ID register's constant (10_state.md R24). -/
abbrev idValue : Word := 0x48554646#32

/-- The PARAM register's constant (10_state.md R25). -/
abbrev paramValue : Word := 0x01FF0FC8#32

/-- The free values behind `any(w)` (00_scope.md R12): the n-th draw. It has no body, so nothing can be proved of a
value of it (log 4). `any(8)` is the low byte of a draw. -/
opaque freeValue : Nat → Word

/-- HUFF_BASE in units of 64 KiB: left open, so no body (00_scope.md R6; log 16). -/
opaque huffBaseBlock : Nat

/-- HUFF_BASE: "64 KiB aligned; nothing else" (00_scope.md R6). -/
def huffBase : Nat := huffBaseBlock * 0x10000

/-- HOST_BYTE_VIEW: which byte lane of a bus word a host processor's byte address selects. Left to the interconnect,
outside the block, so no body (00_scope.md R6; 20_memory.md R69; log 16). -/
opaque hostByteLane : BitVec 2 → BitVec 2

end Sys2Proof.Config
end

