-- ==== Sys2Proof/Syntax.lean ====
section
/-! DEFINITION. The commands of the block, one constructor per row of the opcode table; why a CMD word is illegal; and
the host's operations (30_encoding.md R92, R101, R102). -/

namespace Sys2Proof

/-- The four commands (30_encoding.md R92). None has an operand field (R93). -/
inductive Instr where
  | nop      -- NOP     0x00000000 (40_commands.md R123)
  | clear    -- CLEAR   0x00000001 (40_commands.md R124)
  | encode   -- ENCODE  0x00000002 (41_encoder.md R140)
  | decode   -- DECODE  0x00000003 (42_decoder.md R170)
  deriving DecidableEq, Repr

/-- Why a CMD word is no command: the last two rows of 30_encoding.md R92. -/
inductive IllegalCmd where
  | mbzNonzero      -- bits [31:4] are not zero, whatever OP holds
  | reservedOpcode  -- bits [31:4] are zero and OP is 4..15
  deriving DecidableEq, Repr

/-- What the decoder answers for a CMD word: a command, or the row of R92 that rejects it. -/
inductive Decoded where
  | command (i : Instr)
  | illegal (why : IllegalCmd)
  deriving DecidableEq, Repr

/-- A kind of transfer the bus cannot express (20_memory.md R61; 93_implementation_defined.md U14). -/
inductive NonWord where
  | byte | halfWord | burst | byteEnables
  deriving DecidableEq, Repr

/-- One line of a host program (30_encoding.md R101). `nonWord` is a request for a transfer the bus cannot express
(20_memory.md R61). The names that RD binds and labels are notation only and are not held (log 2). -/
inductive HostOp where
  | rd (off : Offset)                     -- RD off
  | wr (off : Offset) (v : Word)          -- WR off, v
  | poll (off : Offset) (mask val : Word) -- POLL off, mask, val
  | nonWord (kind : NonWord) (off : Offset)
  deriving DecidableEq, Repr

/-- The pseudo-operations of 30_encoding.md R102. -/
inductive Pseudo where
  | nop | clear | encode | decode | wait | ack
  | putSym (i : Nat) (s : Symbol)
  | putBits (w : Nat) (v : Word)
  | getSym (i : Nat)
  | getBits (w : Nat)
  deriving DecidableEq, Repr

end Sys2Proof
end

