-- ==== Sys2Proof/WellFormed.lean ====
section
/-! DEFINITION. What is well formed: a CMD word (30_encoding.md R91, R92), a command, a bus transaction (20_memory.md
R61, R62) and a pseudo-operation's index (30_encoding.md R102). -/

namespace Sys2Proof

/-- A CMD word is legal when MBZ, bits [31:4], is zero and OP, bits [3:0], is below 4 (30_encoding.md R91, R92). -/
def cmdWordWellFormed (w : Word) : Bool :=
  w.extractLsb' 4 28 == 0#28 && (w.extractLsb' 0 4).toNat < 4

/-- Every command is well formed: it has no operand that could be out of range (30_encoding.md R93). -/
def Instr.wellFormed : Instr → Bool
  | .nop => true
  | .clear => true
  | .encode => true
  | .decode => true

/-- An offset is word aligned when its two low bits are zero (20_memory.md R62). -/
def aligned (off : Offset) : Bool := off.extractLsb' 0 2 == 0#2

/-- A host operation is a well-formed transaction when it moves whole words at an aligned offset (20_memory.md R61,
R62). An ill-formed one is not shut out of the machine: it takes the bus error or is refused. -/
def HostOp.wellFormed : HostOp → Bool
  | .rd off => aligned off
  | .wr off _ => aligned off
  | .poll off _ _ => aligned off
  | .nonWord _ _ => false

/-- A pseudo-operation's index lies in the buffer it names (30_encoding.md R102; 20_memory.md R63). -/
def Pseudo.wellFormed : Pseudo → Bool
  | .nop => true
  | .clear => true
  | .encode => true
  | .decode => true
  | .wait => true
  | .ack => true
  | .putSym i _ => i < Config.nMax
  | .putBits w _ => w < 1024
  | .getSym i => i < Config.nMax
  | .getBits w => w < 1024

end Sys2Proof
end

