-- ==== Sys2Proof/Decode.lean ====
section
/-! DEFINITION. The decoder of CMD words, total on every 32-bit word and rejecting by name (30_encoding.md R91, R92);
after it the encoder, and the host's reading of an opcode-table word. -/

namespace Sys2Proof

/-- OP, bits [3:0] of a CMD word (30_encoding.md R91). -/
def cmdOp (w : Word) : BitVec 4 := w.extractLsb' 0 4

/-- MBZ, bits [31:4] of a CMD word (30_encoding.md R91). -/
def cmdMbz (w : Word) : BitVec 28 := w.extractLsb' 4 28

/-- The opcode map of 30_encoding.md R92: "every 32-bit word selects exactly one row". -/
def decode (w : Word) : Decoded :=
  if cmdMbz w = 0#28 then
    match (cmdOp w).toNat with
    | 0 => .command .nop
    | 1 => .command .clear
    | 2 => .command .encode
    | 3 => .command .decode
    | _ => .illegal .reservedOpcode
  else .illegal .mbzNonzero

/-- OP of each command (30_encoding.md R92). -/
def Instr.opcode : Instr → BitVec 4
  | .nop => 0#4
  | .clear => 1#4
  | .encode => 2#4
  | .decode => 3#4

/-- The CMD word of a command: MBZ zero above OP (30_encoding.md R91). -/
def encode (i : Instr) : Word := 0#28 ++ i.opcode

/-- The command the decoder reads from an opcode-table word of `nbits` bits (the bits above are zero); none where it
rejects the word. -/
def decodeTableWord (nbits w : Nat) : Option Instr :=
  match decode (BitVec.ofNat 32 (w % 2 ^ nbits)) with
  | .command i => some i
  | .illegal _ => none

end Sys2Proof
end

