-- ==== Sys2Proof/Machine/State.lean ====
section
/-! DEFINITION. The state of the block as plain data, the reasons a step can stop, and the state after reset
(10_state.md; 70_reset_and_hazards.md R230, R233). -/

namespace Sys2Proof.Machine

/-- The fields of STATUS (10_state.md R27). Its reserved bits hold nothing: they read 0 and ignore writes. -/
structure Status where
  busy      : Bool      -- [0]
  done      : Bool      -- [1]
  err       : Bool      -- [2]
  treeValid : Bool      -- [3]
  busyWr    : Bool      -- [4]
  errCode   : BitVec 4  -- [11:8]
  lastOp    : BitVec 4  -- [19:16]
  deriving DecidableEq, Repr

/-- ENG, the engine's sequencing state (10_state.md R21): idle, or busy with the opcode and the CMD word that issued
the command. -/
inductive Eng where
  | idle
  | busy (op : BitVec 4) (w : Word)
  deriving DecidableEq, Repr

/-- The errors a command can end with (60_exceptions.md R200). -/
inductive ErrorKind where
  | illegalCmd  -- 1, ERR_ILLEGAL_CMD
  | len         -- 2, ERR_LEN
  | noTree      -- 3, ERR_NO_TREE
  | badBits     -- 4, ERR_BAD_BITS
  | trunc       -- 5, ERR_TRUNC
  | ovf         -- 6, ERR_OVF
  deriving DecidableEq, Repr

/-- The response of a transaction: `rsp_rdata` (for a read) and `rsp_err` (00_scope.md R10; 20_memory.md R62). No rule
gives a write's response any data (log 15). -/
inductive Response where
  | read (rdata : Word) (err : Bool)
  | write (err : Bool)
  deriving DecidableEq, Repr

/-- Which agent takes a step (00_scope.md R7): the host its next transaction, the engine its completion, or Reset. -/
inductive Turn where
  | host | engine | reset
  deriving DecidableEq, Repr

/-- Storage: (bus offset, byte) cells, addresses strictly rising, none equal to what an unlisted address reads as. -/
abbrev Memory := List Host.Cell

/-- Why the machine stops with a fault. -/
inductive Fault where
  /-- Raised by `step` in a state whose STATUS.ERRCODE holds a reserved value 7 to 15, which the spec says is never
  produced and is "to be treated as a fault" (93_implementation_defined.md U17; 60_exceptions.md R200). Safe: it stops
  only where no run of the block goes. -/
  | reservedErrCode
  deriving DecidableEq, Repr

/-- Why the machine refuses a step. -/
inductive Refusal where
  /-- A command whose meaning is not written yet; no arm of `exec` answers it in this model. Safe. -/
  | notModelled (mnemonic : String)
  /-- Raised by a host step whose next operation is a sub-word, burst or byte-enable transfer: "A model whose host
  program asks for one refuses it" (20_memory.md R61; 93_implementation_defined.md U14). Safe: the bus cannot carry
  it. -/
  | nonWordTransaction (kind : NonWord)
  deriving DecidableEq, Repr

/-- Everything the spec gives the block (INVENTORY.md, State), and after it the model's own fields. ID, PARAM and CMD
hold no state (10_state.md R24 to R26); irq is a function of state (60_exceptions.md R207). -/
structure State where
  status    : Status       -- STATUS (10_state.md R27)
  ie        : Bool         -- CTRL.IE (10_state.md R28)
  symInLen  : Word         -- SYM_IN_LEN (10_state.md R29)
  bitLen    : Word         -- BIT_LEN (10_state.md R30)
  symOutLen : BitVec 13    -- SYM_OUT_LEN, bits [31:13] read 0 (10_state.md R31)
  nsym      : NodeIndex    -- NSYM, bits [31:9] read 0 (10_state.md R32)
  root      : NodeIndex    -- ROOT, bits [31:9] read 0 (10_state.md R33)
  nnodes    : NodeIndex    -- NNODES, bits [31:9] read 0 (10_state.md R34)
  errInfo   : Word         -- ERR_INFO (10_state.md R36)
  eng       : Eng          -- ENG (10_state.md R21)
  mem       : Memory       -- FREQ, CODELEN, NODE, CODEBITS, SYM_IN, SYM_OUT, BITBUF (10_state.md R37 to R43)
  rsp       : Option Response  -- the latest transaction's response (00_scope.md R10; log 15)
  program   : List HostOp  -- the model's own: the host's operations still to perform (log 2)
  turns     : List Turn    -- the model's own: who takes the next steps (log 1)
  draws     : Nat          -- the model's own: how many free values have been taken (log 4)
  deriving DecidableEq, Repr

/-- STATUS after reset: 0x00000000 (10_state.md R47). -/
def Status.reset : Status :=
  { busy := false, done := false, err := false, treeValid := false, busyWr := false, errCode := 0#4, lastOp := 0#4 }

/-- The block right after reset (10_state.md R47; 70_reset_and_hazards.md R230, R233). Memory lists nothing: the tables
read 0 and every buffer entry is a draw. No transaction has been answered, the host has nothing to perform, no turn is
fixed and no draw is taken: DESIGN CHOICE (logs 1, 2, 4, 15). -/
def State.reset : State :=
  { status := Status.reset, ie := false, symInLen := 0#32, bitLen := 0#32, symOutLen := 0#13, nsym := 0#9, root := 0#9,
    nnodes := 0#9, errInfo := 0#32, eng := .idle, mem := [], rsp := none, program := [], turns := [], draws := 0 }

end Sys2Proof.Machine
end

