-- ==== Sys2Proof/Machine/Flags.lean ====
section
/-! DEFINITION. Every computation over the STATUS flags (10_state.md R27, R45; 40_commands.md R120, R121;
60_exceptions.md R200, R201, R207). -/

namespace Sys2Proof.Machine

/-- STATUS as the word a read returns: the fields of 10_state.md R27 from bit 31 down, reserved bits 0. -/
def Status.toWord (t : Status) : Word :=
  0#12 ++ t.lastOp ++ 0#4 ++ t.errCode ++ 0#3 ++ BitVec.ofBool t.busyWr ++ BitVec.ofBool t.treeValid ++
    BitVec.ofBool t.err ++ BitVec.ofBool t.done ++ BitVec.ofBool t.busy

/-- The code of each error in STATUS.ERRCODE (60_exceptions.md R200). -/
def ErrorKind.code : ErrorKind → BitVec 4
  | .illegalCmd => 1#4
  | .len => 2#4
  | .noTree => 3#4
  | .badBits => 4#4
  | .trunc => 5#4
  | .ovf => 6#4

/-- ERRCODE holds a value the block never produces: 7 to 15 (60_exceptions.md R200). -/
def Status.reservedErrCode (t : Status) : Bool := 7 ≤ t.errCode.toNat

/-- The STATUS writes of a command issue (40_commands.md R120); BUSY_WR and TREE_VALID are not changed. -/
def Status.issue (op : BitVec 4) (t : Status) : Status :=
  { t with done := false, err := false, errCode := 0#4, lastOp := op, busy := true }

/-- The STATUS writes of a successful completion (40_commands.md R121). -/
def Status.succeed (t : Status) : Status := { t with done := true, busy := false }

/-- The STATUS writes of an error completion; DONE is not written (60_exceptions.md R201). -/
def Status.fail (e : ErrorKind) (t : Status) : Status := { t with errCode := e.code, err := true, busy := false }

/-- TREE_VALID (10_state.md R27; 40_commands.md R124; 41_encoder.md R156). -/
def Status.setTreeValid (v : Bool) (t : Status) : Status := { t with treeValid := v }

/-- A host write dropped because BUSY = 1 leaves its sticky mark (20_memory.md R68; 60_exceptions.md R204). -/
def Status.noteDroppedWrite (t : Status) : Status := { t with busyWr := true }

/-- A host write of v to STATUS: writing 1 clears DONE, ERR (with ERRCODE) and BUSY_WR, and changes nothing else
(10_state.md R27). -/
def Status.writeOneToClear (v : Word) (t : Status) : Status :=
  { t with
    done := t.done && !v.getLsbD 1
    err := t.err && !v.getLsbD 2
    errCode := if v.getLsbD 2 then 0#4 else t.errCode
    busyWr := t.busyWr && !v.getLsbD 4 }

/-- The interrupt line: CTRL.IE and (DONE or ERR), a function of state alone (60_exceptions.md R207). -/
def State.irq (s : State) : Bool := s.ie && (s.status.done || s.status.err)

end Sys2Proof.Machine
end

