-- ==== Sys2Proof/Machine/Map.lean ====
section
/-! DEFINITION. The address map of the 64 KiB window (20_memory.md R63), which storage backs it, and the platform's
view of it (00_scope.md R6). -/

namespace Sys2Proof.Machine

/-- What a word-aligned bus offset names (10_state.md R22; 20_memory.md R63). -/
inductive Target where
  | id | param | cmd | status | ctrl | symInLen | bitLen | symOutLen | nsym | root | nnodes | errInfo
  | freq (s : Nat) | codeLen (s : Nat) | nodeLink (i : Nat) | nodeFreq (i : Nat) | codeBits (s k : Nat)
  | symIn (i : Nat) | symOut (i : Nat) | bitBuf (w : Nat)
  | reserved
  deriving DecidableEq, Repr

/-- The register at a word-aligned offset below 0x400 (10_state.md R22); the rest is reserved. -/
def registerAt (a : Nat) : Target :=
  if a = 0x000 then .id
  else if a = 0x004 then .param
  else if a = 0x008 then .cmd
  else if a = 0x00C then .status
  else if a = 0x010 then .ctrl
  else if a = 0x014 then .symInLen
  else if a = 0x018 then .bitLen
  else if a = 0x01C then .symOutLen
  else if a = 0x020 then .nsym
  else if a = 0x024 then .root
  else if a = 0x028 then .nnodes
  else if a = 0x02C then .errInfo
  else .reserved

/-- The NODE word at a byte distance from 0x1000: NODE_LINK[i] at 8·i, NODE_FREQ[i] at 8·i + 4 (20_memory.md R63). -/
def nodeWordAt (d : Nat) : Target := if d % 8 < 4 then .nodeLink (d / 8) else .nodeFreq (d / 8)

/-- The map of 20_memory.md R63, for a word-aligned offset. -/
def target (off : Offset) : Target :=
  let a := off.toNat
  if a < 0x0400 then registerAt a
  else if a < 0x0800 then .freq ((a - 0x0400) / 4)
  else if a < 0x0C00 then .codeLen ((a - 0x0800) / 4)
  else if a < 0x1000 then .reserved
  else if a < 0x2000 then nodeWordAt (a - 0x1000)
  else if a < 0x4000 then .codeBits ((a - 0x2000) / 32) ((a - 0x2000) % 32 / 4)
  else if a < 0x8000 then .symIn ((a - 0x4000) / 4)
  else if a < 0xC000 then .symOut ((a - 0x8000) / 4)
  else if a < 0xD000 then .bitBuf ((a - 0xC000) / 4)
  else .reserved

/-- The offset of FREQ[s] (20_memory.md R63). -/
def freqAddr (s : Nat) : Nat := 0x0400 + 4 * s

/-- The offset of CODELEN[s] (20_memory.md R63). -/
def codeLenAddr (s : Nat) : Nat := 0x0800 + 4 * s

/-- The offset of NODE_LINK[i] (20_memory.md R63). -/
def nodeLinkAddr (i : Nat) : Nat := 0x1000 + 8 * i

/-- The offset of NODE_FREQ[i] (20_memory.md R63). -/
def nodeFreqAddr (i : Nat) : Nat := 0x1004 + 8 * i

/-- The offset of CODEBITS[s][k] (20_memory.md R63). -/
def codeBitsAddr (s k : Nat) : Nat := 0x2000 + 32 * s + 4 * k

/-- The offset of SYM_IN[i] (20_memory.md R63). -/
def symInAddr (i : Nat) : Nat := 0x4000 + 4 * i

/-- The offset of SYM_OUT[i] (20_memory.md R63). -/
def symOutAddr (i : Nat) : Nat := 0x8000 + 4 * i

/-- The offset of BITBUF[w] (20_memory.md R63). -/
def bitBufAddr (w : Nat) : Nat := 0xC000 + 4 * w

/-- A byte of the retained tree or code table: FREQ, CODELEN, NODE or CODEBITS (20_memory.md R63). -/
def isTableByte (a : Nat) : Bool := (0x0400 ≤ a && a < 0x0C00) || (0x1000 ≤ a && a < 0x4000)

/-- A byte of a buffer: BITBUF holds whole words; a SYM_IN or SYM_OUT entry holds 8 bits, kept at the entry's own
offset (10_state.md R41 to R43; 30_encoding.md R94; log 8). -/
def isBufferByte (a : Nat) : Bool := (0x4000 ≤ a && a < 0xC000 && a % 4 == 0) || (0xC000 ≤ a && a < 0xD000)

/-- The bytes that storage backs: everything else in the window is a register, reserved, or an always-zero byte of a
symbol entry. -/
def hasStorage (a : Nat) : Bool := isTableByte a || isBufferByte a

/-- What an unlisted byte reads as: 0 in the tables (10_state.md R47), no value in a buffer, whose read is then a fresh
draw (70_reset_and_hazards.md R232; log 10). -/
def unlistedByte (a : Nat) : Option Byte := if isTableByte a then some 0#8 else none

/-- The bus address of an offset: HUFF_BASE plus the offset (00_scope.md R6; 20_memory.md R63). -/
def busAddress (off : Offset) : Nat := Config.huffBase + off.toNat

/-- A bus address lies in the block's window (20_memory.md R63). -/
def selectsBlock (addr : Nat) : Bool := Config.huffBase ≤ addr && addr < Config.huffBase + 0x10000

/-- `req_addr[15:0]` of a bus address (00_scope.md R10). -/
def portOffset (addr : Nat) : Offset := BitVec.ofNat 16 addr

/-- The byte a host processor sees at byte k of a bus word, under the open HOST_BYTE_VIEW (20_memory.md R69). -/
def hostByte (w : Word) (k : BitVec 2) : Byte := w.extractLsb' (8 * (Config.hostByteLane k).toNat) 8

end Sys2Proof.Machine
end

