-- ==== Sys2Proof/Machine/Ops.lean ====
section
/-! DEFINITION. The named operations every meaning is written over: storage, command issue and successful completion,
an error completion (the block's counterpart of taking an exception) with its acknowledgement beside it, free values,
and the Reset step. -/

namespace Sys2Proof.Machine

/-- The byte listed at an address, if any. -/
def Memory.find (a : Nat) : Memory → Option Byte
  | [] => none
  | c :: m => if c.1 = a then some c.2 else Memory.find a m

/-- The list with the byte b at address a, kept in rising order. -/
def Memory.insert (a : Nat) (b : Byte) : Memory → Memory
  | [] => [(a, b)]
  | c :: m => if a < c.1 then (a, b) :: c :: m else if a = c.1 then (a, b) :: m else c :: Memory.insert a b m

/-- The list without address a. -/
def Memory.erase (a : Nat) (m : Memory) : Memory := m.filter (fun c => c.1 != a)

/-- The canonical form: addresses strictly rising, each backed by storage, none equal to what an unlisted address reads
as. Equal contents are then equal lists. -/
abbrev Memory.wf (m : Memory) : Prop :=
  m.Pairwise (fun c d => c.1 < d.1) ∧ ∀ c ∈ m, hasStorage c.1 = true ∧ unlistedByte c.1 ≠ some c.2

/-- One byte of storage: the listed byte, else what an unlisted address reads as; none is a buffer byte that nothing
has written since Reset (70_reset_and_hazards.md R232). -/
def Memory.byte? (m : Memory) (a : Nat) : Option Byte :=
  match Memory.find a m with
  | some b => some b
  | none => unlistedByte a

/-- Store one byte. Where nothing backs the address the write has no effect (log 9). -/
def Memory.setByte (m : Memory) (a : Nat) (b : Byte) : Memory :=
  if hasStorage a then
    if unlistedByte a = some b then Memory.erase a m else Memory.insert a b m
  else m

/-- One word of storage, least significant byte at its own offset (the model's layout, which no transaction can see:
log 8). None when a byte of it was never written. -/
def Memory.word? (m : Memory) (a : Nat) : Option Word :=
  match Memory.byte? m a, Memory.byte? m (a + 1), Memory.byte? m (a + 2), Memory.byte? m (a + 3) with
  | some b0, some b1, some b2, some b3 => some (b3 ++ b2 ++ b1 ++ b0)
  | _, _, _, _ => none

/-- Store one whole word (20_memory.md R71). -/
def Memory.setWord (m : Memory) (a : Nat) (v : Word) : Memory :=
  Memory.setByte (Memory.setByte (Memory.setByte (Memory.setByte m a (v.extractLsb' 0 8)) (a + 1) (v.extractLsb' 8 8))
    (a + 2) (v.extractLsb' 16 8)) (a + 3) (v.extractLsb' 24 8)

/-- Store words in order. -/
def Memory.setWords (m : Memory) (ws : List (Nat × Word)) : Memory :=
  ws.foldl (fun m w => Memory.setWord m w.1 w.2) m

/-- A word of the tables, which always hold a value (10_state.md R47). -/
def Memory.tableWord (m : Memory) (a : Nat) : Word := (Memory.word? m a).getD 0#32

/-- Every FREQ, CODELEN, CODEBITS and NODE word becomes 0 (40_commands.md R124). -/
def Memory.clearTables (m : Memory) : Memory := m.filter (fun c => !isTableByte c.1)

/-- `any(32)`: the n-th draw (00_scope.md R12). -/
def anyWord (n : Nat) : Word := Config.freeValue n

/-- `any(8)`: the low byte of the n-th draw (00_scope.md R12). -/
def anySymbol (n : Nat) : Symbol := (Config.freeValue n).setWidth 8

/-- Mark n draws as taken, so that later draws are others (00_scope.md R12: two draws are independent). -/
def State.takeDraws (n : Nat) (s : State) : State := { s with draws := s.draws + n }

/-- Command issue (40_commands.md R120): every word w issues a command, legal or not. -/
def State.issue (w : Word) (s : State) : State :=
  { s with status := s.status.issue (cmdOp w), eng := .busy (cmdOp w) w }

/-- The end of a command whose body did not raise (40_commands.md R121). -/
def State.succeed (s : State) : State :=
  { s with errInfo := 0#32, status := s.status.succeed, eng := .idle }

/-- `raise E(info)`, the block's one way of taking an exception (60_exceptions.md R201, R209): ERR_INFO and ERRCODE save
the cause, ERR is set, BUSY falls, DONE stays, the engine is idle. The writes made before stay. -/
def State.raise (e : ErrorKind) (info : Word) (s : State) : State :=
  { s with errInfo := info, status := s.status.fail e, eng := .idle }

/-- The acknowledgement, which stands where a return from exception would (60_exceptions.md R210): a host write of v to
STATUS (10_state.md R27). The other way to acknowledge is `State.issue`. -/
def State.acknowledge (v : Word) (s : State) : State := { s with status := s.status.writeOneToClear v }

/-- Drop the retained tree and code table (40_commands.md R124). -/
def State.dropTree (s : State) : State :=
  { s with mem := Memory.clearTables s.mem, nsym := 0#9, root := 0#9, nnodes := 0#9,
           status := s.status.setTreeValid false }

/-- The Reset step (70_reset_and_hazards.md R230 to R232): every register, flag and table takes its reset value, a
running command is abandoned, every buffer entry is unwritten again. What belongs to the host and to the schedule goes
on, and draws already taken are not taken again (log 4). -/
def State.resetStep (s : State) : State :=
  { State.reset with program := s.program, turns := s.turns, draws := s.draws }

end Sys2Proof.Machine
end

