-- ==== Sys2Proof/Machine/Operands.lean ====
section
/-! DEFINITION. How the commands read their operands and how the word formats hold them: SYMW, STREAM, CODEW, LINK and
NFREQ (30_encoding.md R93 to R98; 42_decoder.md R174). -/

namespace Sys2Proof.Machine

/-- A symbol entry at an offset: the stored symbol, or none while nothing has written it (10_state.md R41, R42). -/
def Memory.symbol? (m : Memory) (a : Nat) : Option Symbol := Memory.byte? m a

/-- SYM_IN[i] as the engine reads it; an entry never written since Reset reads as the draw numbered n (41_encoder.md
R140; 70_reset_and_hazards.md R232). -/
def symInEntry (m : Memory) (i n : Nat) : Symbol :=
  match Memory.symbol? m (symInAddr i) with
  | some x => x
  | none => anySymbol n

/-- SYM_IN[0..len-1], each entry read once for the whole command (log 5), entry i with draw `draws + i`. -/
def symInOperand (s : State) (len : Nat) : List Symbol :=
  (List.range len).map fun i => symInEntry s.mem i (s.draws + i)

/-- Bit k of a word counted from its most significant bit, as STREAM and CODEW number bits (30_encoding.md R95, R96;
20_memory.md R70). -/
def msbBit (v : Word) (k : Nat) : Bool := v.getLsbD (31 - k % 32)

/-- bit(k) = BITBUF[k div 32][31 - (k mod 32)] (30_encoding.md R95); a word never written since Reset reads as the draw
numbered n (42_decoder.md R170). -/
def streamBit (m : Memory) (k n : Nat) : Bool :=
  match Memory.word? m (bitBufAddr (k / 32)) with
  | some v => msbBit v k
  | none => msbBit (anyWord n) k

/-- bit(0), ..., bit(len-1), each read once (42_decoder.md R174), bit k with draw `draws + k` (log 6). -/
def streamOperand (s : State) (len : Nat) : BitString :=
  (List.range len).map fun k => streamBit s.mem k (s.draws + k)

/-- Bits 32·w, ..., 32·w + 31 of a bit-string packed most significant bit first; positions past its end are 0
(30_encoding.md R95, R96; 41_encoder.md R154). -/
def packWord (bits : BitString) (w : Nat) : Word :=
  (List.range 32).foldl (fun v j => if bits.getD (32 * w + j) false then v ||| BitVec.twoPow 32 (31 - j) else v) 0#32

/-- The LINK word of a leaf: LEAF and USED set, the symbol in [7:0] (30_encoding.md R97). -/
def leafLink (x : Symbol) : Word := 1#1 ++ 1#1 ++ 0#22 ++ x

/-- The LINK word of an internal node: USED set, RIGHT in [24:16], LEFT in [8:0] (30_encoding.md R97). -/
def internalLink (left right : NodeIndex) : Word := 0#1 ++ 1#1 ++ 0#5 ++ right ++ 0#7 ++ left

/-- kind[i] is LEAF when bit 31 is set (42_decoder.md, opening). -/
def linkIsLeaf (v : Word) : Bool := v.getLsbD 31

/-- sym[i] = NODE_LINK[i][7:0] (42_decoder.md, opening). -/
def linkSymbol (v : Word) : Symbol := v.extractLsb' 0 8

/-- left[i] = NODE_LINK[i][8:0] (42_decoder.md, opening). -/
def linkLeft (v : Word) : NodeIndex := v.extractLsb' 0 9

/-- right[i] = NODE_LINK[i][24:16] (42_decoder.md, opening). -/
def linkRight (v : Word) : NodeIndex := v.extractLsb' 16 9

/-- The child that a bit selects: left on 0, right on 1 (42_decoder.md R175). -/
def linkChild (v : Word) (b : Bool) : NodeIndex := if b then linkRight v else linkLeft v

/-- NODE_LINK[i] of the retained tree (10_state.md R37). -/
def nodeLink (m : Memory) (i : NodeIndex) : Word := Memory.tableWord m (nodeLinkAddr i.toNat)

end Sys2Proof.Machine
end

