-- ==== Sys2Proof/Machine/Control.lean ====
section
/-! DEFINITION. The control commands NOP and CLEAR and the completion of an illegal command word (40_commands.md R123 to
R125). -/

namespace Sys2Proof.Machine

/-- NOP: its body changes nothing; the command completes (40_commands.md R123). -/
def execNop (s : State) : Host.Outcome State Fault Refusal := .next s.succeed

/-- CLEAR: discard the retained tree and code table, then complete (40_commands.md R124). -/
def execClear (s : State) : Host.Outcome State Fault Refusal := .next s.dropTree.succeed

/-- The completion of an illegal word w: `raise ERR_ILLEGAL_CMD(w)`, whatever made it illegal (40_commands.md R125). -/
def execIllegal (w : Word) (s : State) : Host.Outcome State Fault Refusal := .next (s.raise .illegalCmd w)

end Sys2Proof.Machine
end

