-- ==== Sys2Proof/Machine/Decoder.lean ====
section
/-! DEFINITION. DECODE: the checks in their order, the two tree walks, and what is kept of the output
(42_decoder.md R170 to R180; 60_exceptions.md R205). -/

namespace Sys2Proof.Machine

/-- How a walk ends: all bits read, or an error with its stream position (42_decoder.md R175 to R178). -/
inductive WalkEnd where
  | complete
  | badBits (k : Nat)
  | ovf (k : Nat)
  | trunc (start : Nat)
  deriving DecidableEq, Repr

/-- What a walk gives: the symbols written to SYM_OUT, in order, and how it ends. -/
structure Walk where
  out : List Symbol
  ending : WalkEnd
  deriving DecidableEq, Repr

/-- A walk that writes x first and then goes on as w. -/
def Walk.emit (x : Symbol) (w : Walk) : Walk := ⟨x :: w.out, w.ending⟩

/-- WalkFull from bit k on (42_decoder.md R175, R177, R178): `node` is the walk's position, `cnt` the symbols written so
far, `start` the first bit of the current code. -/
def walkFull (m : Memory) (root : NodeIndex) : BitString → (k : Nat) → (node : NodeIndex) → (cnt start : Nat) → Walk
  | [], _, node, _, start => ⟨[], if node = root then .complete else .trunc start⟩
  | b :: bits, k, node, cnt, start =>
    let start' := if node = root then k else start
    let node' := linkChild (nodeLink m node) b
    if linkIsLeaf (nodeLink m node') then
      if cnt = Config.nMax then ⟨[], .ovf k⟩
      else (walkFull m root bits (k + 1) root (cnt + 1) start').emit (linkSymbol (nodeLink m node'))
    else walkFull m root bits (k + 1) node' cnt start'

/-- WalkSingle from bit k on (42_decoder.md R176): a 1 bit is checked before the output's capacity (60_exceptions.md
R205). -/
def walkSingle (m : Memory) : BitString → (k cnt : Nat) → Walk
  | [], _, _ => ⟨[], .complete⟩
  | b :: bits, k, cnt =>
    if b then ⟨[], .badBits k⟩
    else if cnt = Config.nMax then ⟨[], .ovf k⟩
    else (walkSingle m bits (k + 1) (cnt + 1)).emit (linkSymbol (nodeLink m 0#9))

/-- The walk that DECODE takes: WalkFull when NSYM ≥ 2, else WalkSingle (42_decoder.md R170). -/
def decodeWalk (s : State) (bits : BitString) : Walk :=
  if 2 ≤ s.nsym.toNat then walkFull s.mem s.root bits 0 s.root 0 0 else walkSingle s.mem bits 0 0

/-- SYM_OUT[0], SYM_OUT[1], ... become the written symbols; later entries keep their contents (42_decoder.md R179). -/
def writeSymOut (out : List Symbol) (m : Memory) : Memory :=
  out.zipIdx.foldl (fun m p => Memory.setByte m (symOutAddr p.2) p.1) m

/-- The writes a walk makes, before the command ends: SYM_OUT and SYM_OUT_LEN (42_decoder.md R179). -/
def State.keepOutput (out : List Symbol) (s : State) : State :=
  { s with mem := writeSymOut out s.mem, symOutLen := BitVec.ofNat 13 out.length }

/-- The end of DECODE after a walk: success, or the walk's error with its stream position (42_decoder.md R175 to R178;
60_exceptions.md R202). -/
def State.endWalk (e : WalkEnd) (s : State) : State :=
  match e with
  | .complete => s.succeed
  | .badBits k => s.raise .badBits (BitVec.ofNat 32 k)
  | .ovf k => s.raise .ovf (BitVec.ofNat 32 k)
  | .trunc k => s.raise .trunc (BitVec.ofNat 32 k)

/-- DECODE (42_decoder.md R170 to R173), its checks in the order of 60_exceptions.md R205. -/
def execDecode (s : State) : Host.Outcome State Fault Refusal :=
  if Config.bMax < s.bitLen.toNat then .next (s.raise .len s.bitLen)
  else if s.bitLen.toNat = 0 then .next ({ s with symOutLen := 0#13 } : State).succeed
  else if s.status.treeValid = false then .next (s.raise .noTree 0#32)
  else
    let len := s.bitLen.toNat
    let walk := decodeWalk s (streamOperand s len)
    .next (((s.takeDraws len).keepOutput walk.out).endWalk walk.ending)

end Sys2Proof.Machine
end

