-- ==== Sys2Proof/Machine/Tree.lean ====
section
/-! DEFINITION. The encoder's stages on plain values: frequency counter, tree builder, code-table generator and
serializer (41_encoder.md R142 to R153). -/

namespace Sys2Proof.Machine

/-- A node being built: a leaf with its symbol, or an internal node with its children's slots (41_encoder.md R143,
R144). -/
inductive NodeKind where
  | leaf (x : Symbol)
  | internal (left right : Nat)
  deriving DecidableEq, Repr

/-- A node and its frequency; its slot is its position in the list. -/
structure TreeNode where
  kind : NodeKind
  freq : Nat
  deriving DecidableEq, Repr

/-- A live node's removal key (41_encoder.md R145). -/
structure LiveKey where
  freq : Nat
  slot : Nat
  deriving DecidableEq, Repr

/-- F[x], the number of occurrences of x (41_encoder.md R142). -/
def freqCount (input : List Symbol) (x : Symbol) : Nat := input.count x

/-- The symbols with F[x] ≥ 1, ascending (41_encoder.md R143). -/
def presentSymbols (input : List Symbol) : List Symbol :=
  ((List.range Config.alpha).map (BitVec.ofNat 8)).filter fun x => 1 ≤ freqCount input x

/-- One leaf per present symbol, ascending, in slots 0..n-1 (41_encoder.md R143). -/
def seedLeaves (input : List Symbol) : List TreeNode :=
  (presentSymbols input).map fun x => ⟨.leaf x, freqCount input x⟩

/-- The seeded leaves are the first live nodes (41_encoder.md R144). -/
def seedLive (leaves : List TreeNode) : List LiveKey := leaves.zipIdx.map fun p => ⟨p.1.freq, p.2⟩

/-- Keys compare by frequency, then by slot (41_encoder.md R145; 00_scope.md R13). -/
def LiveKey.before (a b : LiveKey) : Bool := a.freq < b.freq || (a.freq == b.freq && a.slot < b.slot)

/-- The least key of k and ks (00_scope.md R13, argmin). -/
def leastKey (k : LiveKey) : List LiveKey → LiveKey
  | [] => k
  | k' :: ks => if k'.before k then leastKey k' ks else leastKey k ks

/-- Remove the live node with the least key (41_encoder.md R144, R145). -/
def removeLeast : List LiveKey → Option (LiveKey × List LiveKey)
  | [] => none
  | k :: ks => some (leastKey k ks, (k :: ks).erase (leastKey k ks))

/-- The merge loop (41_encoder.md R144, R146): while two nodes are live, remove the two least; the first removed is the
left child. The new node takes the next slot. `fuel` bounds the passes; the number of live nodes is enough. -/
def mergeLoop : (fuel : Nat) → List LiveKey → List TreeNode → List TreeNode
  | 0, _, nodes => nodes
  | fuel + 1, live, nodes =>
    match removeLeast live with
    | none => nodes
    | some (a, live1) =>
      match removeLeast live1 with
      | none => nodes
      | some (b, live2) =>
        mergeLoop fuel (live2 ++ [⟨a.freq + b.freq, nodes.length⟩])
          (nodes ++ [⟨.internal a.slot b.slot, a.freq + b.freq⟩])

/-- BuildTree: the nodes in slot order (41_encoder.md R143 to R149). -/
def buildTree (input : List Symbol) : List TreeNode :=
  mergeLoop (seedLeaves input).length (seedLive (seedLeaves input)) (seedLeaves input)

/-- n, the number of distinct symbols (41_encoder.md R143). -/
def distinct (input : List Symbol) : Nat := (presentSymbols input).length

/-- The root's slot: 2n-2 when n ≥ 2, and 0 otherwise (41_encoder.md R147, R156). -/
def rootSlot (n : Nat) : Nat := 2 * n - 2

/-- The number of used slots: 2n-1 when n ≥ 1, and 0 when n = 0 (41_encoder.md R156). -/
def nodeCount (n : Nat) : Nat := 2 * n - 1

/-- walk(i, p): the leaves under slot i with their paths, 0 for left and 1 for right (41_encoder.md R150). `fuel` bounds
the depth; the number of slots is enough. -/
def walkCodes (nodes : List TreeNode) : (fuel : Nat) → (slot : Nat) → BitString → List (Symbol × BitString)
  | 0, _, _ => []
  | fuel + 1, slot, path =>
    match nodes[slot]? with
    | none => []
    | some ⟨.leaf x, _⟩ => [(x, path)]
    | some ⟨.internal l r, _⟩ =>
      walkCodes nodes fuel l (path ++ [false]) ++ walkCodes nodes fuel r (path ++ [true])

/-- GenCodes: the code table as pairs (41_encoder.md R149 to R151). One distinct symbol gets the code "0". -/
def genCodes (input : List Symbol) : List (Symbol × BitString) :=
  match presentSymbols input with
  | [] => []
  | [x] => [(x, [false])]
  | _ :: _ :: _ => walkCodes (buildTree input) (buildTree input).length (rootSlot (distinct input)) []

/-- code[x]; empty for a symbol that is not in the table (41_encoder.md R152). -/
def codeOf (codes : List (Symbol × BitString)) (x : Symbol) : BitString :=
  match codes with
  | [] => []
  | p :: ps => if p.1 = x then p.2 else codeOf ps x

/-- Serialize: the codes of the input symbols, concatenated in input order (41_encoder.md R153). -/
def serialize (input : List Symbol) : BitString :=
  let codes := genCodes input
  input.flatMap (codeOf codes)

end Sys2Proof.Machine
end

