-- ==== Sys2Proof/Machine/Encoder.lean ====
section
/-! DEFINITION. ENCODE: the length check, the commit of the tree, code table and stream, and the command
(41_encoder.md R140, R141, R152, R154, R156). -/

namespace Sys2Proof.Machine

/-- The FREQ words of the present symbols; the others are 0 (41_encoder.md R156). -/
def freqWords (input : List Symbol) : List (Nat × Word) :=
  (presentSymbols input).map fun x => (freqAddr x.toNat, BitVec.ofNat 32 (freqCount input x))

/-- The LINK word of a node (30_encoding.md R97). -/
def linkWord : NodeKind → Word
  | .leaf x => leafLink x
  | .internal l r => internalLink (BitVec.ofNat 9 l) (BitVec.ofNat 9 r)

/-- The NODE_LINK and NODE_FREQ words of the used slots; the others are 0 (41_encoder.md R156). -/
def nodeWords (nodes : List TreeNode) : List (Nat × Word) :=
  nodes.zipIdx.flatMap fun p =>
    [(nodeLinkAddr p.2, linkWord p.1.kind), (nodeFreqAddr p.2, BitVec.ofNat 32 p.1.freq)]

/-- The CODELEN and CODEBITS words of the symbols in the table; the others are 0 (41_encoder.md R152). -/
def codeWords (codes : List (Symbol × BitString)) : List (Nat × Word) :=
  codes.flatMap fun p =>
    (codeLenAddr p.1.toNat, BitVec.ofNat 32 p.2.length) ::
      (List.range 8).map fun k => (codeBitsAddr p.1.toNat k, packWord p.2 k)

/-- The tables of one input: every table word 0 but those of the input's tree and codes (41_encoder.md R156). -/
def commitTables (input : List Symbol) (m : Memory) : Memory :=
  Memory.setWords (Memory.clearTables m) (freqWords input ++ nodeWords (buildTree input) ++ codeWords (genCodes input))

/-- Pack: only the words that hold stream bits are written (41_encoder.md R154). -/
def packStream (stream : BitString) (m : Memory) : Memory :=
  Memory.setWords m ((List.range ((stream.length + 31) / 32)).map fun w => (bitBufAddr w, packWord stream w))

/-- PackAndCommit, for the input the command read (41_encoder.md R156). -/
def State.commitEncode (input : List Symbol) (s : State) : State :=
  { s with
    mem := packStream (serialize input) (commitTables input s.mem)
    bitLen := BitVec.ofNat 32 (serialize input).length
    nsym := BitVec.ofNat 9 (distinct input)
    root := BitVec.ofNat 9 (rootSlot (distinct input))
    nnodes := BitVec.ofNat 9 (nodeCount (distinct input))
    status := s.status.setTreeValid (1 ≤ distinct input) }

/-- ENCODE (41_encoder.md R140, R141): ERR_LEN before anything is read or written, else read the input once, commit and
complete. -/
def execEncode (s : State) : Host.Outcome State Fault Refusal :=
  if Config.nMax < s.symInLen.toNat then .next (s.raise .len s.symInLen)
  else
    let len := s.symInLen.toNat
    .next (((s.takeDraws len).commitEncode (symInOperand s len)).succeed)

end Sys2Proof.Machine
end

