-- ==== Sys2Proof/Machine/Engine.lean ====
section
/-! DEFINITION. The engine's step: EngineComplete, enabled exactly when ENG is busy (40_commands.md R121). -/

namespace Sys2Proof.Machine

/-- Run the command that the word w selects: its meaning, or the error completion of an illegal word (30_encoding.md
R92; 40_commands.md R121, R125). -/
def runCommand (w : Word) (s : State) : Host.Outcome State Fault Refusal :=
  match decode w with
  | .command i => exec i s
  | .illegal _ => execIllegal w s

/-- EngineComplete. An engine that is idle has no step: the turn passes with no effect (log 14). -/
def engineStep (s : State) : Host.Outcome State Fault Refusal :=
  match s.eng with
  | .idle => .next s
  | .busy _ w => runCommand w s

end Sys2Proof.Machine
end

