-- ==== Sys2Proof/Machine/HostPort.lean ====
section
/-! DEFINITION. The host port: what a read returns, what a write does, and the host's next operation (20_memory.md R60
to R68; 70_reset_and_hazards.md R241; 30_encoding.md R101, R102). -/

namespace Sys2Proof.Machine

/-- What a read finds: a value, a fresh `any(8)` zero-extended, or a fresh `any(32)` (20_memory.md R67). -/
inductive Reading where
  | value (v : Word)
  | anySym
  | anyWord
  deriving DecidableEq, Repr

/-- A read of a stored symbol entry: zero-extended, or any(8) while unwritten (30_encoding.md R94; R232). -/
def symbolReading (m : Memory) (a : Nat) : Reading :=
  match Memory.symbol? m a with
  | some x => .value (x.setWidth 32)
  | none => .anySym

/-- A read of a BITBUF word: the word, or any(32) while unwritten (10_state.md R43; R232). -/
def bitBufReading (m : Memory) (w : Nat) : Reading :=
  match Memory.word? m (bitBufAddr w) with
  | some v => .value v
  | none => .anyWord

/-- What an aligned read finds when no running command hides it (20_memory.md R64, R66, R67; 10_state.md R24 to
R36). -/
def storedReading (s : State) : Target → Reading
  | .id => .value Config.idValue
  | .param => .value Config.paramValue
  | .cmd => .value 0#32
  | .status => .value s.status.toWord
  | .ctrl => .value (0#31 ++ BitVec.ofBool s.ie)
  | .symInLen => .value s.symInLen
  | .bitLen => .value s.bitLen
  | .symOutLen => .value (s.symOutLen.setWidth 32)
  | .nsym => .value (s.nsym.setWidth 32)
  | .root => .value (s.root.setWidth 32)
  | .nnodes => .value (s.nnodes.setWidth 32)
  | .errInfo => .value s.errInfo
  | .freq x => .value (Memory.tableWord s.mem (freqAddr x))
  | .codeLen x => .value (Memory.tableWord s.mem (codeLenAddr x))
  | .nodeLink i => .value (Memory.tableWord s.mem (nodeLinkAddr i))
  | .nodeFreq i => .value (Memory.tableWord s.mem (nodeFreqAddr i))
  | .codeBits x k => .value (Memory.tableWord s.mem (codeBitsAddr x k))
  | .symIn i => symbolReading s.mem (symInAddr i)
  | .symOut i => symbolReading s.mem (symOutAddr i)
  | .bitBuf w => bitBufReading s.mem w
  | .reserved => .value 0#32

/-- The windows that the command i may write (70_reset_and_hazards.md R241). -/
def Instr.mayWrite (i : Instr) (t : Target) : Bool :=
  match i, t with
  | .clear, .freq _ => true
  | .clear, .codeLen _ => true
  | .clear, .codeBits _ _ => true
  | .clear, .nodeLink _ => true
  | .clear, .nodeFreq _ => true
  | .encode, .freq _ => true
  | .encode, .codeLen _ => true
  | .encode, .codeBits _ _ => true
  | .encode, .nodeLink _ => true
  | .encode, .nodeFreq _ => true
  | .encode, .bitBuf _ => true
  | .decode, .symOut _ => true
  | _, _ => false

/-- A window entry that the running command may write; NOP and an illegal word write none (70_reset_and_hazards.md
R241). -/
def hiddenByCommand (e : Eng) (t : Target) : Bool :=
  match e with
  | .idle => false
  | .busy _ w =>
    match decode w with
    | .command i => Instr.mayWrite i t
    | .illegal _ => false

/-- What an aligned read finds (20_memory.md R67). -/
def readingAt (s : State) (t : Target) : Reading :=
  if hiddenByCommand s.eng t then .anyWord else storedReading s t

/-- The word a reading returns, its draw numbered n. -/
def Reading.word (n : Nat) : Reading → Word
  | .value v => v
  | .anySym => (anySymbol n).setWidth 32
  | .anyWord => Sys2Proof.Machine.anyWord n

/-- How many draws a reading takes. -/
def Reading.taken : Reading → Nat
  | .value _ => 0
  | .anySym => 1
  | .anyWord => 1

/-- MemRead: `rsp_rdata` of a read at an offset; a misaligned read returns 0 (20_memory.md R62, R67). -/
def readData (s : State) (off : Offset) : Word :=
  if aligned off then (readingAt s (target off)).word s.draws else 0#32

/-- HostRead(off) (20_memory.md R60, R62, R67): the response, and the draw it took if any; no other state changes. -/
def hostRead (off : Offset) (s : State) : State :=
  if aligned off then
    { s with rsp := some (.read (readData s off) false), draws := s.draws + (readingAt s (target off)).taken }
  else { s with rsp := some (.read (readData s off) true) }

/-- The targets whose writes are dropped while BUSY = 1 (20_memory.md R68). -/
def Target.isCommandInput : Target → Bool
  | .cmd => true
  | .symInLen => true
  | .bitLen => true
  | .symIn _ => true
  | .bitBuf _ => true
  | _ => false

/-- An accepted write at an aligned offset (20_memory.md R65, R66, R68; 10_state.md R26 to R30; 30_encoding.md R94). -/
def acceptWrite (t : Target) (v : Word) (s : State) : State :=
  match t with
  | .cmd => s.issue v
  | .status => s.acknowledge v
  | .ctrl => { s with ie := v.getLsbD 0 }
  | .symInLen => { s with symInLen := v }
  | .bitLen => { s with bitLen := v }
  | .symIn i => { s with mem := Memory.setByte s.mem (symInAddr i) (v.extractLsb' 0 8) }
  | .bitBuf w => { s with mem := Memory.setWord s.mem (bitBufAddr w) v }
  | _ => s

/-- MemWrite to a target: command inputs are dropped and marked while BUSY = 1 (20_memory.md R68). -/
def writeTarget (t : Target) (v : Word) (s : State) : State :=
  if t.isCommandInput && s.status.busy then { s with status := s.status.noteDroppedWrite } else acceptWrite t v s

/-- HostWrite(off, v) (20_memory.md R60, R62, R68): a misaligned write has no effect but its error response. -/
def hostWrite (off : Offset) (v : Word) (s : State) : State :=
  if aligned off then { writeTarget (target off) v s with rsp := some (.write false) }
  else { s with rsp := some (.write true) }

/-- POLL's condition on the word read: (t & mask) = val (30_encoding.md R101). -/
def pollSatisfied (t mask val : Word) : Bool := t &&& mask == val

/-- Perform one host operation, `rest` being the operations after it (30_encoding.md R101). A POLL whose condition does
not hold stays the next operation. -/
def hostOperation (op : HostOp) (rest : List HostOp) (s : State) : Host.Outcome State Fault Refusal :=
  match op with
  | .rd off => .next (hostRead off { s with program := rest })
  | .wr off v => .next (hostWrite off v { s with program := rest })
  | .poll off mask val =>
    if pollSatisfied (readData s off) mask val then .next (hostRead off { s with program := rest })
    else .next (hostRead off s)
  | .nonWord kind _ => .refused (.nonWordTransaction kind)

/-- The host's step: its next operation. A host with nothing left has no step: the turn passes with no effect
(70_reset_and_hazards.md R247; log 14). -/
def hostStep (s : State) : Host.Outcome State Fault Refusal :=
  match s.program with
  | [] => .next s
  | op :: rest => hostOperation op rest s

/-- The expansion of a pseudo-operation (30_encoding.md R102). -/
def Pseudo.expand : Pseudo → HostOp
  | .nop => .wr 0x008#16 0x00000000#32
  | .clear => .wr 0x008#16 0x00000001#32
  | .encode => .wr 0x008#16 0x00000002#32
  | .decode => .wr 0x008#16 0x00000003#32
  | .wait => .poll 0x00C#16 0x00000001#32 0x00000000#32
  | .ack => .wr 0x00C#16 0x00000016#32
  | .putSym i x => .wr (BitVec.ofNat 16 (symInAddr i)) (x.setWidth 32)
  | .putBits w v => .wr (BitVec.ofNat 16 (bitBufAddr w)) v
  | .getSym i => .rd (BitVec.ofNat 16 (symOutAddr i))
  | .getBits w => .rd (BitVec.ofNat 16 (bitBufAddr w))

end Sys2Proof.Machine
end

