-- ==== Sys2Proof/Machine/Schedule.lean ====
section
/-! DEFINITION. Which agent takes the next step (00_scope.md R7), and that agent's step. -/

namespace Sys2Proof.Machine

/-- Who moves next: the first of `turns`; once they are used up, the engine if it is busy (so an enabled
EngineComplete is eventually taken, 00_scope.md R7), else the host (log 1). -/
def nextTurn (s : State) : Turn :=
  match s.turns with
  | t :: _ => t
  | [] =>
    match s.eng with
    | .busy _ _ => .engine
    | .idle => .host

/-- The state with its first turn used up. -/
def State.popTurn (s : State) : State := { s with turns := s.turns.tail }

/-- One turn: the host's transaction, the engine's completion, or Reset (00_scope.md R7). -/
def takeTurn (t : Turn) (s : State) : Host.Outcome State Fault Refusal :=
  match t with
  | .host => hostStep s
  | .engine => engineStep s
  | .reset => .next s.resetStep

end Sys2Proof.Machine
end

