-- ==== Sys2Proof/Machine/Step.lean ====
section
/-! DEFINITION. The step of the block, and the state in which the very next step runs a given command word. -/

namespace Sys2Proof.Machine

/-- One step (00_scope.md R7): the next agent's atomic step. A state with a reserved ERRCODE, which the block never
produces, is treated as a fault (93_implementation_defined.md U17). -/
def step (s : State) : Host.Outcome State Fault Refusal :=
  if s.status.reservedErrCode then .fault .reservedErrCode else takeTurn (nextTurn s) s.popTurn

/-- The state in which the host's CMD write of w has been accepted (40_commands.md R120) and the engine moves next, so
that the very next step runs w. The block fetches nothing: a command comes to run because the host writes CMD (log 3). -/
def State.withFetchWord (s : State) (nbits w : Nat) : State :=
  let issued := s.issue (BitVec.ofNat 32 (w % 2 ^ nbits))
  { issued with turns := .engine :: issued.turns }

end Sys2Proof.Machine
end

