-- ==== Sys2Proof/Safety.lean ====
section
/-! DEFINITION. The terms claims use: the invariants of the state, what the retained tree is, and what a host cannot
touch. -/

namespace Sys2Proof.Machine

/-- The invariants of STATUS (10_state.md R27; 60_exceptions.md R200). -/
def Status.Ok (t : Status) : Prop :=
  (t.err = true ↔ t.errCode ≠ 0#4) ∧ ¬ (t.done = true ∧ t.err = true) ∧
  (t.busy = true → t.done = false ∧ t.err = false) ∧ t.errCode.toNat ≤ 6

/-- ENG is busy exactly when STATUS.BUSY = 1, and names the word's opcode, which is LAST_OP (10_state.md R21;
40_commands.md R120). -/
def State.EngOk (s : State) : Prop :=
  match s.eng with
  | .idle => s.status.busy = false
  | .busy op w => s.status.busy = true ∧ op = cmdOp w ∧ s.status.lastOp = cmdOp w

/-- "No tree": TREE_VALID and the tree registers are 0 and every table byte is 0 (10_state.md R44). -/
def State.NoTree (s : State) : Prop :=
  s.status.treeValid = false ∧ s.nsym = 0#9 ∧ s.root = 0#9 ∧ s.nnodes = 0#9 ∧
  ∀ a, isTableByte a = true → Memory.byte? s.mem a = some 0#8

/-- The retained tree is the one an ENCODE of `input` builds (10_state.md R44; 41_encoder.md R156). -/
def State.HoldsTreeOf (input : List Symbol) (s : State) : Prop :=
  s.status.treeValid = true ∧ 1 ≤ input.length ∧ input.length ≤ Config.nMax ∧
  s.nsym = BitVec.ofNat 9 (distinct input) ∧ s.root = BitVec.ofNat 9 (rootSlot (distinct input)) ∧
  s.nnodes = BitVec.ofNat 9 (nodeCount (distinct input)) ∧
  ∀ a, isTableByte a = true → Memory.byte? s.mem a = Memory.byte? (commitTables input []) a

/-- One of the two cases of 10_state.md R44: no tree, or the tree of one successful ENCODE of one input. -/
def State.TreeOk (s : State) : Prop := s.NoTree ∨ ∃ input, s.HoldsTreeOf input

/-- A BITBUF word is written whole or not at all (20_memory.md R71). -/
def Memory.BitBufWhole (m : Memory) : Prop :=
  ∀ w, w < 1024 → (∀ i, i < 4 → (Memory.byte? m (bitBufAddr w + i)).isSome = true) ∨
    (∀ i, i < 4 → Memory.byte? m (bitBufAddr w + i) = none)

/-- The invariant of the block: STATUS, ENG, the canonical form of memory, whole BITBUF words, SYM_OUT_LEN within
SYM_OUT (10_state.md R31) and the retained tree. -/
def State.Inv (s : State) : Prop :=
  s.status.Ok ∧ s.EngOk ∧ Memory.wf s.mem ∧ Memory.BitBufWhole s.mem ∧ s.symOutLen.toNat ≤ Config.nMax ∧ s.TreeOk

/-- Two states agree on the retained tree: TREE_VALID, NSYM, ROOT, NNODES and every table byte (10_state.md R35). -/
def State.SameTree (s t : State) : Prop :=
  t.status.treeValid = s.status.treeValid ∧ t.nsym = s.nsym ∧ t.root = s.root ∧ t.nnodes = s.nnodes ∧
  ∀ a, isTableByte a = true → Memory.byte? t.mem a = Memory.byte? s.mem a

/-- Two states agree on every register and flag of the block and on memory (10_state.md R22, R21, R37 to R43): they may
differ in the response, the host's program, the schedule and the draws taken. -/
def State.SameBlock (s t : State) : Prop :=
  t.status = s.status ∧ t.ie = s.ie ∧ t.symInLen = s.symInLen ∧ t.bitLen = s.bitLen ∧ t.symOutLen = s.symOutLen ∧
  t.nsym = s.nsym ∧ t.root = s.root ∧ t.nnodes = s.nnodes ∧ t.errInfo = s.errInfo ∧ t.eng = s.eng ∧ t.mem = s.mem

/-- The command inputs' offsets: CMD, SYM_IN_LEN, BIT_LEN, SYM_IN and BITBUF (20_memory.md R68). -/
def isInputOffset (off : Offset) : Prop :=
  off = 0x008#16 ∨ off = 0x014#16 ∨ off = 0x018#16 ∨ (0x4000 ≤ off.toNat ∧ off.toNat < 0x8000) ∨
  (0xC000 ≤ off.toNat ∧ off.toNat < 0xD000)

/-- The reserved offsets of the window (20_memory.md R63, R64). -/
def isReservedOffset (off : Offset) : Prop :=
  (0x0030 ≤ off.toNat ∧ off.toNat < 0x0400) ∨ (0x0C00 ≤ off.toNat ∧ off.toNat < 0x1000) ∨ 0xD000 ≤ off.toNat

/-- The read-only registers and windows (20_memory.md R65). -/
def isReadOnlyOffset (off : Offset) : Prop :=
  off.toNat < 0x0008 ∨ (0x001C ≤ off.toNat ∧ off.toNat < 0x0030) ∨ (0x0400 ≤ off.toNat ∧ off.toNat < 0x0C00) ∨
  (0x1000 ≤ off.toNat ∧ off.toNat < 0x4000) ∨ (0x8000 ≤ off.toNat ∧ off.toNat < 0xC000)

/-- The FREQ, CODELEN, NODE and CODEBITS windows (20_memory.md R63). -/
def isTreeWindow (off : Offset) : Prop :=
  (0x0400 ≤ off.toNat ∧ off.toNat < 0x0C00) ∨ (0x1000 ≤ off.toNat ∧ off.toNat < 0x4000)

/-- The BITBUF window (20_memory.md R63). -/
def isBitBufWindow (off : Offset) : Prop := 0xC000 ≤ off.toNat ∧ off.toNat < 0xD000

/-- The SYM_OUT window (20_memory.md R63). -/
def isSymOutWindow (off : Offset) : Prop := 0x8000 ≤ off.toNat ∧ off.toNat < 0xC000

/-- The offsets that read as any(32) while the word w runs (70_reset_and_hazards.md R241). -/
def hiddenWhileRunning (w : Word) (off : Offset) : Prop :=
  (w = 0x00000002#32 ∧ (isTreeWindow off ∨ isBitBufWindow off)) ∨ (w = 0x00000003#32 ∧ isSymOutWindow off) ∨
  (w = 0x00000001#32 ∧ isTreeWindow off)

/-- No running command hides the offset (20_memory.md R67; 70_reset_and_hazards.md R241). -/
def State.Shows (s : State) (off : Offset) : Prop := ∀ op w, s.eng = .busy op w → ¬ hiddenWhileRunning w off

/-- The slot reached from `slot` along a path, 0 for left and 1 for right; none where the path leaves the tree
(41_encoder.md R150). -/
def follow (nodes : List TreeNode) : (slot : Nat) → BitString → Option Nat
  | slot, [] => some slot
  | slot, b :: path =>
    match nodes[slot]? with
    | some ⟨.internal l r, _⟩ => follow nodes (if b then r else l) path
    | _ => none

/-- The block is quiescent: the host has nothing left and the engine is idle (70_reset_and_hazards.md R247). -/
def State.Quiescent (s : State) : Prop := s.program = [] ∧ s.eng = .idle

/-- The host program asks only for whole-word transactions (20_memory.md R61). -/
def wordsOnly (program : List HostOp) : Bool :=
  program.all fun op =>
    match op with
    | .nonWord _ _ => false
    | _ => true

end Sys2Proof.Machine
end

