-- ==== Sys2Proof/Certificates/Slice0/Obligations.lean ====
section
/-! DEFINITION. The statements for the provers, each from numbered rules of the spec. -/

open Sys2Proof Sys2Proof.Machine

/-! ### Encodings -/

/-- 30_encoding.md R92: "The decoder is total: every 32-bit word selects exactly one row." A word decodes to a command
exactly when it is that command's encoding, which is the table's word; the two illegal rows are told apart as the table
says. -/
def Obligations.DecodeAndEncodeAgree : Prop :=
  (encode .nop = 0x00000000#32 ∧ encode .clear = 0x00000001#32 ∧ encode .encode = 0x00000002#32 ∧
    encode .decode = 0x00000003#32) ∧
  (∀ (w : Word) (i : Instr), decode w = .command i ↔ w = encode i) ∧
  (∀ i : Instr, i.wellFormed = true ∧ cmdWordWellFormed (encode i) = true) ∧
  (∀ w : Word, decode w = .illegal .reservedOpcode ↔ w.extractLsb' 4 28 = 0#28 ∧ 4 ≤ (w.extractLsb' 0 4).toNat) ∧
  (∀ w : Word, decode w = .illegal .mbzNonzero ↔ w.extractLsb' 4 28 ≠ 0#28)

/-- The words of 30_encoding.md R92 and 40_commands.md R125, written out. -/
def Obligations.SpelledWordsDecode : Prop :=
  decode 0b00000000000000000000000000000000#32 = .command .nop ∧
  decode 0b00000000000000000000000000000001#32 = .command .clear ∧
  decode 0b00000000000000000000000000000010#32 = .command .encode ∧
  decode 0b00000000000000000000000000000011#32 = .command .decode ∧
  decode 0b00000000000000000000000000000100#32 = .illegal .reservedOpcode ∧
  decode 0b00000000000000000000000000001111#32 = .illegal .reservedOpcode ∧
  decode 0b00000000000000000000000000010010#32 = .illegal .mbzNonzero ∧
  decode 0b10000000000000000000000000000011#32 = .illegal .mbzNonzero

/-- 30_encoding.md R97: a leaf of symbol s is 0xC0000000 | s; an internal node with children a and b is
0x40000000 | (b << 16) | a; and the fields read back as the decoder reads them. -/
def Obligations.LinkWordsHoldTheirFields : Prop :=
  (∀ x : Symbol, leafLink x = 0xC0000000#32 ||| x.setWidth 32 ∧ linkIsLeaf (leafLink x) = true ∧
    linkSymbol (leafLink x) = x) ∧
  (∀ a b : NodeIndex, internalLink a b = 0x40000000#32 ||| (b.setWidth 32 <<< 16) ||| a.setWidth 32 ∧
    linkIsLeaf (internalLink a b) = false ∧ linkLeft (internalLink a b) = a ∧ linkRight (internalLink a b) = b)

/-! ### Reset -/

/-- 70_reset_and_hazards.md R233 and 10_state.md R47: the state after reset, field by field and table by table. The
fields that are the model's own (response, program, turns, draws) are not spoken of. -/
def Obligations.ResetStateIsIdleWithoutTree : Prop :=
  State.reset.eng = .idle ∧ readData State.reset 0x00C#16 = 0x00000000#32 ∧ State.reset.status.busy = false ∧
  State.reset.status.treeValid = false ∧ State.reset.status.done = false ∧ State.reset.status.err = false ∧
  State.reset.ie = false ∧ State.irq State.reset = false ∧
  readData State.reset 0x000#16 = 0x48554646#32 ∧ readData State.reset 0x004#16 = 0x01FF0FC8#32 ∧
  readData State.reset 0x010#16 = 0#32 ∧ readData State.reset 0x014#16 = 0#32 ∧ readData State.reset 0x018#16 = 0#32 ∧
  readData State.reset 0x01C#16 = 0#32 ∧ readData State.reset 0x020#16 = 0#32 ∧ readData State.reset 0x024#16 = 0#32 ∧
  readData State.reset 0x028#16 = 0#32 ∧ readData State.reset 0x02C#16 = 0#32 ∧
  (∀ a, isTableByte a = true → Memory.byte? State.reset.mem a = some 0#8) ∧
  (∀ i, i < 4096 → Memory.symbol? State.reset.mem (symInAddr i) = none ∧
    Memory.symbol? State.reset.mem (symOutAddr i) = none) ∧
  (∀ w, w < 1024 → Memory.word? State.reset.mem (bitBufAddr w) = none)

/-- 70_reset_and_hazards.md R230 and R231: a Reset turn gives every register, flag and table its reset value whatever
the state was, makes every buffer entry unwritten again and abandons a running command. That the turn is used up (log 1),
that the host's program is kept (log 2) and that no draw is taken back (log 4) are the model's choices. -/
def Obligations.ResetStepResetsEverything : Prop :=
  ∀ (s : State) (ts : List Turn), s.status.reservedErrCode = false → s.turns = .reset :: ts →
    ∃ t, step s = .next t ∧ t.eng = .idle ∧ t.status.toWord = 0#32 ∧ t.status.done = false ∧ t.status.err = false ∧
      t.ie = false ∧ State.irq t = false ∧ t.symInLen = 0#32 ∧ t.bitLen = 0#32 ∧ t.symOutLen = 0#13 ∧
      t.nsym = 0#9 ∧ t.root = 0#9 ∧ t.nnodes = 0#9 ∧ t.errInfo = 0#32 ∧
      (∀ a, isTableByte a = true → Memory.byte? t.mem a = some 0#8) ∧
      (∀ a, isBufferByte a = true → Memory.byte? t.mem a = none) ∧
      t.turns = ts ∧ t.program = s.program ∧ s.draws ≤ t.draws

/-! ### Host reads -/

/-- 10_state.md R24, R25 and the registers of R22: what each register's offset reads, in every state, busy or not. -/
def Obligations.RegistersReadAtTheirOffsets : Prop :=
  ∀ s : State,
    readData s 0x000#16 = 0x48554646#32 ∧ readData s 0x004#16 = 0x01FF0FC8#32 ∧ readData s 0x008#16 = 0#32 ∧
    readData s 0x00C#16 = s.status.toWord ∧ readData s 0x010#16 = (if s.ie then 1#32 else 0#32) ∧
    readData s 0x014#16 = s.symInLen ∧ readData s 0x018#16 = s.bitLen ∧
    readData s 0x01C#16 = s.symOutLen.setWidth 32 ∧ readData s 0x020#16 = s.nsym.setWidth 32 ∧
    readData s 0x024#16 = s.root.setWidth 32 ∧ readData s 0x028#16 = s.nnodes.setWidth 32 ∧
    readData s 0x02C#16 = s.errInfo

/-- 10_state.md R27: every field of the STATUS word at its bits, the reserved bits 0. -/
def Obligations.StatusWordHoldsItsFields : Prop :=
  ∀ t : Status,
    t.toWord.getLsbD 0 = t.busy ∧ t.toWord.getLsbD 1 = t.done ∧ t.toWord.getLsbD 2 = t.err ∧
    t.toWord.getLsbD 3 = t.treeValid ∧ t.toWord.getLsbD 4 = t.busyWr ∧ t.toWord.extractLsb' 5 3 = 0#3 ∧
    t.toWord.extractLsb' 8 4 = t.errCode ∧ t.toWord.extractLsb' 12 4 = 0#4 ∧
    t.toWord.extractLsb' 16 4 = t.lastOp ∧ t.toWord.extractLsb' 20 12 = 0#12

/-- 20_memory.md R67: a read by the host returns MemRead's value and changes no state of the block, whatever is read and
whether or not a command runs; a draw it takes is not taken again. The value of a window entry that no running command
hides is the entry's current value: a table word, a written symbol zero-extended, a written BITBUF word. The operation
and the turn used up are logs 1 and 2. -/
def Obligations.ReadChangesNoState : Prop :=
  (∀ (s : State) (off : Offset) (rest : List HostOp), s.status.reservedErrCode = false → nextTurn s = .host →
    s.program = .rd off :: rest →
    ∃ t, step s = .next t ∧ s.SameBlock t ∧ t.program = rest ∧ t.turns = s.turns.tail ∧
      t.rsp = some (.read (readData s off) (!aligned off)) ∧ s.draws ≤ t.draws ∧ t.draws ≤ s.draws + 1) ∧
  (∀ (s : State) (off : Offset) (x : Nat), x < 256 → s.Shows off →
    (off.toNat = 0x0400 + 4 * x → readData s off = Memory.tableWord s.mem (freqAddr x)) ∧
    (off.toNat = 0x0800 + 4 * x → readData s off = Memory.tableWord s.mem (codeLenAddr x)) ∧
    ∀ k, k < 8 → off.toNat = 0x2000 + 32 * x + 4 * k → readData s off = Memory.tableWord s.mem (codeBitsAddr x k)) ∧
  (∀ (s : State) (off : Offset) (i : Nat), i < 512 → s.Shows off →
    (off.toNat = 0x1000 + 8 * i → readData s off = Memory.tableWord s.mem (nodeLinkAddr i)) ∧
    (off.toNat = 0x1004 + 8 * i → readData s off = Memory.tableWord s.mem (nodeFreqAddr i))) ∧
  (∀ (s : State) (off : Offset) (i : Nat) (y : Symbol), i < 4096 → s.Shows off →
    (off.toNat = 0x4000 + 4 * i → Memory.symbol? s.mem (symInAddr i) = some y → readData s off = y.setWidth 32) ∧
    (off.toNat = 0x8000 + 4 * i → Memory.symbol? s.mem (symOutAddr i) = some y → readData s off = y.setWidth 32)) ∧
  (∀ (s : State) (off : Offset) (w : Nat) (v : Word), w < 1024 → s.Shows off → off.toNat = 0xC000 + 4 * w →
    Memory.word? s.mem (bitBufAddr w) = some v → readData s off = v)

/-- 20_memory.md R62 and 60_exceptions.md R203: a misaligned transaction is answered with an error and changes no state
of the block; no other transaction is a bus error. And 20_memory.md R60: the step of a host write is `hostWrite` of it;
that the operation and the turn are then used up is the model's choice (logs 1 and 2). -/
def Obligations.OnlyMisalignedTransactionsAreBusErrors : Prop :=
  ∀ (s : State) (off : Offset) (v : Word) (rest : List HostOp), s.status.reservedErrCode = false → nextTurn s = .host →
    (s.program = .rd off :: rest → ∃ t, step s = .next t ∧
      (off.extractLsb' 0 2 ≠ 0#2 → t.rsp = some (.read 0#32 true) ∧ s.SameBlock t ∧ t.draws = s.draws) ∧
      (off.extractLsb' 0 2 = 0#2 → ∃ d, t.rsp = some (.read d false))) ∧
    (s.program = .wr off v :: rest →
      step s = .next (hostWrite off v { s with program := rest, turns := s.turns.tail }) ∧ ∃ t, step s = .next t ∧
      (off.extractLsb' 0 2 ≠ 0#2 → t.rsp = some (.write true) ∧ s.SameBlock t ∧ t.draws = s.draws) ∧
      (off.extractLsb' 0 2 = 0#2 → t.rsp = some (.write false)))

/-- 20_memory.md R63: the window lies at HUFF_BASE, 64 KiB aligned (00_scope.md R6); each bus address in it has the
port offset that its distance from HUFF_BASE gives; and where every entry of every window lies, and the reserved
ranges. -/
def Obligations.WindowMapsEveryEntry : Prop :=
  Config.huffBase % 0x10000 = 0 ∧
  (∀ off : Offset, selectsBlock (busAddress off) = true ∧ portOffset (busAddress off) = off) ∧
  (∀ addr : Nat, selectsBlock addr = true → busAddress (portOffset addr) = addr) ∧
  (∀ x, x < 256 → target (BitVec.ofNat 16 (0x0400 + 4 * x)) = .freq x ∧
    target (BitVec.ofNat 16 (0x0800 + 4 * x)) = .codeLen x) ∧
  (∀ x k, x < 256 → k < 8 → target (BitVec.ofNat 16 (0x2000 + 32 * x + 4 * k)) = .codeBits x k) ∧
  (∀ i, i < 512 → target (BitVec.ofNat 16 (0x1000 + 8 * i)) = .nodeLink i ∧
    target (BitVec.ofNat 16 (0x1004 + 8 * i)) = .nodeFreq i) ∧
  (∀ i, i < 4096 → target (BitVec.ofNat 16 (0x4000 + 4 * i)) = .symIn i ∧
    target (BitVec.ofNat 16 (0x8000 + 4 * i)) = .symOut i) ∧
  (∀ w, w < 1024 → target (BitVec.ofNat 16 (0xC000 + 4 * w)) = .bitBuf w) ∧
  (∀ off, isReservedOffset off → target off = .reserved)

/-- 20_memory.md R64: an aligned transaction to a reserved offset reads 0 or is ignored, without an error. -/
def Obligations.ReservedOffsetsReadZeroAndIgnoreWrites : Prop :=
  ∀ (s : State) (off : Offset) (v : Word), aligned off = true → isReservedOffset off →
    hostRead off s = { s with rsp := some (.read 0#32 false) } ∧ hostWrite off v s = { s with rsp := some (.write false) }

/-- 20_memory.md R65: an aligned write to a read-only register or window is ignored, without an error and without
BUSY_WR. -/
def Obligations.ReadOnlyTargetsIgnoreWrites : Prop :=
  ∀ (s : State) (off : Offset) (v : Word), aligned off = true → isReadOnlyOffset off →
    hostWrite off v s = { s with rsp := some (.write false) }

/-- 70_reset_and_hazards.md R241: while a command runs, a host read of a window it may write returns a fresh any(32);
every other offset reads as if no command ran. -/
def Obligations.RunningCommandHidesItsWindows : Prop :=
  ∀ (s : State) (w : Word) (off : Offset), aligned off = true → s.eng = .busy (cmdOp w) w →
    (hiddenWhileRunning w off →
      hostRead off s = { s with rsp := some (.read (Config.freeValue s.draws) false), draws := s.draws + 1 }) ∧
    (¬ hiddenWhileRunning w off → readData s off = readData { s with eng := .idle } off)

/-- 70_reset_and_hazards.md R232: a buffer entry never written since Reset reads as a fresh draw, by the host and by the
engine alike; after a write it holds what was written. And the engine reads a written entry as written: ENCODE reads
SYM_IN[0] to SYM_IN[len-1] (30_encoding.md R93; 20_memory.md R73, R76), and DECODE reads bit k of the stream as bit
31 - k mod 32 of BITBUF word k div 32 (30_encoding.md R95; 42_decoder.md R174). That ENCODE takes one draw for an entry,
and DECODE one for each bit, is the model's reading (logs 5 and 6). -/
def Obligations.UnwrittenBufferEntriesReadFreshDraws : Prop :=
  (∀ (s : State) (i : Nat), i < 4096 → s.eng = .idle →
    (Memory.symbol? s.mem (symInAddr i) = none → hostRead (BitVec.ofNat 16 (symInAddr i)) s =
      { s with rsp := some (.read (((Config.freeValue s.draws).setWidth 8).setWidth 32) false), draws := s.draws + 1 }) ∧
    (Memory.symbol? s.mem (symOutAddr i) = none → hostRead (BitVec.ofNat 16 (symOutAddr i)) s =
      { s with rsp := some (.read (((Config.freeValue s.draws).setWidth 8).setWidth 32) false),
               draws := s.draws + 1 })) ∧
  (∀ (s : State) (w : Nat), w < 1024 → s.eng = .idle → Memory.word? s.mem (bitBufAddr w) = none →
    hostRead (BitVec.ofNat 16 (bitBufAddr w)) s =
      { s with rsp := some (.read (Config.freeValue s.draws) false), draws := s.draws + 1 }) ∧
  (∀ (s : State) (len i : Nat), i < len → Memory.symbol? s.mem (symInAddr i) = none →
    (symInOperand s len)[i]? = some ((Config.freeValue (s.draws + i)).setWidth 8)) ∧
  (∀ (s : State) (len k : Nat), k < len → Memory.word? s.mem (bitBufAddr (k / 32)) = none →
    (streamOperand s len)[k]? = some ((Config.freeValue (s.draws + k)).getLsbD (31 - k % 32))) ∧
  (∀ (s : State) (len : Nat), (symInOperand s len).length = len ∧ (streamOperand s len).length = len) ∧
  (∀ (s : State) (len i : Nat) (y : Symbol), i < len → Memory.symbol? s.mem (symInAddr i) = some y →
    (symInOperand s len)[i]? = some y) ∧
  (∀ (s : State) (len k : Nat) (v : Word), k < len → Memory.word? s.mem (bitBufAddr (k / 32)) = some v →
    (streamOperand s len)[k]? = some (v.getLsbD (31 - k % 32))) ∧
  (∀ (s : State) (i : Nat) (v : Word), i < 4096 → s.status.busy = false →
    Memory.symbol? (hostWrite (BitVec.ofNat 16 (symInAddr i)) v s).mem (symInAddr i) = some (v.setWidth 8)) ∧
  (∀ (s : State) (w : Nat) (v : Word), w < 1024 → s.status.busy = false →
    Memory.word? (hostWrite (BitVec.ofNat 16 (bitBufAddr w)) v s).mem (bitBufAddr w) = some v)

/-! ### Host writes -/

/-- 70_reset_and_hazards.md R242 and 20_memory.md R68: a write to a command input while BUSY = 1 is lost, with only
STATUS.BUSY_WR to show it. -/
def Obligations.BusyDropsInputWrites : Prop :=
  ∀ (s : State) (off : Offset) (v : Word), s.status.busy = true → aligned off = true → isInputOffset off →
    hostWrite off v s = { s with status := { s.status with busyWr := true }, rsp := some (.write false) }

/-- 20_memory.md R68 and 30_encoding.md R94, R95: accepted writes to the buffers and length registers; each stores its
entry alone, and a read gives it back. -/
def Obligations.IdleInputWritesAreStored : Prop :=
  ∀ (s : State) (v : Word), s.status.busy = false → s.eng = .idle →
    hostWrite 0x014#16 v s = { s with symInLen := v, rsp := some (.write false) } ∧
    hostWrite 0x018#16 v s = { s with bitLen := v, rsp := some (.write false) } ∧
    (∀ i, i < 4096 → ∃ t, hostWrite (BitVec.ofNat 16 (symInAddr i)) v s = t ∧
      t = { s with mem := t.mem, rsp := some (.write false) } ∧
      readData t (BitVec.ofNat 16 (symInAddr i)) = (v.setWidth 8).setWidth 32 ∧
      ∀ a, a ≠ symInAddr i → Memory.byte? t.mem a = Memory.byte? s.mem a) ∧
    (∀ w, w < 1024 → ∃ t, hostWrite (BitVec.ofNat 16 (bitBufAddr w)) v s = t ∧
      t = { s with mem := t.mem, rsp := some (.write false) } ∧
      readData t (BitVec.ofNat 16 (bitBufAddr w)) = v ∧
      ∀ a, (a < bitBufAddr w ∨ bitBufAddr w + 4 ≤ a) → Memory.byte? t.mem a = Memory.byte? s.mem a)

/-- 10_state.md R27: a STATUS write clears DONE, ERR with ERRCODE, and BUSY_WR where it writes 1, and changes nothing
else, even while a command runs. -/
def Obligations.StatusWriteClearsWhatItNames : Prop :=
  ∀ (s : State) (v : Word), ∃ t, hostWrite 0x00C#16 v s = t ∧ t = { s with status := t.status, rsp := some (.write false) } ∧
    t.status.done = (if v.getLsbD 1 then false else s.status.done) ∧
    t.status.err = (if v.getLsbD 2 then false else s.status.err) ∧
    t.status.errCode = (if v.getLsbD 2 then 0#4 else s.status.errCode) ∧
    t.status.busyWr = (if v.getLsbD 4 then false else s.status.busyWr) ∧
    t.status.busy = s.status.busy ∧ t.status.treeValid = s.status.treeValid ∧ t.status.lastOp = s.status.lastOp

/-- 10_state.md R28: CTRL holds IE alone; a write is accepted even while BUSY = 1. -/
def Obligations.CtrlHoldsTheInterruptEnable : Prop :=
  (∀ (s : State) (v : Word), hostWrite 0x010#16 v s = { s with ie := v.getLsbD 0, rsp := some (.write false) } ∧
    (readData s 0x010#16).getLsbD 0 = s.ie ∧ (readData s 0x010#16).extractLsb' 1 31 = 0#31) ∧
  readData State.reset 0x010#16 = 0x00000000#32

/-- 40_commands.md R120: a CMD write while BUSY = 0 issues a command, whatever the word, and changes nothing else; a CMD
write while BUSY = 1 is dropped; and an illegal word ends with an error at its completion. -/
def Obligations.CmdWriteIssuesAnyWord : Prop :=
  (∀ (s : State) (w : Word), s.status.busy = false → hostWrite 0x008#16 w s = { s with
    status := { s.status with done := false, err := false, errCode := 0#4, lastOp := w.extractLsb' 0 4, busy := true }
    eng := .busy (w.extractLsb' 0 4) w
    rsp := some (.write false) }) ∧
  (∀ (s : State) (w : Word), s.status.busy = true → hostWrite 0x008#16 w s =
    { s with status := { s.status with busyWr := true }, rsp := some (.write false) }) ∧
  (∀ (s : State) (w : Word), (w.extractLsb' 4 28 ≠ 0#28 ∨ 4 ≤ (w.extractLsb' 0 4).toNat) →
    ∃ t, runCommand w s = .next t ∧ t.status.err = true ∧ t.status.errCode = 1#4 ∧ t.status.busy = false)

/-! ### The step and the completion of a command -/

/-- When the engine moves, the step is the completion of the word that issued the running command, after the turn is
used up (40_commands.md R121): exec of i where the word decodes to i, and raise ERR_ILLEGAL_CMD of the word where it is
illegal (40_commands.md R125; 60_exceptions.md R201). That a turn is used up is the model's choice (log 1). -/
def Obligations.StepRunsTheDecodedCommand : Prop :=
  ∀ (s : State) (op : BitVec 4) (w : Word), s.status.reservedErrCode = false → nextTurn s = .engine →
    s.eng = .busy op w →
    step s = runCommand w { s with turns := s.turns.tail } ∧
    (∀ i : Instr, decode w = .command i → step s = exec i { s with turns := s.turns.tail }) ∧
    ((w.extractLsb' 4 28 ≠ 0#28 ∨ 4 ≤ (w.extractLsb' 0 4).toNat) → step s = .next { s with
      turns := s.turns.tail, errInfo := w, eng := .idle
      status := { s.status with errCode := 1#4, err := true, busy := false } })

/-- 40_commands.md R125: the host writes an illegal word to CMD and the engine completes it: LAST_OP is its low bits,
ERR = 1, ERRCODE = 1, ERR_INFO is the word, and nothing else of the block changes. That the two turns (log 1) and the
host's operation (log 2) are used up is the model's choice. -/
def Obligations.IllegalWordEndsInError : Prop :=
  ∀ (s : State) (w : Word) (rest : List HostOp) (ts : List Turn), s.status.reservedErrCode = false →
    s.status.busy = false → s.turns = .host :: .engine :: ts → s.program = .wr 0x008#16 w :: rest →
    (w.extractLsb' 4 28 ≠ 0#28 ∨ 4 ≤ (w.extractLsb' 0 4).toNat) →
    Sys2Proof.core.run 2 s = .next { s with
      status := { s.status with done := false, err := true, errCode := 1#4, lastOp := w.extractLsb' 0 4, busy := false }
      errInfo := w, eng := .idle, rsp := some (.write false), program := rest, turns := ts }

/-- 40_commands.md R121 and 60_exceptions.md R201: from the state an issue leaves, every word's command, legal or not,
completes: the engine is idle again, and either DONE = 1, ERR = 0, ERRCODE = 0, ERR_INFO = 0, or DONE = 0, ERR = 1 and
ERRCODE is one of 1 to 6. BUSY_WR and LAST_OP are untouched, and so is every register and buffer of the host. -/
def Obligations.EveryCommandCompletes : Prop :=
  ∀ (s : State) (w : Word), s.status.done = false → s.status.err = false → s.status.errCode = 0#4 →
    ∃ t, runCommand w s = .next t ∧ t.eng = .idle ∧ t.status.busy = false ∧ t.status.busyWr = s.status.busyWr ∧
      t.status.lastOp = s.status.lastOp ∧ t.ie = s.ie ∧ t.symInLen = s.symInLen ∧ t.rsp = s.rsp ∧
      t.program = s.program ∧ t.turns = s.turns ∧
      (∀ a, 0x4000 ≤ a → a < 0x8000 → Memory.byte? t.mem a = Memory.byte? s.mem a) ∧
      ((t.status.done = true ∧ t.status.err = false ∧ t.status.errCode = 0#4 ∧ t.errInfo = 0#32) ∨
       (t.status.done = false ∧ t.status.err = true ∧ 1 ≤ t.status.errCode.toNat ∧ t.status.errCode.toNat ≤ 6))

/-- 60_exceptions.md R207: irq is IE and (DONE or ERR); it is 0 at Reset, falls at every issue, rises at every
completion when IE = 1, falls when DONE and ERR are cleared or IE is, and BUSY_WR never raises it. -/
def Obligations.IrqFollowsCompletion : Prop :=
  (∀ s : State, State.irq s = (s.ie && (s.status.done || s.status.err))) ∧ State.irq State.reset = false ∧
  (∀ (s : State) (w : Word), s.status.busy = false → State.irq (hostWrite 0x008#16 w s) = false) ∧
  (∀ (s t : State) (w : Word), runCommand w s = .next t → State.irq t = s.ie) ∧
  (∀ (s : State) (v : Word), v.getLsbD 1 = true → v.getLsbD 2 = true → State.irq (hostWrite 0x00C#16 v s) = false) ∧
  (∀ (s : State) (v : Word), v.getLsbD 0 = false → State.irq (hostWrite 0x010#16 v s) = false) ∧
  (∀ (s : State) (off : Offset) (v : Word), s.status.busy = true → aligned off = true → isInputOffset off →
    State.irq (hostWrite off v s) = State.irq s)

/-- 00_scope.md R7 (weak fairness) and 40_commands.md R121: a running command is completed or abandoned by Reset no
later than one step after the fixed turns are used up, for every host program of whole-word transactions. That the engine
moves when the turns are used up is the model's choice (log 1). -/
def Obligations.EveryCommandIsEventuallyEnded : Prop :=
  ∀ s : State, s.Inv → s.eng ≠ .idle → wordsOnly s.program = true →
    ∃ k t, k ≤ s.turns.length + 1 ∧ Sys2Proof.core.run k s = .next t ∧ t.eng = .idle

/-! ### NOP and CLEAR -/

/-- 40_commands.md R123: NOP changes no state of its own; from an issue it leaves DONE = 1 with ERR, ERRCODE and
ERR_INFO clear, whatever ERR was before. -/
def Obligations.NopOnlyCompletes : Prop :=
  (∀ s : State, exec .nop s = .next { s with errInfo := 0#32, status := { s.status with done := true, busy := false },
                                             eng := .idle }) ∧
  (∀ s : State, exec .nop (s.issue 0x00000000#32) = .next { s with
      errInfo := 0#32, eng := .idle,
      status := { s.status with done := true, err := false, errCode := 0#4, busy := false, lastOp := 0#4 } }) ∧
  (∀ t, exec .nop (State.reset.issue 0x00000000#32) = .next t → t.status.toWord = 0x00000002#32)

/-- 40_commands.md R124: CLEAR discards the retained tree and code table and leaves everything else; it is idempotent;
after it a DECODE of a non-empty stream raises ERR_NO_TREE. -/
def Obligations.ClearDiscardsTheTree : Prop :=
  ∀ s : State, ∃ t, exec .clear s = .next t ∧
    t = { s with mem := t.mem, nsym := 0#9, root := 0#9, nnodes := 0#9, errInfo := 0#32, eng := .idle,
                 status := { s.status with treeValid := false, done := true, busy := false } } ∧
    (∀ x, x < 256 → Memory.tableWord t.mem (freqAddr x) = 0#32 ∧ Memory.tableWord t.mem (codeLenAddr x) = 0#32 ∧
      ∀ k, k < 8 → Memory.tableWord t.mem (codeBitsAddr x k) = 0#32) ∧
    (∀ i, i < 512 → Memory.tableWord t.mem (nodeLinkAddr i) = 0#32 ∧ Memory.tableWord t.mem (nodeFreqAddr i) = 0#32) ∧
    (∀ a, isTableByte a = false → Memory.byte? t.mem a = Memory.byte? s.mem a) ∧
    (s.NoTree → Memory.wf s.mem → t.mem = s.mem) ∧
    (1 ≤ t.bitLen.toNat → t.bitLen.toNat ≤ 32768 → exec .decode t = .next (t.raise .noTree 0#32))

/-! ### ENCODE -/

/-- 41_encoder.md R141: SYM_IN_LEN above N_MAX ends ENCODE with ERR_LEN and changes nothing else. -/
def Obligations.EncodeRefusesALongInput : Prop :=
  ∀ s : State, 4096 < s.symInLen.toNat → exec .encode s = .next { s with
    errInfo := s.symInLen, eng := .idle, status := { s.status with errCode := 2#4, err := true, busy := false } }

/-- 41_encoder.md R140, R156: with SYM_IN_LEN ≤ N_MAX, ENCODE completes; NSYM, ROOT, NNODES, TREE_VALID and BIT_LEN are
those of the input it read; every other register, SYM_IN and SYM_OUT keep their values. -/
def Obligations.EncodeCompletesWithItsRegisters : Prop :=
  ∀ s : State, s.symInLen.toNat ≤ 4096 → ∃ t, exec .encode s = .next t ∧
    (let input := symInOperand s s.symInLen.toNat
     let n := input.toFinset.card
     t = { s with
       mem := t.mem, nsym := t.nsym, root := t.root, nnodes := t.nnodes, bitLen := t.bitLen, draws := t.draws,
       errInfo := 0#32, eng := .idle,
       status := { s.status with treeValid := decide (1 ≤ s.symInLen.toNat), done := true, busy := false } } ∧
     t.nsym.toNat = n ∧ t.root.toNat = (if 2 ≤ n then 2 * n - 2 else 0) ∧
     t.nnodes.toNat = (if 1 ≤ n then 2 * n - 1 else 0) ∧
     t.bitLen = BitVec.ofNat 32 (serialize input).length ∧ s.draws ≤ t.draws ∧
     (∀ a, 0x4000 ≤ a → a < 0xC000 → Memory.byte? t.mem a = Memory.byte? s.mem a))

/-- 41_encoder.md R142: after ENCODE, FREQ[x] is the number of occurrences of x, for every symbol, and the sum of all of
them is the input's length. -/
def Obligations.EncodeCountsEverySymbol : Prop :=
  ∀ s : State, s.symInLen.toNat ≤ 4096 → ∃ t, exec .encode s = .next t ∧
    (∀ x : Symbol, (Memory.tableWord t.mem (freqAddr x.toNat)).toNat = (symInOperand s s.symInLen.toNat).count x) ∧
    ((List.range 256).map fun x => (Memory.tableWord t.mem (freqAddr x)).toNat).sum = s.symInLen.toNat

/-- 41_encoder.md R156, 30_encoding.md R97, R98: after ENCODE, every NODE slot holds the node the builder made there, and
both words of every other slot are 0. -/
def Obligations.EncodeWritesEveryNode : Prop :=
  ∀ s : State, s.symInLen.toNat ≤ 4096 → ∃ t, exec .encode s = .next t ∧ ∀ i, i < 512 →
    match (buildTree (symInOperand s s.symInLen.toNat))[i]? with
    | some (TreeNode.mk (.leaf x) f) => Memory.tableWord t.mem (nodeLinkAddr i) = 0xC0000000#32 ||| x.setWidth 32 ∧
        (Memory.tableWord t.mem (nodeFreqAddr i)).toNat = f
    | some (TreeNode.mk (.internal l r) f) => Memory.tableWord t.mem (nodeLinkAddr i) =
          0x40000000#32 ||| (BitVec.ofNat 32 r <<< 16) ||| BitVec.ofNat 32 l ∧
        (Memory.tableWord t.mem (nodeFreqAddr i)).toNat = f
    | none => Memory.tableWord t.mem (nodeLinkAddr i) = 0#32 ∧ Memory.tableWord t.mem (nodeFreqAddr i) = 0#32

/-- 41_encoder.md R143: the leaves are the symbols that occur, ascending, in the first slots, with their counts. -/
def Obligations.LeavesFillTheFirstSlots : Prop :=
  ∀ input : List Symbol, ∃ syms : List Symbol,
    syms.Pairwise (fun x y => x.toNat < y.toNat) ∧ (∀ x, x ∈ syms ↔ 1 ≤ input.count x) ∧
    (buildTree input).take syms.length = syms.map (fun x => TreeNode.mk (.leaf x) (input.count x))

/-- 41_encoder.md R144 and R147, in part inferences that the spec draws there: with n ≥ 1 distinct symbols there are 2n - 1 nodes; each slot from n on is an internal
node whose children lie in lower slots and whose frequency is their sum; every slot but the last, the root, is a child
of exactly one node; and the root's frequency is the input's length. -/
def Obligations.MergeBuildsAFullTree : Prop :=
  ∀ input : List Symbol, 1 ≤ input.length →
    (buildTree input).length = 2 * input.toFinset.card - 1 ∧
    (∀ i, input.toFinset.card ≤ i → i < (buildTree input).length → ∃ l r f g h, l < i ∧ r < i ∧ l ≠ r ∧
      (buildTree input)[i]? = some (TreeNode.mk (.internal l r) f) ∧ ((buildTree input)[l]?).map TreeNode.freq = some g ∧
      ((buildTree input)[r]?).map TreeNode.freq = some h ∧ f = g + h) ∧
    (∀ c, c + 1 < (buildTree input).length → ∃! i : Nat, ∃ l r f : Nat,
      (buildTree input)[i]? = some (TreeNode.mk (.internal l r) f) ∧ (c = l ∨ c = r)) ∧
    ((buildTree input)[2 * input.toFinset.card - 2]?).map TreeNode.freq = some input.length

/-- 41_encoder.md R144 to R146: the node removed is the live node with the least frequency and, among equals, the least
slot; a merge pass removes two this way, the first removed becomes the left child, the second the right child, and the
new node, with the sum of their frequencies, takes the next slot and is live; with fewer than two live nodes the loop
ends. And the tree that ENCODE commits is this loop's, run over the leaves of R143, one for each symbol that occurs,
ascending, with every leaf live under its frequency and slot. That the loop has a bound on its passes is the model's
choice (log 20); that any bound of at least n - 1 passes gives the same tree rests on R144's inference that the loop
runs n - 1 times. -/
def Obligations.MergeTakesTheTwoLeastNodes : Prop :=
  (∀ live : List LiveKey, live ≠ [] → ∃ a rest, removeLeast live = some (a, rest) ∧ a ∈ live ∧ rest = live.erase a ∧
    ∀ k ∈ live, a.freq < k.freq ∨ (a.freq = k.freq ∧ a.slot ≤ k.slot)) ∧
  (∀ (fuel : Nat) (live : List LiveKey) (nodes : List TreeNode), 2 ≤ live.length →
    ∃ a b live1 live2, removeLeast live = some (a, live1) ∧ removeLeast live1 = some (b, live2) ∧
      mergeLoop (fuel + 1) live nodes =
        mergeLoop fuel (live2 ++ [⟨a.freq + b.freq, nodes.length⟩])
          (nodes ++ [⟨.internal a.slot b.slot, a.freq + b.freq⟩])) ∧
  (∀ (fuel : Nat) (live : List LiveKey) (nodes : List TreeNode), live.length < 2 → mergeLoop fuel live nodes = nodes) ∧
  (∀ (input syms : List Symbol), syms.Pairwise (fun x y => x.toNat < y.toNat) → (∀ x, x ∈ syms ↔ 1 ≤ input.count x) →
    ∃ live : List LiveKey,
      (∀ j : Nat, live[j]? = (syms[j]?).map fun x => LiveKey.mk (input.count x) j) ∧
      ∀ fuel, live.length ≤ fuel + 1 → buildTree input =
        mergeLoop fuel live (syms.map fun x => TreeNode.mk (.leaf x) (input.count x)))

/-- 41_encoder.md R150: with n ≥ 2 distinct symbols, the code of each is the path from the root to its leaf, 0 for left
and 1 for right; it is 1 to n - 1 bits long, so at most 255 (an inference that the spec draws there). -/
def Obligations.CodesAreRootToLeafPaths : Prop :=
  ∀ (input : List Symbol) (x : Symbol), 2 ≤ input.toFinset.card → x ∈ input →
    (∃ slot f, follow (buildTree input) (2 * input.toFinset.card - 2) (codeOf (genCodes input) x) = some slot ∧
      (buildTree input)[slot]? = some (TreeNode.mk (.leaf x) f)) ∧
    1 ≤ (codeOf (genCodes input) x).length ∧ (codeOf (genCodes input) x).length ≤ input.toFinset.card - 1 ∧
    (codeOf (genCodes input) x).length ≤ 255

/-- 41_encoder.md R151: an input with one distinct symbol gives it the code "0", of length 1. -/
def Obligations.SingleSymbolCodeIsZero : Prop :=
  ∀ (input : List Symbol) (x : Symbol), x ∈ input → (∀ y ∈ input, y = x) →
    codeOf (genCodes input) x = [false] ∧ serialize input = List.replicate input.length false

/-- 41_encoder.md R152 and 30_encoding.md R96: after ENCODE, CODELEN[x] is the length of x's code and CODEBITS[x] its
bits, most significant first, 0 past its end; both are 0 for a symbol that does not occur. -/
def Obligations.EncodeWritesTheCodeTable : Prop :=
  ∀ s : State, s.symInLen.toNat ≤ 4096 → ∃ t, exec .encode s = .next t ∧
    (let input := symInOperand s s.symInLen.toNat
     ∀ x : Symbol,
      (x ∈ input → (Memory.tableWord t.mem (codeLenAddr x.toNat)).toNat = (codeOf (genCodes input) x).length ∧
        ∀ j, j < 256 → (Memory.tableWord t.mem (codeBitsAddr x.toNat (j / 32))).getLsbD (31 - j % 32) =
          (codeOf (genCodes input) x).getD j false) ∧
      (x ∉ input → Memory.tableWord t.mem (codeLenAddr x.toNat) = 0#32 ∧
        ∀ k, k < 8 → Memory.tableWord t.mem (codeBitsAddr x.toNat k) = 0#32))

/-- 41_encoder.md R153: the stream is the codes of the input's symbols in input order, every symbol of the input has a
code, and after ENCODE BIT_LEN is the stream's length. -/
def Obligations.SerializeConcatenatesTheCodes : Prop :=
  (∀ input : List Symbol, serialize input = (input.map (codeOf (genCodes input))).flatten) ∧
  (∀ (input : List Symbol) (x : Symbol), x ∈ input → (x, codeOf (genCodes input) x) ∈ genCodes input) ∧
  serialize [] = [] ∧
  (∀ s : State, s.symInLen.toNat ≤ 4096 → ∃ t, exec .encode s = .next t ∧
    t.bitLen.toNat = (serialize (symInOperand s s.symInLen.toNat)).length)

/-- 41_encoder.md R154: after ENCODE, bit(k) of BITBUF is bit k of the stream; the positions past its end in the last
written word are 0; the words after it keep their contents. -/
def Obligations.EncodePacksTheStream : Prop :=
  ∀ s : State, s.symInLen.toNat ≤ 4096 → ∃ t, exec .encode s = .next t ∧
    (let stream := serialize (symInOperand s s.symInLen.toNat)
     (∀ w, w < 1024 → 32 * w < stream.length → ∃ v, Memory.word? t.mem (bitBufAddr w) = some v ∧
       ∀ j, j < 32 → v.getLsbD (31 - j) = (if h : 32 * w + j < stream.length then stream[32 * w + j] else false)) ∧
     (∀ w, w < 1024 → stream.length ≤ 32 * w → ∀ i, i < 4 →
       Memory.byte? t.mem (bitBufAddr w + i) = Memory.byte? s.mem (bitBufAddr w + i)))

/-- 41_encoder.md R155, an inference of the spec: the stream of an input of at most N_MAX symbols is at most 8 bits a symbol, so it fits in BITBUF;
with one distinct symbol it is one bit a symbol. -/
def Obligations.StreamFitsInBitbuf : Prop :=
  ∀ input : List Symbol, input.length ≤ 4096 →
    (serialize input).length ≤ 8 * input.length ∧ (serialize input).length ≤ 32768 ∧
    (input.toFinset.card = 1 → (serialize input).length = input.length)

/-- 41_encoder.md R157 item 1, an inference of the spec: no code is the beginning of another symbol's code. -/
def Obligations.CodesArePrefixFree : Prop :=
  ∀ (input : List Symbol) (x y : Symbol), x ∈ input → y ∈ input → x ≠ y →
    ¬ codeOf (genCodes input) x <+: codeOf (genCodes input) y

/-- 41_encoder.md R157 items 2 and 3, inferences of the spec: a symbol has a code of at least one bit exactly when it occurs; and over the
symbols that occur the sum of 2^(-length) is 1 with two or more of them and 1/2 with one. The sum is written in units of
2^(-256). -/
def Obligations.CodeTableIsCompleteAndFull : Prop :=
  (∀ (input : List Symbol) (x : Symbol), 1 ≤ (codeOf (genCodes input) x).length ↔ x ∈ input) ∧
  (∀ input : List Symbol, 2 ≤ input.toFinset.card →
    ∑ x ∈ input.toFinset, 2 ^ (256 - (codeOf (genCodes input) x).length) = 2 ^ 256) ∧
  (∀ input : List Symbol, input.toFinset.card = 1 →
    ∑ x ∈ input.toFinset, 2 ^ (256 - (codeOf (genCodes input) x).length) = 2 ^ 255)

/-- 41_encoder.md R157 item 4, an inference of the spec: a less frequent symbol never has a shorter code. -/
def Obligations.RarerSymbolsNeverGetShorterCodes : Prop :=
  ∀ (input : List Symbol) (x y : Symbol), x ∈ input → y ∈ input → input.count x < input.count y →
    (codeOf (genCodes input) y).length ≤ (codeOf (genCodes input) x).length

/-- 41_encoder.md R158, an inference of the spec: ENCODE depends on SYM_IN_LEN and the symbols it reads alone: two states that agree on those get
the same tree, code table, stream and registers, whatever else they hold. -/
def Obligations.EncodeIsAFunctionOfItsInput : Prop :=
  ∀ s s' : State, s.symInLen.toNat ≤ 4096 → s'.symInLen = s.symInLen →
    symInOperand s' s.symInLen.toNat = symInOperand s s.symInLen.toNat →
    ∃ t t', exec .encode s = .next t ∧ exec .encode s' = .next t' ∧ t.SameTree t' ∧ t'.bitLen = t.bitLen ∧
      ∀ w, w < 1024 → 32 * w < (serialize (symInOperand s s.symInLen.toNat)).length →
        Memory.word? t'.mem (bitBufAddr w) = Memory.word? t.mem (bitBufAddr w)

/-! ### DECODE -/

/-- 42_decoder.md R171: BIT_LEN above B_MAX ends DECODE with ERR_LEN and changes nothing else. -/
def Obligations.DecodeRefusesALongStream : Prop :=
  ∀ s : State, 32768 < s.bitLen.toNat → exec .decode s = .next { s with
    errInfo := s.bitLen, eng := .idle, status := { s.status with errCode := 2#4, err := true, busy := false } }

/-- 42_decoder.md R172: an empty stream decodes to nothing and succeeds, whatever TREE_VALID is; SYM_OUT is not
written. -/
def Obligations.DecodeOfNothingSucceeds : Prop :=
  ∀ s : State, s.bitLen = 0#32 → exec .decode s = .next { s with
    symOutLen := 0#13, errInfo := 0#32, eng := .idle, status := { s.status with done := true, busy := false } }

/-- 42_decoder.md R173: a non-empty stream with no tree ends with ERR_NO_TREE(0) and changes nothing else; there is no
tree after Reset, after CLEAR and after an ENCODE of an empty input. -/
def Obligations.DecodeWithoutTreeFails : Prop :=
  (∀ s : State, 1 ≤ s.bitLen.toNat → s.bitLen.toNat ≤ 32768 → s.status.treeValid = false →
    exec .decode s = .next { s with
      errInfo := 0#32, eng := .idle, status := { s.status with errCode := 3#4, err := true, busy := false } }) ∧
  State.reset.status.treeValid = false ∧
  (∀ s : State, ∃ t, exec .clear s = .next t ∧ t.status.treeValid = false) ∧
  (∀ s : State, s.symInLen = 0#32 → ∃ t, exec .encode s = .next t ∧ t.status.treeValid = false)

/-- 42_decoder.md R176: with a one-symbol tree, DECODE writes the tree's symbol for every 0 bit; the first 1 bit ends it
with ERR_BAD_BITS at its position, checked before the capacity; a 4097th 0 bit ends it with ERR_OVF. -/
def Obligations.SingleSymbolDecode : Prop :=
  ∀ s : State, 1 ≤ s.bitLen.toNat → s.bitLen.toNat ≤ 32768 → s.status.treeValid = true → s.nsym.toNat < 2 →
    ∃ t, exec .decode s = .next t ∧
      (let bits := streamOperand s s.bitLen.toNat
       (∀ j, j < t.symOutLen.toNat →
          Memory.symbol? t.mem (symOutAddr j) = some ((Memory.tableWord s.mem (nodeLinkAddr 0)).setWidth 8)) ∧
       (∀ k, k ≤ 4096 → bits[k]? = some true → (∀ j, j < k → bits[j]? = some false) →
          t.status = { s.status with errCode := 4#4, err := true, busy := false } ∧ t.errInfo.toNat = k ∧
          t.symOutLen.toNat = k) ∧
       (s.bitLen.toNat ≤ 4096 → (∀ j, j < s.bitLen.toNat → bits[j]? = some false) →
          t.status = { s.status with done := true, busy := false } ∧ t.errInfo = 0#32 ∧
          t.symOutLen.toNat = s.bitLen.toNat) ∧
       (4097 ≤ s.bitLen.toNat → (∀ j, j < 4097 → bits[j]? = some false) →
          t.status = { s.status with errCode := 6#4, err := true, busy := false } ∧ t.errInfo = 4096#32 ∧
          t.symOutLen.toNat = 4096))

/-- 42_decoder.md R182, an inference of the spec from the walk: with two or more symbols in the tree, every stream of length 1 to B_MAX has a defined result:
success, ERR_TRUNC or ERR_OVF, never ERR_BAD_BITS. -/
def Obligations.FullTreeDecodesEveryStream : Prop :=
  ∀ s : State, 1 ≤ s.bitLen.toNat → s.bitLen.toNat ≤ 32768 → s.status.treeValid = true → 2 ≤ s.nsym.toNat →
    ∃ t, exec .decode s = .next t ∧
      ((t.status = { s.status with done := true, busy := false } ∧ t.errInfo = 0#32) ∨
       (t.status = { s.status with errCode := 5#4, err := true, busy := false } ∧ t.errInfo.toNat < s.bitLen.toNat) ∨
       (t.status = { s.status with errCode := 6#4, err := true, busy := false } ∧ t.errInfo.toNat < s.bitLen.toNat ∧
        t.symOutLen.toNat = 4096))

/-- 42_decoder.md R179: SYM_OUT_LEN after DECODE is the number of symbols written, at most N_MAX; the written entries
hold them; later entries keep their contents; ERR_LEN and ERR_NO_TREE leave all of it, and an empty stream gives 0. -/
def Obligations.DecodeKeepsWhatItWrote : Prop :=
  (∀ s : State, 1 ≤ s.bitLen.toNat → s.bitLen.toNat ≤ 32768 → s.status.treeValid = true →
    ∃ t, exec .decode s = .next t ∧
      (let walk := decodeWalk s (streamOperand s s.bitLen.toNat)
       t.symOutLen.toNat = walk.out.length ∧ walk.out.length ≤ 4096 ∧
       (∀ j (h : j < walk.out.length), Memory.symbol? t.mem (symOutAddr j) = some walk.out[j]) ∧
       (∀ j, walk.out.length ≤ j → j < 4096 →
          Memory.symbol? t.mem (symOutAddr j) = Memory.symbol? s.mem (symOutAddr j)))) ∧
  (∀ s : State, (32768 < s.bitLen.toNat ∨ (1 ≤ s.bitLen.toNat ∧ s.status.treeValid = false)) →
    ∃ t, exec .decode s = .next t ∧ t.symOutLen = s.symOutLen ∧ t.mem = s.mem) ∧
  (∀ s : State, s.bitLen = 0#32 → ∃ t, exec .decode s = .next t ∧ t.symOutLen = 0#13 ∧ t.mem = s.mem)

/-- 42_decoder.md R180: DECODE writes nothing but SYM_OUT, SYM_OUT_LEN, STATUS and ERR_INFO; repeated on a stream whose
words are all written it gives the same result (an inference of the spec). -/
def Obligations.DecodeLeavesTheTreeAlone : Prop :=
  ∀ s : State, ∃ t, exec .decode s = .next t ∧
    t = { s with mem := t.mem, symOutLen := t.symOutLen, errInfo := t.errInfo, eng := .idle, draws := t.draws,
                 status := { s.status with done := t.status.done, err := t.status.err, errCode := t.status.errCode,
                                           busy := false } } ∧
    (∀ a, (a < 0x8000 ∨ 0xC000 ≤ a) → Memory.byte? t.mem a = Memory.byte? s.mem a) ∧
    ((∀ w, 32 * w < s.bitLen.toNat → (Memory.word? s.mem (bitBufAddr w)).isSome = true) →
      ∃ u, exec .decode t = .next u ∧ u.symOutLen = t.symOutLen ∧ u.errInfo = t.errInfo ∧
        ∀ j, j < t.symOutLen.toNat → Memory.symbol? u.mem (symOutAddr j) = Memory.symbol? t.mem (symOutAddr j))

/-- 42_decoder.md R175, R177, R178 (and 30_encoding.md R99): with the tree of an input of two or more distinct symbols, a
stream that is the codes of at most N_MAX symbols decodes to them; followed by a non-empty part of a code that is not
all of it, it ends with ERR_TRUNC at that part's first bit, with the symbols before it kept. A stream that begins with
the codes of N_MAX symbols and one more ends with ERR_OVF at the last bit of that one's code, with the first N_MAX
symbols kept. -/
def Obligations.DecodeReadsCodesBack : Prop :=
  (∀ (s : State) (input xs : List Symbol) (p : BitString), s.HoldsTreeOf input → 2 ≤ input.toFinset.card →
    (∀ x ∈ xs, x ∈ input) → xs.length ≤ 4096 → 1 ≤ s.bitLen.toNat → s.bitLen.toNat ≤ 32768 →
    (p = [] ∨ ∃ y ∈ input, p <+: codeOf (genCodes input) y ∧ p ≠ codeOf (genCodes input) y) →
    streamOperand s s.bitLen.toNat = xs.flatMap (codeOf (genCodes input)) ++ p →
    ∃ t, exec .decode s = .next t ∧ t.symOutLen.toNat = xs.length ∧
      (∀ j (h : j < xs.length), Memory.symbol? t.mem (symOutAddr j) = some xs[j]) ∧
      (p = [] → t.status = { s.status with done := true, busy := false } ∧ t.errInfo = 0#32) ∧
      (p ≠ [] → t.status = { s.status with errCode := 5#4, err := true, busy := false } ∧
        t.errInfo.toNat = (xs.flatMap (codeOf (genCodes input))).length)) ∧
  (∀ (s : State) (input xs : List Symbol) (y : Symbol) (rest : BitString), s.HoldsTreeOf input →
    2 ≤ input.toFinset.card → (∀ x ∈ xs, x ∈ input) → xs.length = 4096 → y ∈ input → s.bitLen.toNat ≤ 32768 →
    streamOperand s s.bitLen.toNat =
      xs.flatMap (codeOf (genCodes input)) ++ codeOf (genCodes input) y ++ rest →
    ∃ t, exec .decode s = .next t ∧ t.status = { s.status with errCode := 6#4, err := true, busy := false } ∧
      t.symOutLen.toNat = 4096 ∧ (∀ j (h : j < xs.length), Memory.symbol? t.mem (symOutAddr j) = some xs[j]) ∧
      t.errInfo.toNat + 1 = (xs.flatMap (codeOf (genCodes input))).length + (codeOf (genCodes input) y).length)

/-- 42_decoder.md R181, the source's round trip and an inference of the spec: after a successful ENCODE, a DECODE in any later state that still has
that ENCODE's tree, BIT_LEN and BITBUF gives the input back. -/
def Obligations.RoundTrip : Prop :=
  ∀ s t u : State, s.symInLen.toNat ≤ 4096 → exec .encode s = .next t → t.SameTree u → u.bitLen = t.bitLen →
    (∀ a, 0xC000 ≤ a → a < 0xD000 → Memory.byte? u.mem a = Memory.byte? t.mem a) →
    ∃ v, exec .decode u = .next v ∧ v.status = { u.status with done := true, busy := false } ∧ v.errInfo = 0#32 ∧
      v.symOutLen.toNat = s.symInLen.toNat ∧
      ∀ i, i < s.symInLen.toNat → Memory.symbol? v.mem (symOutAddr i) = (symInOperand s s.symInLen.toNat)[i]?

/-! ### The whole machine -/

/-- The invariant holds after reset (10_state.md R27, R21, R44, R47). -/
def Obligations.ResetSatisfiesTheInvariant : Prop := State.reset.Inv

/-- Every step keeps the invariant: STATUS's rules (10_state.md R27), ENG busy exactly when BUSY = 1 (R21), the canonical
form of memory, whole BITBUF words, SYM_OUT_LEN within SYM_OUT (R31), and either no tree or the tree and code table of
one ENCODE of one input (R44). R27's invariants and R44 are inferences of the spec; the form of memory is the model's
(logs 8 and 10). -/
def Obligations.EveryStepKeepsTheInvariant : Prop :=
  ∀ s t : State, s.Inv → step s = .next t → t.Inv

/-- 10_state.md R35: only an ENCODE, a CLEAR or a Reset changes the retained tree and code table. -/
def Obligations.OnlyEncodeClearAndResetChangeTheTree : Prop :=
  ∀ s t : State, step s = .next t → ¬ s.SameTree t →
    nextTurn s = .reset ∨ (nextTurn s = .engine ∧ ∃ op w, s.eng = .busy op w ∧
      (w = 0x00000001#32 ∨ w = 0x00000002#32))

/-- 10_state.md R21: ENG is busy exactly when STATUS.BUSY = 1; only a host's CMD write changes it to busy; only
EngineComplete and Reset change it to idle. -/
def Obligations.EngineIsBusyFromIssueToCompletion : Prop :=
  ∀ s t : State, s.Inv → step s = .next t →
    (t.status.busy = true ↔ ∃ op w, t.eng = .busy op w) ∧
    (∀ op w, s.eng = .idle → t.eng = .busy op w → nextTurn s = .host ∧ op = w.extractLsb' 0 4 ∧
      ∃ rest, s.program = .wr 0x008#16 w :: rest) ∧
    (∀ op w, s.eng = .busy op w → t.eng = .idle → nextTurn s = .engine ∨ nextTurn s = .reset) ∧
    (∀ op w op' w', s.eng = .busy op w → t.eng = .busy op' w' → op' = op ∧ w' = w)

/-- 10_state.md R40: a host step changes none of the result registers, tables and SYM_OUT; a command's results reach
them at its completion alone. -/
def Obligations.HostStepsChangeNoResult : Prop :=
  ∀ s t : State, step s = .next t → nextTurn s = .host →
    s.SameTree t ∧ t.symOutLen = s.symOutLen ∧ t.errInfo = s.errInfo ∧
    (∀ a, 0x8000 ≤ a → a < 0xC000 → Memory.byte? t.mem a = Memory.byte? s.mem a)

/-- 60_exceptions.md R200 and 93_implementation_defined.md U17: a state with a reserved ERRCODE faults (that the fault is
the machine's is the model's choice, log 11), and no state of the invariant does. -/
def Obligations.ReservedErrorCodesFault : Prop :=
  (∀ s : State, 7 ≤ s.status.errCode.toNat → step s = .fault .reservedErrCode) ∧
  (∀ (s : State) (f : Fault), s.Inv → step s ≠ .fault f)

/-- 20_memory.md R61: a host program that asks for a sub-word, burst or byte-enable transfer is refused (its form as a
host operation is the model's choice, log 12). -/
def Obligations.NonWordTransfersAreRefused : Prop :=
  ∀ (s : State) (kind : NonWord) (off : Offset) (rest : List HostOp), s.status.reservedErrCode = false →
    nextTurn s = .host → s.program = .nonWord kind off :: rest → step s = .refused (.nonWordTransaction kind)

/-- 30_encoding.md R101 and R102: POLL repeats its read until the masked word is the value, and the expansions of the
pseudo-operations, for every index in range. That a POLL not yet satisfied stays the next operation, one read a step, is
the model's choice (log 2). -/
def Obligations.HostNotationMeansItsTransactions : Prop :=
  (∀ (s : State) (off : Offset) (mask val : Word) (rest : List HostOp), s.status.reservedErrCode = false →
    nextTurn s = .host → s.program = .poll off mask val :: rest →
    ∃ t, step s = .next t ∧ s.SameBlock t ∧ t.rsp = some (.read (readData s off) (!aligned off)) ∧
      t.program = (if readData s off &&& mask = val then rest else s.program)) ∧
  Pseudo.expand .nop = .wr 0x008#16 0x00000000#32 ∧ Pseudo.expand .clear = .wr 0x008#16 0x00000001#32 ∧
  Pseudo.expand .encode = .wr 0x008#16 0x00000002#32 ∧ Pseudo.expand .decode = .wr 0x008#16 0x00000003#32 ∧
  Pseudo.expand .wait = .poll 0x00C#16 0x00000001#32 0x00000000#32 ∧
  Pseudo.expand .ack = .wr 0x00C#16 0x00000016#32 ∧
  (∀ (i : Nat) (x : Symbol), i < 4096 → ∃ off, Pseudo.expand (.putSym i x) = .wr off (x.setWidth 32) ∧
    off.toNat = 0x4000 + 4 * i) ∧
  (∀ (w : Nat) (v : Word), w < 1024 → ∃ off, Pseudo.expand (.putBits w v) = .wr off v ∧ off.toNat = 0xC000 + 4 * w) ∧
  (∀ i : Nat, i < 4096 → ∃ off, Pseudo.expand (.getSym i) = .rd off ∧ off.toNat = 0x8000 + 4 * i) ∧
  (∀ w : Nat, w < 1024 → ∃ off, Pseudo.expand (.getBits w) = .rd off ∧ off.toNat = 0xC000 + 4 * w)
end

