-- ==== Sys2Proof/Laws/Decode.lean ====
section
/-! SUPPORT. The laws of the decoder: a word is its two fields, and the decoder is a function of them. -/

namespace Sys2Proof

/-- A CMD word is MBZ above OP (30_encoding.md R91). -/
theorem cmdWord_fields (w : Word) : w = cmdMbz w ++ cmdOp w := by
  apply BitVec.eq_of_getLsbD_eq
  intro i hi
  simp only [cmdMbz, cmdOp, BitVec.getLsbD_append, BitVec.getLsbD_extractLsb']
  by_cases h : i < 4
  · simp [h]
  · simp [h, show i - 4 < 28 by omega, show 4 + (i - 4) = i by omega]

theorem decode_of_mbz {w : Word} (h : cmdMbz w ≠ 0#28) : decode w = .illegal .mbzNonzero := by
  unfold decode; rw [if_neg h]

theorem decode_of_op {w : Word} (h : cmdMbz w = 0#28) :
    decode w =
      match (cmdOp w).toNat with
      | 0 => .command .nop
      | 1 => .command .clear
      | 2 => .command .encode
      | 3 => .command .decode
      | _ => .illegal .reservedOpcode := by
  unfold decode; exact if_pos h

@[simp] theorem cmdOp_encode (i : Instr) : cmdOp (encode i) = i.opcode := by cases i <;> decide

@[simp] theorem cmdMbz_encode (i : Instr) : cmdMbz (encode i) = 0#28 := by cases i <;> decide

/-- A word is aligned when its two low bits are zero (20_memory.md R62). -/
theorem aligned_iff (off : Offset) : aligned off = true ↔ off.extractLsb' 0 2 = 0#2 := by simp [aligned]

/-- An offset of the map that is a multiple of four is aligned. -/
theorem aligned_of_mod {off : Offset} (h : off.toNat % 4 = 0) : aligned off = true := by
  rw [aligned_iff]
  apply BitVec.eq_of_toNat_eq
  simp [BitVec.extractLsb'_toNat, h]

theorem toNat_mod_of_aligned {off : Offset} (h : aligned off = true) : off.toNat % 4 = 0 := by
  rw [aligned_iff] at h
  have := congrArg BitVec.toNat h
  simpa [BitVec.extractLsb'_toNat] using this

end Sys2Proof
end

