-- ==== Sys2Proof/Laws/Memory.lean ====
section
/-! SUPPORT. The laws of storage: what a read gives after a write, and that every operation keeps the canonical form. -/

namespace Sys2Proof.Machine

@[simp] theorem Memory.find_nil (a : Nat) : Memory.find a [] = none := rfl

theorem Memory.find_cons (a : Nat) (c : Host.Cell) (m : Memory) :
    Memory.find a (c :: m) = if c.1 = a then some c.2 else Memory.find a m := rfl

@[simp] theorem Memory.find_insert_same (a : Nat) (b : Byte) (m : Memory) :
    Memory.find a (Memory.insert a b m) = some b := by
  induction m with
  | nil => simp [Memory.insert, Memory.find]
  | cons c m ih =>
    simp only [Memory.insert]
    split
    · simp [Memory.find]
    · split
      · simp [Memory.find]
      · rw [Memory.find_cons, if_neg (by omega), ih]

theorem Memory.find_insert_other {a a' : Nat} (b : Byte) (m : Memory) (h : a' ≠ a) :
    Memory.find a' (Memory.insert a b m) = Memory.find a' m := by
  induction m with
  | nil => simp [Memory.insert, Memory.find, h.symm]
  | cons c m ih =>
    simp only [Memory.insert]
    split
    · simp [Memory.find, h.symm]
    · split
      · rename_i hc; simp [Memory.find, h.symm, ← hc]
      · simp only [Memory.find_cons, ih]

/-- Filtering the list by address hides exactly the addresses it drops. -/
theorem Memory.find_filter (p : Nat → Bool) (a : Nat) (m : Memory) :
    Memory.find a (m.filter fun c => p c.1) = if p a then Memory.find a m else none := by
  induction m with
  | nil => simp
  | cons c m ih =>
    simp only [List.filter_cons, Memory.find_cons]
    by_cases hc : c.1 = a
    · subst hc; by_cases hp : p c.1 = true <;> simp_all [Memory.find_cons]
    · by_cases hp : p c.1 = true <;> simp_all [Memory.find_cons]

theorem Memory.find_erase (a a' : Nat) (m : Memory) :
    Memory.find a' (Memory.erase a m) = if a' = a then none else Memory.find a' m := by
  rw [Memory.erase, Memory.find_filter (fun x => x != a)]
  by_cases h : a' = a <;> simp [h]

/-! ### Bytes -/

/-- A byte written where storage backs it is read back. -/
@[simp] theorem Memory.byte?_setByte_same (m : Memory) (a : Nat) (b : Byte) (h : hasStorage a = true) :
    Memory.byte? (Memory.setByte m a b) a = some b := by
  simp only [Memory.setByte, h, if_true]
  split
  · rename_i hu; simp [Memory.byte?, Memory.find_erase, hu]
  · simp [Memory.byte?]

/-- A write to one address leaves every other byte alone. -/
theorem Memory.byte?_setByte_other (m : Memory) {a a' : Nat} (b : Byte) (h : a' ≠ a) :
    Memory.byte? (Memory.setByte m a b) a' = Memory.byte? m a' := by
  simp only [Memory.setByte]
  split
  · split
    · simp [Memory.byte?, Memory.find_erase, h]
    · simp [Memory.byte?, Memory.find_insert_other _ _ h]
  · rfl

theorem Memory.setByte_noStorage (m : Memory) (a : Nat) (b : Byte) (h : hasStorage a = false) :
    Memory.setByte m a b = m := by simp [Memory.setByte, h]

/-- Everything a byte write can do to a byte read. -/
theorem Memory.byte?_setByte (m : Memory) (a a' : Nat) (b : Byte) :
    Memory.byte? (Memory.setByte m a b) a' =
      if a' = a ∧ hasStorage a = true then some b else Memory.byte? m a' := by
  by_cases h : a' = a
  · subst h
    by_cases hs : hasStorage a' = true
    · simp [hs]
    · rw [Memory.setByte_noStorage _ _ _ (by simpa using hs)]; simp [hs]
  · simp [h, Memory.byte?_setByte_other _ _ h]

/-- In the tables every byte reads a value. -/
theorem Memory.byte?_isSome_of_table (m : Memory) {a : Nat} (h : isTableByte a = true) :
    (Memory.byte? m a).isSome = true := by
  simp only [Memory.byte?]
  split
  · rfl
  · simp [unlistedByte, h]

theorem Memory.byte?_clearTables (m : Memory) (a : Nat) :
    Memory.byte? (Memory.clearTables m) a = if isTableByte a then some 0#8 else Memory.byte? m a := by
  simp only [Memory.byte?, Memory.clearTables]
  rw [Memory.find_filter (fun x => !isTableByte x)]
  by_cases h : isTableByte a = true <;> simp [h, unlistedByte]

/-! ### Words -/

/-- What a word write does to one byte: byte i of the word at offset a + i. -/
theorem Memory.byte?_setWord (m : Memory) (a a' : Nat) (v : Word) :
    Memory.byte? (Memory.setWord m a v) a' =
      if a ≤ a' ∧ a' < a + 4 ∧ hasStorage a' = true then some (v.extractLsb' (8 * (a' - a)) 8) else Memory.byte? m a' := by
  simp only [Memory.setWord, Memory.byte?_setByte]
  by_cases h : a ≤ a' ∧ a' < a + 4
  · obtain ⟨i, hi, rfl⟩ : ∃ i, i < 4 ∧ a' = a + i := ⟨a' - a, by omega, by omega⟩
    have : i = 0 ∨ i = 1 ∨ i = 2 ∨ i = 3 := by omega
    rcases this with rfl | rfl | rfl | rfl <;> simp
  · have h0 : a' ≠ a := by omega
    have h1 : a' ≠ a + 1 := by omega
    have h2 : a' ≠ a + 2 := by omega
    have h3 : a' ≠ a + 3 := by omega
    have h4 : ¬ (a ≤ a' ∧ a' < a + 4 ∧ hasStorage a' = true) := fun hh => h ⟨hh.1, hh.2.1⟩
    simp [h0, h1, h2, h3, h4]

/-- The four bytes of a word, least significant first, give the word back. -/
theorem bytes_append (v : Word) :
    v.extractLsb' 24 8 ++ v.extractLsb' 16 8 ++ v.extractLsb' 8 8 ++ v.extractLsb' 0 8 = v := by
  ext i hi
  simp only [BitVec.getElem_append, BitVec.getElem_extractLsb']
  split
  · simp [BitVec.getLsbD_eq_getElem, hi]
  · split
    · rw [show 8 + (i - 8) = i by omega]; simp [BitVec.getLsbD_eq_getElem, hi]
    · split
      · rw [show 16 + (i - 8 - 8) = i by omega]; simp [BitVec.getLsbD_eq_getElem, hi]
      · rw [show 24 + (i - 8 - 8 - 8) = i by omega]; simp [BitVec.getLsbD_eq_getElem, hi]

/-- The four bytes at an offset are backed by storage. -/
def wordStorage (a : Nat) : Prop :=
  hasStorage a = true ∧ hasStorage (a + 1) = true ∧ hasStorage (a + 2) = true ∧ hasStorage (a + 3) = true

/-- A word written where storage backs it is read back. -/
theorem Memory.word?_setWord_same (m : Memory) (a : Nat) (v : Word) (h : wordStorage a) :
    Memory.word? (Memory.setWord m a v) a = some v := by
  obtain ⟨h0, h1, h2, h3⟩ := h
  simp [Memory.word?, Memory.byte?_setWord, h0, h1, h2, h3, bytes_append]

/-- A word read depends on its four bytes only. -/
theorem Memory.word?_congr {m m' : Memory} {a : Nat}
    (h : ∀ i, i < 4 → Memory.byte? m (a + i) = Memory.byte? m' (a + i)) : Memory.word? m a = Memory.word? m' a := by
  have h0 := h 0 (by omega); have h1 := h 1 (by omega); have h2 := h 2 (by omega); have h3 := h 3 (by omega)
  simp only [Nat.add_zero] at h0
  simp only [Memory.word?, h0, h1, h2, h3]

theorem Memory.tableWord_congr {m m' : Memory} {a : Nat}
    (h : ∀ i, i < 4 → Memory.byte? m (a + i) = Memory.byte? m' (a + i)) :
    Memory.tableWord m a = Memory.tableWord m' a := by
  simp only [Memory.tableWord, Memory.word?_congr h]

/-- A word write at a distance of four or more leaves a word alone. -/
theorem Memory.word?_setWord_other (m : Memory) {a a' : Nat} (v : Word) (h : a' + 4 ≤ a ∨ a + 4 ≤ a') :
    Memory.word? (Memory.setWord m a v) a' = Memory.word? m a' := by
  apply Memory.word?_congr
  intro i hi
  rw [Memory.byte?_setWord, if_neg (by omega)]

@[simp] theorem Memory.setWords_nil (m : Memory) : Memory.setWords m [] = m := rfl

@[simp] theorem Memory.setWords_cons (m : Memory) (w : Nat × Word) (ws : List (Nat × Word)) :
    Memory.setWords m (w :: ws) = Memory.setWords (Memory.setWord m w.1 w.2) ws := rfl

theorem Memory.setWords_append (m : Memory) (ws ws' : List (Nat × Word)) :
    Memory.setWords m (ws ++ ws') = Memory.setWords (Memory.setWords m ws) ws' := by
  simp [Memory.setWords, List.foldl_append]

/-- A byte that no word of the list covers keeps its value. -/
theorem Memory.byte?_setWords_other (m : Memory) (ws : List (Nat × Word)) (a : Nat)
    (h : ∀ w ∈ ws, ¬ (w.1 ≤ a ∧ a < w.1 + 4)) : Memory.byte? (Memory.setWords m ws) a = Memory.byte? m a := by
  induction ws generalizing m with
  | nil => rfl
  | cons w ws ih =>
    rw [Memory.setWords_cons, ih _ (fun x hx => h x (List.mem_cons_of_mem _ hx)), Memory.byte?_setWord, if_neg]
    intro hh; exact h w List.mem_cons_self ⟨hh.1, hh.2.1⟩

/-- Words written at pairwise distant offsets are all read back. -/
theorem Memory.word?_setWords_mem (m : Memory) (ws : List (Nat × Word))
    (hd : ws.Pairwise fun w w' => w.1 + 4 ≤ w'.1 ∨ w'.1 + 4 ≤ w.1) {w : Nat × Word} (hw : w ∈ ws)
    (hs : wordStorage w.1) : Memory.word? (Memory.setWords m ws) w.1 = some w.2 := by
  induction ws generalizing m with
  | nil => simp at hw
  | cons x ws ih =>
    rw [List.pairwise_cons] at hd
    rw [Memory.setWords_cons]
    rcases List.mem_cons.1 hw with rfl | hw'
    · rw [← Memory.word?_setWord_same m w.1 w.2 hs]
      apply Memory.word?_congr
      intro i hi
      apply Memory.byte?_setWords_other
      intro y hy
      have := hd.1 y hy
      omega
    · exact ih _ hd.2 hw'

/-- Two memories that agree on a byte still agree on it after the same writes. -/
theorem Memory.byte?_setWords_congr {m m' : Memory} (ws : List (Nat × Word)) {a : Nat}
    (h : Memory.byte? m a = Memory.byte? m' a) :
    Memory.byte? (Memory.setWords m ws) a = Memory.byte? (Memory.setWords m' ws) a := by
  induction ws generalizing m m' with
  | nil => exact h
  | cons w ws ih =>
    rw [Memory.setWords_cons, Memory.setWords_cons]
    apply ih
    rw [Memory.byte?_setWord, Memory.byte?_setWord, h]

/-! ### The canonical form -/

theorem Memory.wf_nil : Memory.wf [] := ⟨List.Pairwise.nil, by simp⟩

theorem Memory.wf_filter {m : Memory} (p : Host.Cell → Bool) (h : Memory.wf m) : Memory.wf (m.filter p) :=
  ⟨h.1.filter p, fun c hc => h.2 c (List.mem_of_mem_filter hc)⟩

theorem Memory.mem_insert {a : Nat} {b : Byte} {m : Memory} {c : Host.Cell} (h : c ∈ Memory.insert a b m) :
    c = (a, b) ∨ c ∈ m := by
  induction m with
  | nil => simpa [Memory.insert] using h
  | cons d m ih =>
    simp only [Memory.insert] at h
    split at h
    · simpa using h
    · split at h
      · rcases List.mem_cons.1 h with rfl | h
        · exact .inl rfl
        · exact .inr (List.mem_cons_of_mem _ h)
      · rcases List.mem_cons.1 h with rfl | h
        · exact .inr List.mem_cons_self
        · rcases ih h with rfl | h
          · exact .inl rfl
          · exact .inr (List.mem_cons_of_mem _ h)

theorem Memory.insert_rising {a : Nat} {b : Byte} {m : Memory} (h : m.Pairwise fun c d => c.1 < d.1) :
    (Memory.insert a b m).Pairwise fun c d => c.1 < d.1 := by
  induction m with
  | nil => simp [Memory.insert]
  | cons d m ih =>
    have h' := List.pairwise_cons.1 h
    simp only [Memory.insert]
    split
    · rename_i hlt
      refine List.pairwise_cons.2 ⟨fun c hc => ?_, h⟩
      rcases List.mem_cons.1 hc with rfl | hc
      · exact hlt
      · exact Nat.lt_trans hlt (h'.1 c hc)
    · split
      · rename_i he
        exact List.pairwise_cons.2 ⟨fun c hc => by simpa [he] using h'.1 c hc, h'.2⟩
      · refine List.pairwise_cons.2 ⟨fun c hc => ?_, ih h'.2⟩
        rcases Memory.mem_insert hc with rfl | hc
        · simp only; omega
        · exact h'.1 c hc

/-- A byte write keeps the canonical form. -/
theorem Memory.wf_setByte {m : Memory} (a : Nat) (b : Byte) (h : Memory.wf m) : Memory.wf (Memory.setByte m a b) := by
  simp only [Memory.setByte]
  split
  · rename_i hs
    split
    · exact Memory.wf_filter _ h
    · rename_i hu
      refine ⟨Memory.insert_rising h.1, fun c hc => ?_⟩
      rcases Memory.mem_insert hc with rfl | hc
      · exact ⟨hs, hu⟩
      · exact h.2 c hc
  · exact h

theorem Memory.wf_setWord {m : Memory} (a : Nat) (v : Word) (h : Memory.wf m) : Memory.wf (Memory.setWord m a v) :=
  Memory.wf_setByte _ _ (Memory.wf_setByte _ _ (Memory.wf_setByte _ _ (Memory.wf_setByte _ _ h)))

theorem Memory.wf_setWords {m : Memory} (ws : List (Nat × Word)) (h : Memory.wf m) :
    Memory.wf (Memory.setWords m ws) := by
  induction ws generalizing m with
  | nil => exact h
  | cons w ws ih => exact ih (Memory.wf_setWord _ _ h)

theorem Memory.wf_clearTables {m : Memory} (h : Memory.wf m) : Memory.wf (Memory.clearTables m) :=
  Memory.wf_filter _ h

/-- Equal contents are equal lists: the canonical form is unique. -/
theorem Memory.eq_of_find_eq {m m' : Memory} (h : m.Pairwise fun c d => c.1 < d.1)
    (h' : m'.Pairwise fun c d => c.1 < d.1) (he : ∀ a, Memory.find a m = Memory.find a m') : m = m' := by
  have none_of_lt : ∀ (l : Memory) (a : Nat), (∀ c ∈ l, a < c.1) → Memory.find a l = none := by
    intro l a hl
    induction l with
    | nil => rfl
    | cons c l ih =>
      have := hl c List.mem_cons_self
      rw [Memory.find_cons, if_neg (by omega), ih (fun d hd => hl d (List.mem_cons_of_mem _ hd))]
  induction m generalizing m' with
  | nil =>
    cases m' with
    | nil => rfl
    | cons c l => have := he c.1; simp [Memory.find_cons] at this
  | cons c l ih =>
    cases m' with
    | nil => have := he c.1; simp [Memory.find_cons] at this
    | cons c' l' =>
      have hp := List.pairwise_cons.1 h
      have hp' := List.pairwise_cons.1 h'
      have hfst : c.1 = c'.1 := by
        rcases Nat.lt_trichotomy c.1 c'.1 with hlt | heq | hgt
        · have := he c.1
          rw [none_of_lt (c' :: l') c.1 (by
            intro d hd
            rcases List.mem_cons.1 hd with rfl | hd
            · exact hlt
            · exact Nat.lt_trans hlt (hp'.1 d hd))] at this
          simp [Memory.find_cons] at this
        · exact heq
        · have := he c'.1
          rw [none_of_lt (c :: l) c'.1 (by
            intro d hd
            rcases List.mem_cons.1 hd with rfl | hd
            · exact hgt
            · exact Nat.lt_trans hgt (hp.1 d hd))] at this
          simp [Memory.find_cons] at this
      have hsnd : c.2 = c'.2 := by
        have := he c.1
        simpa [Memory.find_cons, hfst] using this
      have hc : c = c' := Prod.ext hfst hsnd
      subst hc
      congr 1
      apply ih hp.2 hp'.2
      intro a
      by_cases ha : c.1 = a
      · rw [none_of_lt l a (fun d hd => ha ▸ hp.1 d hd), none_of_lt l' a (fun d hd => ha ▸ hp'.1 d hd)]
      · simpa [Memory.find_cons, ha] using he a

end Sys2Proof.Machine
end

