-- ==== Sys2Proof/Laws/Operands.lean ====
section
/-! SUPPORT. The laws of the address map and of the word formats: packing, LINK fields, operands. -/

namespace Sys2Proof.Machine

/-! ### The address map -/

theorem isTableByte_iff (a : Nat) : isTableByte a = true ↔ (0x0400 ≤ a ∧ a < 0x0C00) ∨ (0x1000 ≤ a ∧ a < 0x4000) := by
  simp [isTableByte]

theorem hasStorage_iff (a : Nat) : hasStorage a = true ↔
    ((0x0400 ≤ a ∧ a < 0x0C00) ∨ (0x1000 ≤ a ∧ a < 0x4000)) ∨
      ((0x4000 ≤ a ∧ a < 0xC000) ∧ a % 4 = 0) ∨ (0xC000 ≤ a ∧ a < 0xD000) := by
  simp [hasStorage, isTableByte, isBufferByte]

theorem unlistedByte_of_table {a : Nat} (h : isTableByte a = true) : unlistedByte a = some 0#8 := by
  simp [unlistedByte, h]

/-- A word of FREQ, CODELEN, NODE or CODEBITS is backed by storage. -/
theorem wordStorage_of_table {a : Nat} (h : (0x0400 ≤ a ∧ a + 4 ≤ 0x0C00) ∨ (0x1000 ≤ a ∧ a + 4 ≤ 0x4000)) :
    wordStorage a := by
  simp only [wordStorage, hasStorage_iff]; omega

theorem wordStorage_bitBuf {w : Nat} (h : w < 1024) : wordStorage (bitBufAddr w) := by
  simp only [wordStorage, hasStorage_iff, bitBufAddr]; omega

theorem hasStorage_symIn {i : Nat} (h : i < 4096) : hasStorage (symInAddr i) = true := by
  simp only [hasStorage_iff, symInAddr]; omega

theorem hasStorage_symOut {i : Nat} (h : i < 4096) : hasStorage (symOutAddr i) = true := by
  simp only [hasStorage_iff, symOutAddr]; omega

/-- A table word written is the table word read. -/
theorem Memory.tableWord_of_word? {m : Memory} {a : Nat} {v : Word} (h : Memory.word? m a = some v) :
    Memory.tableWord m a = v := by simp [Memory.tableWord, h]

/-- A word whose four bytes are 0 reads 0. -/
theorem Memory.tableWord_of_zero {m : Memory} {a : Nat}
    (h : ∀ i, i < 4 → Memory.byte? m (a + i) = some 0#8) : Memory.tableWord m a = 0#32 := by
  have h0 := h 0 (by omega); have h1 := h 1 (by omega); have h2 := h 2 (by omega); have h3 := h 3 (by omega)
  simp only [Nat.add_zero] at h0
  simp only [Memory.tableWord, Memory.word?, h0, h1, h2, h3]
  decide

/-! ### Packing -/

/-- Bit 31 - j of a packed word is bit 32·w + j of the bit-string, 0 past its end (30_encoding.md R95, R96). -/
theorem packWord_bit (bits : BitString) (w j : Nat) (h : j < 32) :
    (packWord bits w).getLsbD (31 - j) = bits.getD (32 * w + j) false := by
  have key : ∀ (l : List Nat) (v : Word), (∀ x ∈ l, x < 32) →
      (l.foldl (fun v j => if bits.getD (32 * w + j) false then v ||| BitVec.twoPow 32 (31 - j) else v) v).getLsbD
        (31 - j) = (v.getLsbD (31 - j) || (decide (j ∈ l) && bits.getD (32 * w + j) false)) := by
    intro l
    induction l with
    | nil => simp
    | cons x l ih =>
      intro v hl
      have hx : x < 32 := hl x List.mem_cons_self
      rw [List.foldl_cons, ih _ (fun y hy => hl y (List.mem_cons_of_mem _ hy))]
      by_cases hjx : j = x
      · subst hjx
        by_cases hb : bits.getD (32 * w + j) false = true
        · rw [if_pos hb, hb]
          simp [show 31 - j < 32 by omega]
        · simp only [Bool.not_eq_true] at hb
          rw [hb]; simp
      · have hne : ¬ (31 - x = 31 - j) := by omega
        have hmem : (j ∈ x :: l) ↔ j ∈ l := by simp [hjx]
        simp only [hmem]
        split
        · simp [BitVec.getLsbD_twoPow, hne]
        · rfl
  rw [packWord, key _ _ (by simp)]
  simp [h]

/-- Reading bit k of the packing of a bit-string gives its bit k. -/
theorem msbBit_packWord (bits : BitString) (k : Nat) : msbBit (packWord bits (k / 32)) k = bits.getD k false := by
  rw [msbBit, packWord_bit _ _ _ (Nat.mod_lt _ (by omega)), show 32 * (k / 32) + k % 32 = k by omega]

/-! ### The LINK format -/

@[simp] theorem linkIsLeaf_leafLink (x : Symbol) : linkIsLeaf (leafLink x) = true := by
  simp only [linkIsLeaf, leafLink, BitVec.getLsbD_append]; rfl

@[simp] theorem linkIsLeaf_internalLink (l r : NodeIndex) : linkIsLeaf (internalLink l r) = false := by
  simp only [linkIsLeaf, internalLink, BitVec.getLsbD_append]; rfl

@[simp] theorem linkSymbol_leafLink (x : Symbol) : linkSymbol (leafLink x) = x := by
  ext i hi
  simp only [linkSymbol, leafLink, BitVec.getElem_extractLsb', BitVec.getLsbD_append]
  simp [hi, BitVec.getLsbD_eq_getElem]

@[simp] theorem linkLeft_internalLink (l r : NodeIndex) : linkLeft (internalLink l r) = l := by
  ext i hi
  simp only [linkLeft, internalLink, BitVec.getElem_extractLsb', BitVec.getLsbD_append]
  simp [hi, BitVec.getLsbD_eq_getElem]

@[simp] theorem linkRight_internalLink (l r : NodeIndex) : linkRight (internalLink l r) = r := by
  ext i hi
  simp only [linkRight, internalLink, BitVec.getElem_extractLsb', BitVec.getLsbD_append]
  rw [show 16 + i - 9 - 7 = i by omega]
  simp [hi, BitVec.getLsbD_eq_getElem, show ¬ (16 + i < 9) by omega, show ¬ (16 + i - 9 < 7) by omega]

@[simp] theorem linkChild_internalLink (l r : NodeIndex) (b : Bool) :
    linkChild (internalLink l r) b = if b then r else l := by simp [linkChild]

/-- An unused slot is no leaf. -/
@[simp] theorem linkIsLeaf_zero : linkIsLeaf 0#32 = false := by decide

/-! ### Operands -/

@[simp] theorem symInOperand_length (s : State) (len : Nat) : (symInOperand s len).length = len := by
  simp [symInOperand]

@[simp] theorem streamOperand_length (s : State) (len : Nat) : (streamOperand s len).length = len := by
  simp [streamOperand]

theorem symInOperand_getElem (s : State) (len i : Nat) (h : i < (symInOperand s len).length) :
    (symInOperand s len)[i] = symInEntry s.mem i (s.draws + i) := by simp [symInOperand]

theorem streamOperand_getElem (s : State) (len k : Nat) (h : k < (streamOperand s len).length) :
    (streamOperand s len)[k] = streamBit s.mem k (s.draws + k) := by simp [streamOperand]

end Sys2Proof.Machine
end

