-- ==== Sys2Proof/Laws/State.lean ====
section
/-! SUPPORT. One lemma per field per update of State and of STATUS, true by rfl, so that no proof unfolds a record update. -/

namespace Sys2Proof.Machine

section
variable (s : State) (t : Status) (n : Nat) (v w info : Word) (e : ErrorKind) (out : List Symbol) (input : List Symbol) (n' : Nat)
  (op : BitVec 4) (b : Bool)

/-! ### takeDraws -/

@[simp] theorem State.takeDraws_status : (s.takeDraws n).status = s.status := rfl
@[simp] theorem State.takeDraws_ie : (s.takeDraws n).ie = s.ie := rfl
@[simp] theorem State.takeDraws_symInLen : (s.takeDraws n).symInLen = s.symInLen := rfl
@[simp] theorem State.takeDraws_bitLen : (s.takeDraws n).bitLen = s.bitLen := rfl
@[simp] theorem State.takeDraws_symOutLen : (s.takeDraws n).symOutLen = s.symOutLen := rfl
@[simp] theorem State.takeDraws_nsym : (s.takeDraws n).nsym = s.nsym := rfl
@[simp] theorem State.takeDraws_root : (s.takeDraws n).root = s.root := rfl
@[simp] theorem State.takeDraws_nnodes : (s.takeDraws n).nnodes = s.nnodes := rfl
@[simp] theorem State.takeDraws_errInfo : (s.takeDraws n).errInfo = s.errInfo := rfl
@[simp] theorem State.takeDraws_eng : (s.takeDraws n).eng = s.eng := rfl
@[simp] theorem State.takeDraws_mem : (s.takeDraws n).mem = s.mem := rfl
@[simp] theorem State.takeDraws_rsp : (s.takeDraws n).rsp = s.rsp := rfl
@[simp] theorem State.takeDraws_program : (s.takeDraws n).program = s.program := rfl
@[simp] theorem State.takeDraws_turns : (s.takeDraws n).turns = s.turns := rfl
@[simp] theorem State.takeDraws_draws : (s.takeDraws n).draws = s.draws + n := rfl

/-! ### issue -/

@[simp] theorem State.issue_status : (s.issue w).status = s.status.issue (cmdOp w) := rfl
@[simp] theorem State.issue_ie : (s.issue w).ie = s.ie := rfl
@[simp] theorem State.issue_symInLen : (s.issue w).symInLen = s.symInLen := rfl
@[simp] theorem State.issue_bitLen : (s.issue w).bitLen = s.bitLen := rfl
@[simp] theorem State.issue_symOutLen : (s.issue w).symOutLen = s.symOutLen := rfl
@[simp] theorem State.issue_nsym : (s.issue w).nsym = s.nsym := rfl
@[simp] theorem State.issue_root : (s.issue w).root = s.root := rfl
@[simp] theorem State.issue_nnodes : (s.issue w).nnodes = s.nnodes := rfl
@[simp] theorem State.issue_errInfo : (s.issue w).errInfo = s.errInfo := rfl
@[simp] theorem State.issue_eng : (s.issue w).eng = .busy (cmdOp w) w := rfl
@[simp] theorem State.issue_mem : (s.issue w).mem = s.mem := rfl
@[simp] theorem State.issue_rsp : (s.issue w).rsp = s.rsp := rfl
@[simp] theorem State.issue_program : (s.issue w).program = s.program := rfl
@[simp] theorem State.issue_turns : (s.issue w).turns = s.turns := rfl
@[simp] theorem State.issue_draws : (s.issue w).draws = s.draws := rfl

/-! ### succeed -/

@[simp] theorem State.succeed_status : (s.succeed).status = s.status.succeed := rfl
@[simp] theorem State.succeed_ie : (s.succeed).ie = s.ie := rfl
@[simp] theorem State.succeed_symInLen : (s.succeed).symInLen = s.symInLen := rfl
@[simp] theorem State.succeed_bitLen : (s.succeed).bitLen = s.bitLen := rfl
@[simp] theorem State.succeed_symOutLen : (s.succeed).symOutLen = s.symOutLen := rfl
@[simp] theorem State.succeed_nsym : (s.succeed).nsym = s.nsym := rfl
@[simp] theorem State.succeed_root : (s.succeed).root = s.root := rfl
@[simp] theorem State.succeed_nnodes : (s.succeed).nnodes = s.nnodes := rfl
@[simp] theorem State.succeed_errInfo : (s.succeed).errInfo = 0#32 := rfl
@[simp] theorem State.succeed_eng : (s.succeed).eng = .idle := rfl
@[simp] theorem State.succeed_mem : (s.succeed).mem = s.mem := rfl
@[simp] theorem State.succeed_rsp : (s.succeed).rsp = s.rsp := rfl
@[simp] theorem State.succeed_program : (s.succeed).program = s.program := rfl
@[simp] theorem State.succeed_turns : (s.succeed).turns = s.turns := rfl
@[simp] theorem State.succeed_draws : (s.succeed).draws = s.draws := rfl

/-! ### raise -/

@[simp] theorem State.raise_status : (s.raise e info).status = s.status.fail e := rfl
@[simp] theorem State.raise_ie : (s.raise e info).ie = s.ie := rfl
@[simp] theorem State.raise_symInLen : (s.raise e info).symInLen = s.symInLen := rfl
@[simp] theorem State.raise_bitLen : (s.raise e info).bitLen = s.bitLen := rfl
@[simp] theorem State.raise_symOutLen : (s.raise e info).symOutLen = s.symOutLen := rfl
@[simp] theorem State.raise_nsym : (s.raise e info).nsym = s.nsym := rfl
@[simp] theorem State.raise_root : (s.raise e info).root = s.root := rfl
@[simp] theorem State.raise_nnodes : (s.raise e info).nnodes = s.nnodes := rfl
@[simp] theorem State.raise_errInfo : (s.raise e info).errInfo = info := rfl
@[simp] theorem State.raise_eng : (s.raise e info).eng = .idle := rfl
@[simp] theorem State.raise_mem : (s.raise e info).mem = s.mem := rfl
@[simp] theorem State.raise_rsp : (s.raise e info).rsp = s.rsp := rfl
@[simp] theorem State.raise_program : (s.raise e info).program = s.program := rfl
@[simp] theorem State.raise_turns : (s.raise e info).turns = s.turns := rfl
@[simp] theorem State.raise_draws : (s.raise e info).draws = s.draws := rfl

/-! ### acknowledge -/

@[simp] theorem State.acknowledge_status : (s.acknowledge v).status = s.status.writeOneToClear v := rfl
@[simp] theorem State.acknowledge_ie : (s.acknowledge v).ie = s.ie := rfl
@[simp] theorem State.acknowledge_symInLen : (s.acknowledge v).symInLen = s.symInLen := rfl
@[simp] theorem State.acknowledge_bitLen : (s.acknowledge v).bitLen = s.bitLen := rfl
@[simp] theorem State.acknowledge_symOutLen : (s.acknowledge v).symOutLen = s.symOutLen := rfl
@[simp] theorem State.acknowledge_nsym : (s.acknowledge v).nsym = s.nsym := rfl
@[simp] theorem State.acknowledge_root : (s.acknowledge v).root = s.root := rfl
@[simp] theorem State.acknowledge_nnodes : (s.acknowledge v).nnodes = s.nnodes := rfl
@[simp] theorem State.acknowledge_errInfo : (s.acknowledge v).errInfo = s.errInfo := rfl
@[simp] theorem State.acknowledge_eng : (s.acknowledge v).eng = s.eng := rfl
@[simp] theorem State.acknowledge_mem : (s.acknowledge v).mem = s.mem := rfl
@[simp] theorem State.acknowledge_rsp : (s.acknowledge v).rsp = s.rsp := rfl
@[simp] theorem State.acknowledge_program : (s.acknowledge v).program = s.program := rfl
@[simp] theorem State.acknowledge_turns : (s.acknowledge v).turns = s.turns := rfl
@[simp] theorem State.acknowledge_draws : (s.acknowledge v).draws = s.draws := rfl

/-! ### dropTree -/

@[simp] theorem State.dropTree_status : (s.dropTree).status = s.status.setTreeValid false := rfl
@[simp] theorem State.dropTree_ie : (s.dropTree).ie = s.ie := rfl
@[simp] theorem State.dropTree_symInLen : (s.dropTree).symInLen = s.symInLen := rfl
@[simp] theorem State.dropTree_bitLen : (s.dropTree).bitLen = s.bitLen := rfl
@[simp] theorem State.dropTree_symOutLen : (s.dropTree).symOutLen = s.symOutLen := rfl
@[simp] theorem State.dropTree_nsym : (s.dropTree).nsym = 0#9 := rfl
@[simp] theorem State.dropTree_root : (s.dropTree).root = 0#9 := rfl
@[simp] theorem State.dropTree_nnodes : (s.dropTree).nnodes = 0#9 := rfl
@[simp] theorem State.dropTree_errInfo : (s.dropTree).errInfo = s.errInfo := rfl
@[simp] theorem State.dropTree_eng : (s.dropTree).eng = s.eng := rfl
@[simp] theorem State.dropTree_mem : (s.dropTree).mem = Memory.clearTables s.mem := rfl
@[simp] theorem State.dropTree_rsp : (s.dropTree).rsp = s.rsp := rfl
@[simp] theorem State.dropTree_program : (s.dropTree).program = s.program := rfl
@[simp] theorem State.dropTree_turns : (s.dropTree).turns = s.turns := rfl
@[simp] theorem State.dropTree_draws : (s.dropTree).draws = s.draws := rfl

/-! ### resetStep -/

@[simp] theorem State.resetStep_status : (s.resetStep).status = State.reset.status := rfl
@[simp] theorem State.resetStep_ie : (s.resetStep).ie = State.reset.ie := rfl
@[simp] theorem State.resetStep_symInLen : (s.resetStep).symInLen = State.reset.symInLen := rfl
@[simp] theorem State.resetStep_bitLen : (s.resetStep).bitLen = State.reset.bitLen := rfl
@[simp] theorem State.resetStep_symOutLen : (s.resetStep).symOutLen = State.reset.symOutLen := rfl
@[simp] theorem State.resetStep_nsym : (s.resetStep).nsym = State.reset.nsym := rfl
@[simp] theorem State.resetStep_root : (s.resetStep).root = State.reset.root := rfl
@[simp] theorem State.resetStep_nnodes : (s.resetStep).nnodes = State.reset.nnodes := rfl
@[simp] theorem State.resetStep_errInfo : (s.resetStep).errInfo = State.reset.errInfo := rfl
@[simp] theorem State.resetStep_eng : (s.resetStep).eng = State.reset.eng := rfl
@[simp] theorem State.resetStep_mem : (s.resetStep).mem = State.reset.mem := rfl
@[simp] theorem State.resetStep_rsp : (s.resetStep).rsp = State.reset.rsp := rfl
@[simp] theorem State.resetStep_program : (s.resetStep).program = s.program := rfl
@[simp] theorem State.resetStep_turns : (s.resetStep).turns = s.turns := rfl
@[simp] theorem State.resetStep_draws : (s.resetStep).draws = s.draws := rfl

/-! ### commitEncode -/

@[simp] theorem State.commitEncode_status : (s.commitEncode input).status = s.status.setTreeValid (1 ≤ distinct input) := rfl
@[simp] theorem State.commitEncode_ie : (s.commitEncode input).ie = s.ie := rfl
@[simp] theorem State.commitEncode_symInLen : (s.commitEncode input).symInLen = s.symInLen := rfl
@[simp] theorem State.commitEncode_bitLen : (s.commitEncode input).bitLen = BitVec.ofNat 32 (serialize input).length := rfl
@[simp] theorem State.commitEncode_symOutLen : (s.commitEncode input).symOutLen = s.symOutLen := rfl
@[simp] theorem State.commitEncode_nsym : (s.commitEncode input).nsym = BitVec.ofNat 9 (distinct input) := rfl
@[simp] theorem State.commitEncode_root : (s.commitEncode input).root = BitVec.ofNat 9 (rootSlot (distinct input)) := rfl
@[simp] theorem State.commitEncode_nnodes : (s.commitEncode input).nnodes = BitVec.ofNat 9 (nodeCount (distinct input)) := rfl
@[simp] theorem State.commitEncode_errInfo : (s.commitEncode input).errInfo = s.errInfo := rfl
@[simp] theorem State.commitEncode_eng : (s.commitEncode input).eng = s.eng := rfl
@[simp] theorem State.commitEncode_mem : (s.commitEncode input).mem = packStream (serialize input) (commitTables input s.mem) := rfl
@[simp] theorem State.commitEncode_rsp : (s.commitEncode input).rsp = s.rsp := rfl
@[simp] theorem State.commitEncode_program : (s.commitEncode input).program = s.program := rfl
@[simp] theorem State.commitEncode_turns : (s.commitEncode input).turns = s.turns := rfl
@[simp] theorem State.commitEncode_draws : (s.commitEncode input).draws = s.draws := rfl

/-! ### keepOutput -/

@[simp] theorem State.keepOutput_status : (s.keepOutput out).status = s.status := rfl
@[simp] theorem State.keepOutput_ie : (s.keepOutput out).ie = s.ie := rfl
@[simp] theorem State.keepOutput_symInLen : (s.keepOutput out).symInLen = s.symInLen := rfl
@[simp] theorem State.keepOutput_bitLen : (s.keepOutput out).bitLen = s.bitLen := rfl
@[simp] theorem State.keepOutput_symOutLen : (s.keepOutput out).symOutLen = BitVec.ofNat 13 out.length := rfl
@[simp] theorem State.keepOutput_nsym : (s.keepOutput out).nsym = s.nsym := rfl
@[simp] theorem State.keepOutput_root : (s.keepOutput out).root = s.root := rfl
@[simp] theorem State.keepOutput_nnodes : (s.keepOutput out).nnodes = s.nnodes := rfl
@[simp] theorem State.keepOutput_errInfo : (s.keepOutput out).errInfo = s.errInfo := rfl
@[simp] theorem State.keepOutput_eng : (s.keepOutput out).eng = s.eng := rfl
@[simp] theorem State.keepOutput_mem : (s.keepOutput out).mem = writeSymOut out s.mem := rfl
@[simp] theorem State.keepOutput_rsp : (s.keepOutput out).rsp = s.rsp := rfl
@[simp] theorem State.keepOutput_program : (s.keepOutput out).program = s.program := rfl
@[simp] theorem State.keepOutput_turns : (s.keepOutput out).turns = s.turns := rfl
@[simp] theorem State.keepOutput_draws : (s.keepOutput out).draws = s.draws := rfl

/-! ### popTurn -/

@[simp] theorem State.popTurn_status : (s.popTurn).status = s.status := rfl
@[simp] theorem State.popTurn_ie : (s.popTurn).ie = s.ie := rfl
@[simp] theorem State.popTurn_symInLen : (s.popTurn).symInLen = s.symInLen := rfl
@[simp] theorem State.popTurn_bitLen : (s.popTurn).bitLen = s.bitLen := rfl
@[simp] theorem State.popTurn_symOutLen : (s.popTurn).symOutLen = s.symOutLen := rfl
@[simp] theorem State.popTurn_nsym : (s.popTurn).nsym = s.nsym := rfl
@[simp] theorem State.popTurn_root : (s.popTurn).root = s.root := rfl
@[simp] theorem State.popTurn_nnodes : (s.popTurn).nnodes = s.nnodes := rfl
@[simp] theorem State.popTurn_errInfo : (s.popTurn).errInfo = s.errInfo := rfl
@[simp] theorem State.popTurn_eng : (s.popTurn).eng = s.eng := rfl
@[simp] theorem State.popTurn_mem : (s.popTurn).mem = s.mem := rfl
@[simp] theorem State.popTurn_rsp : (s.popTurn).rsp = s.rsp := rfl
@[simp] theorem State.popTurn_program : (s.popTurn).program = s.program := rfl
@[simp] theorem State.popTurn_turns : (s.popTurn).turns = s.turns.tail := rfl
@[simp] theorem State.popTurn_draws : (s.popTurn).draws = s.draws := rfl

/-! ### withFetchWord -/

@[simp] theorem State.withFetchWord_status : (s.withFetchWord n n').status = s.status.issue (cmdOp (BitVec.ofNat 32 (n' % 2 ^ n))) := rfl
@[simp] theorem State.withFetchWord_ie : (s.withFetchWord n n').ie = s.ie := rfl
@[simp] theorem State.withFetchWord_symInLen : (s.withFetchWord n n').symInLen = s.symInLen := rfl
@[simp] theorem State.withFetchWord_bitLen : (s.withFetchWord n n').bitLen = s.bitLen := rfl
@[simp] theorem State.withFetchWord_symOutLen : (s.withFetchWord n n').symOutLen = s.symOutLen := rfl
@[simp] theorem State.withFetchWord_nsym : (s.withFetchWord n n').nsym = s.nsym := rfl
@[simp] theorem State.withFetchWord_root : (s.withFetchWord n n').root = s.root := rfl
@[simp] theorem State.withFetchWord_nnodes : (s.withFetchWord n n').nnodes = s.nnodes := rfl
@[simp] theorem State.withFetchWord_errInfo : (s.withFetchWord n n').errInfo = s.errInfo := rfl
@[simp] theorem State.withFetchWord_eng : (s.withFetchWord n n').eng = .busy (cmdOp (BitVec.ofNat 32 (n' % 2 ^ n))) (BitVec.ofNat 32 (n' % 2 ^ n)) := rfl
@[simp] theorem State.withFetchWord_mem : (s.withFetchWord n n').mem = s.mem := rfl
@[simp] theorem State.withFetchWord_rsp : (s.withFetchWord n n').rsp = s.rsp := rfl
@[simp] theorem State.withFetchWord_program : (s.withFetchWord n n').program = s.program := rfl
@[simp] theorem State.withFetchWord_turns : (s.withFetchWord n n').turns = .engine :: s.turns := rfl
@[simp] theorem State.withFetchWord_draws : (s.withFetchWord n n').draws = s.draws := rfl

/-! ### endWalk -/

@[simp] theorem State.endWalk_ie (x : WalkEnd) : (s.endWalk x).ie = s.ie := by cases x <;> rfl
@[simp] theorem State.endWalk_symInLen (x : WalkEnd) : (s.endWalk x).symInLen = s.symInLen := by cases x <;> rfl
@[simp] theorem State.endWalk_bitLen (x : WalkEnd) : (s.endWalk x).bitLen = s.bitLen := by cases x <;> rfl
@[simp] theorem State.endWalk_symOutLen (x : WalkEnd) : (s.endWalk x).symOutLen = s.symOutLen := by cases x <;> rfl
@[simp] theorem State.endWalk_nsym (x : WalkEnd) : (s.endWalk x).nsym = s.nsym := by cases x <;> rfl
@[simp] theorem State.endWalk_root (x : WalkEnd) : (s.endWalk x).root = s.root := by cases x <;> rfl
@[simp] theorem State.endWalk_nnodes (x : WalkEnd) : (s.endWalk x).nnodes = s.nnodes := by cases x <;> rfl
@[simp] theorem State.endWalk_mem (x : WalkEnd) : (s.endWalk x).mem = s.mem := by cases x <;> rfl
@[simp] theorem State.endWalk_rsp (x : WalkEnd) : (s.endWalk x).rsp = s.rsp := by cases x <;> rfl
@[simp] theorem State.endWalk_program (x : WalkEnd) : (s.endWalk x).program = s.program := by cases x <;> rfl
@[simp] theorem State.endWalk_turns (x : WalkEnd) : (s.endWalk x).turns = s.turns := by cases x <;> rfl
@[simp] theorem State.endWalk_draws (x : WalkEnd) : (s.endWalk x).draws = s.draws := by cases x <;> rfl
@[simp] theorem State.endWalk_eng (x : WalkEnd) : (s.endWalk x).eng = .idle := by cases x <;> rfl

/-! ### STATUS -/

@[simp] theorem Status.issue_busy : (t.issue op).busy = true := rfl
@[simp] theorem Status.issue_done : (t.issue op).done = false := rfl
@[simp] theorem Status.issue_err : (t.issue op).err = false := rfl
@[simp] theorem Status.issue_treeValid : (t.issue op).treeValid = t.treeValid := rfl
@[simp] theorem Status.issue_busyWr : (t.issue op).busyWr = t.busyWr := rfl
@[simp] theorem Status.issue_errCode : (t.issue op).errCode = 0#4 := rfl
@[simp] theorem Status.issue_lastOp : (t.issue op).lastOp = op := rfl

@[simp] theorem Status.succeed_busy : (t.succeed).busy = false := rfl
@[simp] theorem Status.succeed_done : (t.succeed).done = true := rfl
@[simp] theorem Status.succeed_err : (t.succeed).err = t.err := rfl
@[simp] theorem Status.succeed_treeValid : (t.succeed).treeValid = t.treeValid := rfl
@[simp] theorem Status.succeed_busyWr : (t.succeed).busyWr = t.busyWr := rfl
@[simp] theorem Status.succeed_errCode : (t.succeed).errCode = t.errCode := rfl
@[simp] theorem Status.succeed_lastOp : (t.succeed).lastOp = t.lastOp := rfl

@[simp] theorem Status.fail_busy : (t.fail e).busy = false := rfl
@[simp] theorem Status.fail_done : (t.fail e).done = t.done := rfl
@[simp] theorem Status.fail_err : (t.fail e).err = true := rfl
@[simp] theorem Status.fail_treeValid : (t.fail e).treeValid = t.treeValid := rfl
@[simp] theorem Status.fail_busyWr : (t.fail e).busyWr = t.busyWr := rfl
@[simp] theorem Status.fail_errCode : (t.fail e).errCode = e.code := rfl
@[simp] theorem Status.fail_lastOp : (t.fail e).lastOp = t.lastOp := rfl

@[simp] theorem Status.setTreeValid_busy : (t.setTreeValid b).busy = t.busy := rfl
@[simp] theorem Status.setTreeValid_done : (t.setTreeValid b).done = t.done := rfl
@[simp] theorem Status.setTreeValid_err : (t.setTreeValid b).err = t.err := rfl
@[simp] theorem Status.setTreeValid_treeValid : (t.setTreeValid b).treeValid = b := rfl
@[simp] theorem Status.setTreeValid_busyWr : (t.setTreeValid b).busyWr = t.busyWr := rfl
@[simp] theorem Status.setTreeValid_errCode : (t.setTreeValid b).errCode = t.errCode := rfl
@[simp] theorem Status.setTreeValid_lastOp : (t.setTreeValid b).lastOp = t.lastOp := rfl

@[simp] theorem Status.noteDroppedWrite_busy : (t.noteDroppedWrite).busy = t.busy := rfl
@[simp] theorem Status.noteDroppedWrite_done : (t.noteDroppedWrite).done = t.done := rfl
@[simp] theorem Status.noteDroppedWrite_err : (t.noteDroppedWrite).err = t.err := rfl
@[simp] theorem Status.noteDroppedWrite_treeValid : (t.noteDroppedWrite).treeValid = t.treeValid := rfl
@[simp] theorem Status.noteDroppedWrite_busyWr : (t.noteDroppedWrite).busyWr = true := rfl
@[simp] theorem Status.noteDroppedWrite_errCode : (t.noteDroppedWrite).errCode = t.errCode := rfl
@[simp] theorem Status.noteDroppedWrite_lastOp : (t.noteDroppedWrite).lastOp = t.lastOp := rfl

@[simp] theorem Status.writeOneToClear_busy : (t.writeOneToClear v).busy = t.busy := rfl
@[simp] theorem Status.writeOneToClear_done : (t.writeOneToClear v).done = (t.done && !v.getLsbD 1) := rfl
@[simp] theorem Status.writeOneToClear_err : (t.writeOneToClear v).err = (t.err && !v.getLsbD 2) := rfl
@[simp] theorem Status.writeOneToClear_treeValid : (t.writeOneToClear v).treeValid = t.treeValid := rfl
@[simp] theorem Status.writeOneToClear_busyWr : (t.writeOneToClear v).busyWr = (t.busyWr && !v.getLsbD 4) := rfl
@[simp] theorem Status.writeOneToClear_errCode : (t.writeOneToClear v).errCode = (if v.getLsbD 2 then 0#4 else t.errCode) := rfl
@[simp] theorem Status.writeOneToClear_lastOp : (t.writeOneToClear v).lastOp = t.lastOp := rfl

end

/-- No error code is a reserved value, and none is 0 (60_exceptions.md R200). -/
theorem ErrorKind.code_range (e : ErrorKind) : 1 ≤ e.code.toNat ∧ e.code.toNat ≤ 6 := by cases e <;> decide

/-- A walk ends a command with DONE or with ERR and never with both fields touched. -/
theorem State.endWalk_status (x : WalkEnd) (s : State) :
    (s.endWalk x).status = s.status.succeed ∨ ∃ e, (s.endWalk x).status = s.status.fail e := by
  cases x with
  | complete => exact .inl rfl
  | badBits k => exact .inr ⟨_, rfl⟩
  | ovf k => exact .inr ⟨_, rfl⟩
  | trunc k => exact .inr ⟨_, rfl⟩

end Sys2Proof.Machine
end

