-- ==== Sys2Proof/Laws/Tree.lean ====
section
/-! SUPPORT. The laws of the tree builder that the commit rests on: how many nodes there can be. -/

namespace Sys2Proof.Machine

theorem leastKey_mem (k : LiveKey) (ks : List LiveKey) : leastKey k ks ∈ k :: ks := by
  induction ks generalizing k with
  | nil => simp [leastKey]
  | cons x ks ih =>
    simp only [leastKey]
    split
    · exact List.mem_cons_of_mem _ (ih x)
    · rcases List.mem_cons.1 (ih k) with h | h
      · rw [h]; exact List.mem_cons_self
      · exact List.mem_cons_of_mem _ (List.mem_cons_of_mem _ h)

/-- A removal takes one live node out. -/
theorem removeLeast_some {live rest : List LiveKey} {a : LiveKey} (h : removeLeast live = some (a, rest)) :
    a ∈ live ∧ rest = live.erase a ∧ rest.length + 1 = live.length := by
  cases live with
  | nil => cases h
  | cons k ks =>
    simp only [removeLeast, Option.some.injEq, Prod.mk.injEq] at h
    obtain ⟨rfl, rfl⟩ := h
    refine ⟨leastKey_mem k ks, rfl, ?_⟩
    rw [List.length_erase_of_mem (leastKey_mem k ks)]
    rfl

/-- A pass that finds two live nodes, and one that does not. -/
theorem mergeLoop_cases (fuel : Nat) (live : List LiveKey) (nodes : List TreeNode) :
    (live.length < 2 ∧ mergeLoop (fuel + 1) live nodes = nodes) ∨
    ∃ a b live1 live2, removeLeast live = some (a, live1) ∧ removeLeast live1 = some (b, live2) ∧
      mergeLoop (fuel + 1) live nodes =
        mergeLoop fuel (live2 ++ [⟨a.freq + b.freq, nodes.length⟩])
          (nodes ++ [⟨.internal a.slot b.slot, a.freq + b.freq⟩]) := by
  cases h1 : removeLeast live with
  | none =>
    left
    cases live with
    | nil => exact ⟨by simp, by simp [mergeLoop, removeLeast]⟩
    | cons k ks => cases h1
  | some p =>
    obtain ⟨a, live1⟩ := p
    have := removeLeast_some h1
    cases h2 : removeLeast live1 with
    | none =>
      left
      cases live1 with
      | nil => exact ⟨by simp only [List.length_nil] at this; omega, by simp only [mergeLoop, h1, h2]⟩
      | cons k ks => cases h2
    | some q => exact .inr ⟨a, q.1, live1, q.2, rfl, by rw [h2], by simp [mergeLoop, h1, h2]⟩

/-- The merge loop adds at most one node for each live node but one. -/
theorem mergeLoop_length_le (fuel : Nat) (live : List LiveKey) (nodes : List TreeNode) (h : 1 ≤ live.length) :
    (mergeLoop fuel live nodes).length + 1 ≤ nodes.length + live.length := by
  induction fuel generalizing live nodes with
  | zero => simp only [mergeLoop]; omega
  | succ fuel ih =>
    rcases mergeLoop_cases fuel live nodes with ⟨_, he⟩ | ⟨a, b, live1, live2, h1, h2, he⟩
    · rw [he]; omega
    · have l1 := (removeLeast_some h1).2.2
      have l2 := (removeLeast_some h2).2.2
      have := ih (live2 ++ [⟨a.freq + b.freq, nodes.length⟩]) (nodes ++ [⟨.internal a.slot b.slot, a.freq + b.freq⟩])
        (by simp)
      rw [he]
      simp only [List.length_append, List.length_cons, List.length_nil] at this
      omega

@[simp] theorem seedLeaves_length (input : List Symbol) : (seedLeaves input).length = distinct input := by
  simp [seedLeaves, distinct]

@[simp] theorem seedLive_length (leaves : List TreeNode) : (seedLive leaves).length = leaves.length := by
  simp [seedLive]

/-- The present symbols are those that occur (41_encoder.md R143). -/
theorem mem_presentSymbols (input : List Symbol) (x : Symbol) : x ∈ presentSymbols input ↔ 1 ≤ input.count x := by
  rw [presentSymbols, List.mem_filter, decide_eq_true_iff]
  exact and_iff_right (List.mem_map.2 ⟨x.toNat, List.mem_range.2 x.isLt, by simp⟩)

/-- The present symbols ascend (41_encoder.md R143). -/
theorem presentSymbols_rising (input : List Symbol) : (presentSymbols input).Pairwise fun x y => x.toNat < y.toNat := by
  refine List.Pairwise.filter _ (List.pairwise_map.2 (List.Pairwise.imp_of_mem ?_ List.pairwise_lt_range))
  intro a b ha hb hab
  simp only [List.mem_range, Config.alpha, BitVec.toNat_ofNat] at *
  omega

/-- A leaf's key is its frequency and its slot (41_encoder.md R144). -/
theorem seedLive_getElem? (leaves : List TreeNode) (j : Nat) :
    (seedLive leaves)[j]? = (leaves[j]?).map fun p => ⟨p.freq, j⟩ := by
  simp only [seedLive, List.getElem?_map, List.getElem?_zipIdx, Option.map_map]
  cases leaves[j]? <;> simp

/-- There are at most 256 distinct symbols (00_scope.md R5). -/
theorem distinct_le (input : List Symbol) : distinct input ≤ 256 := by
  have := List.length_filter_le (fun x => 1 ≤ freqCount input x) ((List.range Config.alpha).map (BitVec.ofNat 8))
  simpa [distinct, presentSymbols] using this

/-- No tree needs more than NODE_MAX slots (00_scope.md R5). -/
theorem buildTree_length_le (input : List Symbol) : (buildTree input).length ≤ 511 := by
  have hd := distinct_le input
  by_cases h : distinct input = 0
  · have : seedLeaves input = [] := List.eq_nil_of_length_eq_zero (by simpa using h)
    simp [buildTree, this, mergeLoop]
  · have := mergeLoop_length_le (seedLeaves input).length (seedLive (seedLeaves input)) (seedLeaves input)
      (by simp only [seedLive_length, seedLeaves_length]; omega)
    simp only [seedLive_length, seedLeaves_length] at this
    simp only [buildTree, seedLeaves_length]
    omega

end Sys2Proof.Machine
end

