-- ==== Sys2Proof/Laws/Exec.lean ====
section
/-! SUPPORT. One law per meaning and per shared operation of the commands: what it answers, and what it does to storage. -/

namespace Sys2Proof.Machine

/-! ### The meanings -/

theorem exec_nop (s : State) : exec .nop s = .next s.succeed := rfl

theorem exec_clear (s : State) : exec .clear s = .next s.dropTree.succeed := rfl

theorem exec_encode_tooLong {s : State} (h : 4096 < s.symInLen.toNat) :
    exec .encode s = .next (s.raise .len s.symInLen) := by
  simp only [exec, execEncode, if_pos h]

theorem exec_encode_ok {s : State} (h : s.symInLen.toNat ≤ 4096) :
    exec .encode s =
      .next (((s.takeDraws s.symInLen.toNat).commitEncode (symInOperand s s.symInLen.toNat)).succeed) := by
  simp only [exec, execEncode, Config.nMax, if_neg (Nat.not_lt.2 h)]

theorem exec_decode_tooLong {s : State} (h : 32768 < s.bitLen.toNat) :
    exec .decode s = .next (s.raise .len s.bitLen) := by
  simp only [exec, execDecode, if_pos h]

theorem exec_decode_empty {s : State} (h : s.bitLen.toNat = 0) :
    exec .decode s = .next ({ s with symOutLen := 0#13 } : State).succeed := by
  simp only [exec, execDecode, h]; rfl

theorem exec_decode_noTree {s : State} (h1 : 1 ≤ s.bitLen.toNat) (h2 : s.bitLen.toNat ≤ 32768)
    (ht : s.status.treeValid = false) : exec .decode s = .next (s.raise .noTree 0#32) := by
  simp only [exec, execDecode, Config.bMax]
  rw [if_neg (by omega), if_neg (by omega), if_pos ht]

theorem exec_decode_walk {s : State} (h1 : 1 ≤ s.bitLen.toNat) (h2 : s.bitLen.toNat ≤ 32768)
    (ht : s.status.treeValid = true) :
    exec .decode s =
      .next (((s.takeDraws s.bitLen.toNat).keepOutput
        (decodeWalk s (streamOperand s s.bitLen.toNat)).out).endWalk
          (decodeWalk s (streamOperand s s.bitLen.toNat)).ending) := by
  simp only [exec, execDecode, Config.bMax]
  rw [if_neg (by omega), if_neg (by omega), if_neg (by simp [ht])]

/-- Everything DECODE can do. -/
theorem exec_decode_cases (s : State) :
    (32768 < s.bitLen.toNat ∧ exec .decode s = .next (s.raise .len s.bitLen)) ∨
    (s.bitLen.toNat = 0 ∧ exec .decode s = .next ({ s with symOutLen := 0#13 } : State).succeed) ∨
    (1 ≤ s.bitLen.toNat ∧ s.bitLen.toNat ≤ 32768 ∧ s.status.treeValid = false ∧
      exec .decode s = .next (s.raise .noTree 0#32)) ∨
    (1 ≤ s.bitLen.toNat ∧ s.bitLen.toNat ≤ 32768 ∧ s.status.treeValid = true ∧
      exec .decode s = .next (((s.takeDraws s.bitLen.toNat).keepOutput
        (decodeWalk s (streamOperand s s.bitLen.toNat)).out).endWalk
          (decodeWalk s (streamOperand s s.bitLen.toNat)).ending)) := by
  by_cases h : 32768 < s.bitLen.toNat
  · exact .inl ⟨h, exec_decode_tooLong h⟩
  · by_cases h0 : s.bitLen.toNat = 0
    · exact .inr (.inl ⟨h0, exec_decode_empty h0⟩)
    · by_cases ht : s.status.treeValid = true
      · exact .inr (.inr (.inr ⟨by omega, by omega, ht, exec_decode_walk (by omega) (by omega) ht⟩))
      · simp only [Bool.not_eq_true] at ht
        exact .inr (.inr (.inl ⟨by omega, by omega, ht, exec_decode_noTree (by omega) (by omega) ht⟩))

/-- Every command answers a next state. -/
theorem exec_answers_next (i : Instr) (s : State) : ∃ t, exec i s = .next t := by
  cases i with
  | nop => exact ⟨_, rfl⟩
  | clear => exact ⟨_, rfl⟩
  | encode =>
    by_cases h : 4096 < s.symInLen.toNat
    · exact ⟨_, exec_encode_tooLong h⟩
    · exact ⟨_, exec_encode_ok (Nat.not_lt.1 h)⟩
  | decode =>
    rcases exec_decode_cases s with ⟨_, h⟩ | ⟨_, h⟩ | ⟨_, _, _, h⟩ | ⟨_, _, _, h⟩ <;> exact ⟨_, h⟩

/-! ### Storage after the commands -/

/-- SYM_OUT after a walk: entry j of the output where there is one, else what was there; nothing else changes. -/
theorem byte?_writeSymOut (out : List Symbol) (m : Memory) (a : Nat) (h : out.length ≤ 4096) :
    Memory.byte? (writeSymOut out m) a =
      if 0x8000 ≤ a ∧ a % 4 = 0 ∧ (a - 0x8000) / 4 < out.length then out[(a - 0x8000) / 4]? else Memory.byte? m a := by
  have key : ∀ (l : List Symbol) (n : Nat) (m : Memory), n + l.length ≤ 4096 →
      Memory.byte? ((l.zipIdx n).foldl (fun m p => Memory.setByte m (0x8000 + 4 * p.2) p.1) m) a =
        if 0x8000 + 4 * n ≤ a ∧ a % 4 = 0 ∧ (a - (0x8000 + 4 * n)) / 4 < l.length
        then l[(a - (0x8000 + 4 * n)) / 4]? else Memory.byte? m a := by
    intro l
    induction l with
    | nil => simp
    | cons x l ih =>
      intro n m hn
      simp only [List.length_cons] at hn
      rw [List.zipIdx_cons, List.foldl_cons, ih _ _ (by omega)]
      have hs : hasStorage (0x8000 + 4 * n) = true := hasStorage_symOut (by omega)
      by_cases ha : a = 0x8000 + 4 * n
      · subst ha
        rw [if_neg (by omega), Memory.byte?_setByte_same _ _ _ hs, if_pos (by simp)]
        simp
      · rw [Memory.byte?_setByte_other _ _ ha]
        by_cases hc : 0x8000 + 4 * (n + 1) ≤ a ∧ a % 4 = 0 ∧ (a - (0x8000 + 4 * (n + 1))) / 4 < l.length
        · rw [if_pos hc, if_pos (by simp only [List.length_cons]; omega),
            show (a - (0x8000 + 4 * n)) / 4 = (a - (0x8000 + 4 * (n + 1))) / 4 + 1 by omega, List.getElem?_cons_succ]
        · rw [if_neg hc, if_neg (by simp only [List.length_cons]; omega)]
  exact key out 0 m (by omega)

/-- The words that Pack writes lie in BITBUF, one at each offset. -/
theorem byte?_packStream_below (stream : BitString) (m : Memory) {a : Nat} (h : a < 0xC000) :
    Memory.byte? (packStream stream m) a = Memory.byte? m a := by
  apply Memory.byte?_setWords_other
  intro w hw
  simp only [List.mem_map] at hw
  obtain ⟨k, -, rfl⟩ := hw
  simp only [bitBufAddr]; omega

/-- BITBUF words from the end of the stream on are left alone. -/
theorem byte?_packStream_after (stream : BitString) (m : Memory) {a w : Nat} (hw : stream.length ≤ 32 * w)
    (h : bitBufAddr w ≤ a) : Memory.byte? (packStream stream m) a = Memory.byte? m a := by
  apply Memory.byte?_setWords_other
  intro x hx
  simp only [List.mem_map, List.mem_range] at hx
  obtain ⟨k, hk, rfl⟩ := hx
  simp only [bitBufAddr] at *; omega

/-- Pack writes every word that holds stream bits. -/
theorem word?_packStream (stream : BitString) (m : Memory) {w : Nat} (h : w < 1024) (hw : 32 * w < stream.length) :
    Memory.word? (packStream stream m) (bitBufAddr w) = some (packWord stream w) := by
  apply Memory.word?_setWords_mem m _ _ (w := (bitBufAddr w, packWord stream w)) _ (wordStorage_bitBuf h)
  · rw [List.pairwise_map]
    exact List.pairwise_lt_range.imp (fun hij => by simp only [bitBufAddr]; omega)
  · exact List.mem_map_of_mem (by simp; omega)

/-- The offsets of the table words that a commit writes lie in the tables. -/
theorem commitTables_words_in_tables (input : List Symbol) :
    ∀ w ∈ freqWords input ++ nodeWords (buildTree input) ++ codeWords (genCodes input),
      (0x0400 ≤ w.1 ∧ w.1 + 4 ≤ 0x0C00) ∨ (0x1000 ≤ w.1 ∧ w.1 + 4 ≤ 0x4000) := by
  intro w hw
  simp only [List.mem_append] at hw
  rcases hw with (hw | hw) | hw
  · simp only [freqWords, List.mem_map] at hw
    obtain ⟨x, -, rfl⟩ := hw
    have := x.isLt
    simp only [freqAddr]; omega
  · simp only [nodeWords, List.mem_flatMap] at hw
    obtain ⟨p, hp, hw⟩ := hw
    have hlt : p.2 < (buildTree input).length := by
      have := List.snd_lt_of_mem_zipIdx hp; omega
    have hn := buildTree_length_le input
    simp only [List.mem_cons, List.not_mem_nil, or_false] at hw
    rcases hw with rfl | rfl <;> simp only [nodeLinkAddr, nodeFreqAddr] <;> omega
  · simp only [codeWords, List.mem_flatMap] at hw
    obtain ⟨p, -, hw⟩ := hw
    have := p.1.isLt
    simp only [List.mem_cons, List.mem_map, List.mem_range] at hw
    rcases hw with rfl | ⟨k, hk, rfl⟩
    · simp only [codeLenAddr]; omega
    · simp only [codeBitsAddr]; omega

/-- A commit leaves every byte outside the tables alone. -/
theorem byte?_commitTables_outside (input : List Symbol) (m : Memory) {a : Nat} (h : isTableByte a = false) :
    Memory.byte? (commitTables input m) a = Memory.byte? m a := by
  rw [commitTables, Memory.byte?_setWords_other, Memory.byte?_clearTables, if_neg (by simp [h])]
  intro w hw hh
  have := commitTables_words_in_tables input w hw
  have h' : ¬ ((0x0400 ≤ a ∧ a < 0x0C00) ∨ (0x1000 ≤ a ∧ a < 0x4000)) := by
    rw [← isTableByte_iff]; simp [h]
  omega

/-- A commit's tables depend on the input alone. -/
theorem byte?_commitTables_table (input : List Symbol) (m m' : Memory) {a : Nat} (h : isTableByte a = true) :
    Memory.byte? (commitTables input m) a = Memory.byte? (commitTables input m') a := by
  apply Memory.byte?_setWords_congr
  rw [Memory.byte?_clearTables, Memory.byte?_clearTables, if_pos h, if_pos h]

/-! ### The walks -/

/-- A walk writes at most as many symbols as SYM_OUT still has room for. -/
theorem walkFull_out_length (m : Memory) (root : NodeIndex) (bits : BitString) (k : Nat) (node : NodeIndex)
    (cnt start : Nat) (h : cnt ≤ 4096) : (walkFull m root bits k node cnt start).out.length + cnt ≤ 4096 := by
  induction bits generalizing k node cnt start with
  | nil => simpa [walkFull] using h
  | cons b bits ih =>
    simp only [walkFull]
    split
    · split
      · simpa using h
      · rename_i hne
        simp only [Walk.emit, List.length_cons]
        have := ih (k + 1) root (cnt + 1) (if node = root then k else start) (by simp only [Config.nMax] at hne; omega)
        omega
    · exact ih _ _ _ _ h

theorem walkSingle_out_length (m : Memory) (bits : BitString) (k cnt : Nat) (h : cnt ≤ 4096) :
    (walkSingle m bits k cnt).out.length + cnt ≤ 4096 := by
  induction bits generalizing k cnt with
  | nil => simpa [walkSingle] using h
  | cons b bits ih =>
    simp only [walkSingle]
    split
    · simpa using h
    · split
      · simpa using h
      · rename_i hne
        simp only [Walk.emit, List.length_cons]
        have := ih (k + 1) (cnt + 1) (by simp only [Config.nMax] at hne; omega)
        omega

/-- DECODE never writes more than SYM_OUT holds (10_state.md R31). -/
theorem decodeWalk_out_length (s : State) (bits : BitString) : (decodeWalk s bits).out.length ≤ 4096 := by
  simp only [decodeWalk]
  split
  · simpa using walkFull_out_length s.mem s.root bits 0 s.root 0 0 (by omega)
  · simpa using walkSingle_out_length s.mem bits 0 0 (by omega)

end Sys2Proof.Machine
end

