-- ==== Sys2Proof/Laws/Step.lean ====
section
/-! SUPPORT. What a step can do, once: the agents' cases, and everything a host transaction and an engine completion can
be. Proofs about a step start from these and do not unfold it. -/

namespace Sys2Proof.Machine

/-! ### The step -/

theorem step_eq_takeTurn {s : State} (h : s.status.reservedErrCode = false) :
    step s = takeTurn (nextTurn s) s.popTurn := by simp [step, h]

theorem step_reserved {s : State} (h : s.status.reservedErrCode = true) : step s = .fault .reservedErrCode := by
  simp [step, h]

theorem reservedErrCode_false_iff (t : Status) : t.reservedErrCode = false ↔ t.errCode.toNat ≤ 6 := by
  simp [Status.reservedErrCode]; omega

/-- A step that answers a next state is one agent's step. -/
theorem step_next_cases {s t : State} (h : step s = .next t) :
    s.status.reservedErrCode = false ∧
      ((nextTurn s = .host ∧ hostStep s.popTurn = .next t) ∨ (nextTurn s = .engine ∧ engineStep s.popTurn = .next t) ∨
        (nextTurn s = .reset ∧ t = s.popTurn.resetStep)) := by
  cases hr : s.status.reservedErrCode with
  | true => rw [step_reserved hr] at h; cases h
  | false =>
    rw [step_eq_takeTurn hr] at h
    refine ⟨rfl, ?_⟩
    cases ht : nextTurn s with
    | host => rw [ht] at h; exact .inl ⟨rfl, h⟩
    | engine => rw [ht] at h; exact .inr (.inl ⟨rfl, h⟩)
    | reset => rw [ht] at h; injection h with h; exact .inr (.inr ⟨rfl, h.symm⟩)

/-! ### The engine -/

/-- Every command word's command, legal or not, answers a next state. -/
theorem runCommand_answers_next (w : Word) (s : State) : ∃ t, runCommand w s = .next t := by
  simp only [runCommand]
  split
  · exact exec_answers_next _ _
  · exact ⟨_, rfl⟩

theorem runCommand_command {w : Word} {i : Instr} (h : decode w = .command i) (s : State) :
    runCommand w s = exec i s := by simp [runCommand, h]

theorem runCommand_illegal {w : Word} {x : IllegalCmd} (h : decode w = .illegal x) (s : State) :
    runCommand w s = .next (s.raise .illegalCmd w) := by simp [runCommand, h, execIllegal]

/-- An engine step is an idle turn or the completion of the running command. -/
theorem engineStep_cases {s t : State} (h : engineStep s = .next t) :
    (s.eng = .idle ∧ t = s) ∨ ∃ op w, s.eng = .busy op w ∧ runCommand w s = .next t := by
  simp only [engineStep] at h
  cases he : s.eng with
  | idle => rw [he] at h; injection h with h; exact .inl ⟨rfl, h.symm⟩
  | busy op w => rw [he] at h; exact .inr ⟨op, w, rfl, h⟩

/-- The end of every command is one of these six. -/
theorem runCommand_cases {w : Word} {s t : State} (h : runCommand w s = .next t) :
    ((∃ x, decode w = .illegal x) ∧ t = s.raise .illegalCmd w) ∨
    (decode w = .command .nop ∧ t = s.succeed) ∨
    (decode w = .command .clear ∧ t = s.dropTree.succeed) ∨
    (decode w = .command .encode ∧ exec .encode s = .next t) ∨
    (decode w = .command .decode ∧ exec .decode s = .next t) := by
  cases hd : decode w with
  | illegal x => rw [runCommand_illegal hd] at h; injection h with h; exact .inl ⟨⟨x, rfl⟩, h.symm⟩
  | command i =>
    rw [runCommand_command hd] at h
    cases i with
    | nop => injection h with h; exact .inr (.inl ⟨rfl, h.symm⟩)
    | clear => injection h with h; exact .inr (.inr (.inl ⟨rfl, h.symm⟩))
    | encode => exact .inr (.inr (.inr (.inl ⟨rfl, h⟩)))
    | decode => exact .inr (.inr (.inr (.inr ⟨rfl, h⟩)))

/-! ### The host -/

/-- A host step is an idle turn, a read, a write, or a POLL that is over or stays. -/
theorem hostStep_cases {s t : State} (h : hostStep s = .next t) :
    (s.program = [] ∧ t = s) ∨
    (∃ off rest, s.program = .rd off :: rest ∧ t = hostRead off { s with program := rest }) ∨
    (∃ off v rest, s.program = .wr off v :: rest ∧ t = hostWrite off v { s with program := rest }) ∨
    (∃ off mask val rest, s.program = .poll off mask val :: rest ∧
      (t = hostRead off { s with program := rest } ∨ t = hostRead off s)) := by
  simp only [hostStep] at h
  cases hp : s.program with
  | nil => rw [hp] at h; injection h with h; exact .inl ⟨rfl, h.symm⟩
  | cons op rest =>
    rw [hp] at h
    cases op with
    | rd off => injection h with h; exact .inr (.inl ⟨off, rest, rfl, h.symm⟩)
    | wr off v => injection h with h; exact .inr (.inr (.inl ⟨off, v, rest, rfl, h.symm⟩))
    | poll off mask val =>
      simp only [hostOperation] at h
      refine .inr (.inr (.inr ⟨off, mask, val, rest, rfl, ?_⟩))
      split at h <;> injection h with h
      · exact .inl h.symm
      · exact .inr h.symm
    | nonWord kind off => simp [hostOperation] at h

/-- A read changes the response and the draws and nothing else. -/
theorem hostRead_eq (off : Offset) (s : State) :
    hostRead off s = { s with rsp := (hostRead off s).rsp, draws := (hostRead off s).draws } := by
  simp only [hostRead]; split <;> rfl

theorem hostRead_rsp (off : Offset) (s : State) :
    (hostRead off s).rsp = some (.read (readData s off) (!aligned off)) := by
  simp only [hostRead]
  cases h : aligned off <;> simp

theorem Reading.taken_le (r : Reading) : r.taken ≤ 1 := by cases r <;> simp [Reading.taken]

theorem hostRead_draws (off : Offset) (s : State) :
    s.draws ≤ (hostRead off s).draws ∧ (hostRead off s).draws ≤ s.draws + 1 := by
  have := Reading.taken_le (readingAt s (target off))
  simp only [hostRead]; split
  · simp only; omega
  · simp

/-- What a read returns does not depend on the host's program or the schedule. -/
theorem readData_program (s : State) (p : List HostOp) (off : Offset) :
    readData { s with program := p } off = readData s off := by
  have : ∀ t, readingAt { s with program := p } t = readingAt s t := by
    intro t; simp only [readingAt]; cases t <;> rfl
  simp only [readData, this]

theorem readData_popTurn (s : State) (off : Offset) : readData s.popTurn off = readData s off := by
  have : ∀ t, readingAt s.popTurn t = readingAt s t := by
    intro t; simp only [readingAt]; cases t <;> rfl
  simp only [readData, this]; rfl

/-- Everything a host write can do. -/
theorem hostWrite_cases (off : Offset) (v : Word) (s : State) :
    (aligned off = false ∧ hostWrite off v s = { s with rsp := some (.write true) }) ∨
    (s.status.busy = true ∧
      hostWrite off v s = { s with status := s.status.noteDroppedWrite, rsp := some (.write false) }) ∨
    (s.status.busy = false ∧ target off = .cmd ∧ hostWrite off v s = { s.issue v with rsp := some (.write false) }) ∨
    (target off = .status ∧ hostWrite off v s = { s.acknowledge v with rsp := some (.write false) }) ∨
    (target off = .ctrl ∧ hostWrite off v s = { s with ie := v.getLsbD 0, rsp := some (.write false) }) ∨
    (s.status.busy = false ∧ target off = .symInLen ∧
      hostWrite off v s = { s with symInLen := v, rsp := some (.write false) }) ∨
    (s.status.busy = false ∧ target off = .bitLen ∧
      hostWrite off v s = { s with bitLen := v, rsp := some (.write false) }) ∨
    (s.status.busy = false ∧ ∃ i, target off = .symIn i ∧
      hostWrite off v s = { s with mem := Memory.setByte s.mem (symInAddr i) (v.extractLsb' 0 8), rsp := some (.write false) }) ∨
    (s.status.busy = false ∧ ∃ w, target off = .bitBuf w ∧
      hostWrite off v s = { s with mem := Memory.setWord s.mem (bitBufAddr w) v, rsp := some (.write false) }) ∨
    hostWrite off v s = { s with rsp := some (.write false) } := by
  cases ha : aligned off with
  | false => exact .inl ⟨rfl, by simp [hostWrite, ha]⟩
  | true =>
    cases hb : s.status.busy <;> cases ht : target off <;>
      simp [hostWrite, ha, writeTarget, hb, ht, Target.isCommandInput, acceptWrite]

/-- Below 0x400 only the offset 0x008 names CMD, and no offset names a window entry. -/
theorem registerAt_cases (a : Nat) :
    registerAt a ∈ [Target.id, .param, .status, .ctrl, .symInLen, .bitLen, .symOutLen, .nsym, .root, .nnodes, .errInfo,
      .reserved] ∨ (a = 8 ∧ registerAt a = .cmd) := by
  by_cases h : a = 8
  · exact .inr ⟨h, by subst h; rfl⟩
  · left
    simp only [registerAt, h, if_false]
    repeat (split; · decide)
    decide

/-- What an offset names, by range. -/
theorem target_cases (off : Offset) :
    (off.toNat < 0x400 ∧ target off = registerAt off.toNat) ∨
    (∃ x, x < 256 ∧ (target off = .freq x ∨ target off = .codeLen x)) ∨
    (∃ i, i < 512 ∧ (target off = .nodeLink i ∨ target off = .nodeFreq i)) ∨
    (∃ x k, x < 256 ∧ k < 8 ∧ target off = .codeBits x k) ∨
    (∃ i, i < 4096 ∧ (target off = .symIn i ∨ target off = .symOut i)) ∨
    (∃ w, w < 1024 ∧ target off = .bitBuf w) ∨ target off = .reserved := by
  by_cases h1 : off.toNat < 0x0400
  · exact .inl ⟨h1, if_pos h1⟩
  right
  simp only [target, if_neg h1]
  by_cases h2 : off.toNat < 0x0800
  · exact .inl ⟨_, by omega, .inl (if_pos h2)⟩
  rw [if_neg h2]
  by_cases h3 : off.toNat < 0x0C00
  · exact .inl ⟨(off.toNat - 0x800) / 4, by omega, .inr (if_pos h3)⟩
  rw [if_neg h3]
  by_cases h4 : off.toNat < 0x1000
  · rw [if_pos h4]; simp
  rw [if_neg h4]
  by_cases h5 : off.toNat < 0x2000
  · rw [if_pos h5, nodeWordAt]
    by_cases h : (off.toNat - 0x1000) % 8 < 4
    · rw [if_pos h]; exact .inr (.inl ⟨_, by omega, .inl rfl⟩)
    · rw [if_neg h]; exact .inr (.inl ⟨_, by omega, .inr rfl⟩)
  rw [if_neg h5]
  by_cases h6 : off.toNat < 0x4000
  · rw [if_pos h6]; exact .inr (.inr (.inl ⟨_, _, by omega, by omega, rfl⟩))
  rw [if_neg h6]
  by_cases h7 : off.toNat < 0x8000
  · rw [if_pos h7]; exact .inr (.inr (.inr (.inl ⟨_, by omega, .inl rfl⟩)))
  rw [if_neg h7]
  by_cases h8 : off.toNat < 0xC000
  · rw [if_pos h8]; exact .inr (.inr (.inr (.inl ⟨_, by omega, .inr rfl⟩)))
  rw [if_neg h8]
  by_cases h9 : off.toNat < 0xD000
  · rw [if_pos h9]; exact .inr (.inr (.inr (.inr (.inl ⟨_, by omega, rfl⟩))))
  · rw [if_neg h9]; simp

/-- Only the offset 0x008 names CMD. -/
theorem target_eq_cmd {off : Offset} (h : target off = .cmd) : off = 0x008#16 := by
  have key : off.toNat = 8 := by
    rcases target_cases off with ⟨_, ht⟩ | ⟨_, _, ht | ht⟩ | ⟨_, _, ht | ht⟩ | ⟨_, _, _, _, ht⟩ | ⟨_, _, ht | ht⟩ |
      ⟨_, _, ht⟩ | ht <;> rw [ht] at h <;> try contradiction
    rcases registerAt_cases off.toNat with hm | hm
    · rw [h] at hm; simp at hm
    · exact hm.1
  apply BitVec.eq_of_toNat_eq; simpa using key

/-- A SYM_IN offset names an entry of SYM_IN. -/
theorem target_eq_symIn {off : Offset} {i : Nat} (h : target off = .symIn i) : i < 4096 := by
  rcases target_cases off with ⟨_, ht⟩ | ⟨_, _, ht | ht⟩ | ⟨_, _, ht | ht⟩ | ⟨_, _, _, _, ht⟩ | ⟨_, hi, ht | ht⟩ |
    ⟨_, _, ht⟩ | ht <;> rw [ht] at h <;> try contradiction
  · rcases registerAt_cases off.toNat with hm | hm
    · rw [h] at hm; simp at hm
    · rw [h] at hm; simp at hm
  · injection h with h; omega

/-- A BITBUF offset names a word of BITBUF. -/
theorem target_eq_bitBuf {off : Offset} {w : Nat} (h : target off = .bitBuf w) : w < 1024 := by
  rcases target_cases off with ⟨_, ht⟩ | ⟨_, _, ht | ht⟩ | ⟨_, _, ht | ht⟩ | ⟨_, _, _, _, ht⟩ | ⟨_, _, ht | ht⟩ |
    ⟨_, hw, ht⟩ | ht <;> rw [ht] at h <;> try contradiction
  · rcases registerAt_cases off.toNat with hm | hm
    · rw [h] at hm; simp at hm
    · rw [h] at hm; simp at hm
  · injection h with h; omega

end Sys2Proof.Machine
end

