-- ==== Sys2Proof/Laws/HostPort.lean ====
section
/-! SUPPORT. The laws of the host port: what a read returns, and the step of each host operation. -/

namespace Sys2Proof.Machine

/-! ### Reads -/

theorem readData_of_target {s : State} {off : Offset} {t : Target} (ha : aligned off = true) (ht : target off = t) :
    readData s off = (readingAt s t).word s.draws := by simp [readData, ha, ht]

theorem readData_misaligned {s : State} {off : Offset} (ha : aligned off = false) : readData s off = 0#32 := by
  simp [readData, ha]

theorem readingAt_of_hidden {s : State} {t : Target} (h : hiddenByCommand s.eng t = true) :
    readingAt s t = .anyWord := by simp [readingAt, h]

theorem readingAt_of_shown {s : State} {t : Target} (h : hiddenByCommand s.eng t = false) :
    readingAt s t = storedReading s t := by simp [readingAt, h]

@[simp] theorem hiddenByCommand_idle (t : Target) : hiddenByCommand .idle t = false := rfl

/-- A target that no command writes is never hidden. -/
theorem hiddenByCommand_of_mayWrite {t : Target} (h : ∀ i, Instr.mayWrite i t = false) (e : Eng) :
    hiddenByCommand e t = false := by
  cases e with
  | idle => rfl
  | busy op w =>
    simp only [hiddenByCommand]
    cases decode w with
    | command i => exact h i
    | illegal x => rfl

/-- A register, a reserved offset and SYM_IN read the same whatever command runs. -/
theorem readingAt_of_mayWrite {s : State} {t : Target} (h : ∀ i, Instr.mayWrite i t = false) :
    readingAt s t = storedReading s t := readingAt_of_shown (hiddenByCommand_of_mayWrite h _)

/-- What an aligned read returns where no running command hides the target. -/
theorem readData_of_shown {s : State} {off : Offset} {t : Target} (ha : aligned off = true) (ht : target off = t)
    (h : hiddenByCommand s.eng t = false) : readData s off = (storedReading s t).word s.draws := by
  rw [readData_of_target ha ht, readingAt_of_shown h]

theorem hostRead_aligned {off : Offset} {s : State} (ha : aligned off = true) :
    hostRead off s = { s with rsp := some (.read (readData s off) false),
                              draws := s.draws + (readingAt s (target off)).taken } := by simp [hostRead, ha]

theorem hostRead_misaligned {off : Offset} {s : State} (ha : aligned off = false) :
    hostRead off s = { s with rsp := some (.read 0#32 true) } := by simp [hostRead, ha, readData]

/-! ### Writes -/

theorem hostWrite_aligned {off : Offset} {s : State} {v : Word} (ha : aligned off = true) :
    hostWrite off v s = { writeTarget (target off) v s with rsp := some (.write false) } := by simp [hostWrite, ha]

theorem hostWrite_misaligned {off : Offset} {s : State} {v : Word} (ha : aligned off = false) :
    hostWrite off v s = { s with rsp := some (.write true) } := by simp [hostWrite, ha]

/-! ### The targets of the windows -/

theorem target_symIn {i : Nat} (h : i < 4096) : target (BitVec.ofNat 16 (symInAddr i)) = .symIn i := by
  have e : (BitVec.ofNat 16 (symInAddr i)).toNat = 0x4000 + 4 * i := by simp [symInAddr]; omega
  simp (disch := omega) only [target, e, if_neg, if_pos]
  congr 1; omega

theorem target_symOut {i : Nat} (h : i < 4096) : target (BitVec.ofNat 16 (symOutAddr i)) = .symOut i := by
  have e : (BitVec.ofNat 16 (symOutAddr i)).toNat = 0x8000 + 4 * i := by simp [symOutAddr]; omega
  simp (disch := omega) only [target, e, if_neg, if_pos]
  congr 1; omega

theorem target_bitBuf {w : Nat} (h : w < 1024) : target (BitVec.ofNat 16 (bitBufAddr w)) = .bitBuf w := by
  have e : (BitVec.ofNat 16 (bitBufAddr w)).toNat = 0xC000 + 4 * w := by simp [bitBufAddr]; omega
  simp (disch := omega) only [target, e, if_neg, if_pos]
  congr 1; omega

theorem aligned_symIn (i : Nat) : aligned (BitVec.ofNat 16 (symInAddr i)) = true :=
  aligned_of_mod (by simp only [symInAddr, BitVec.toNat_ofNat]; omega)

theorem aligned_symOut (i : Nat) : aligned (BitVec.ofNat 16 (symOutAddr i)) = true :=
  aligned_of_mod (by simp only [symOutAddr, BitVec.toNat_ofNat]; omega)

theorem aligned_bitBuf (w : Nat) : aligned (BitVec.ofNat 16 (bitBufAddr w)) = true :=
  aligned_of_mod (by simp only [bitBufAddr, BitVec.toNat_ofNat]; omega)

/-- The last register, ERR_INFO, stands at 0x2C: no register is left from 0x30 on (10_state.md R22). -/
theorem registerAt_reserved {a : Nat} (h : 0x30 ≤ a) : registerAt a = .reserved := by
  simp (disch := omega) only [registerAt, if_neg]

/-- HUFF_BASE is 64 KiB aligned (00_scope.md R6). -/
theorem huffBase_mod : Config.huffBase % 65536 = 0 := by unfold Config.huffBase; omega

/-! ### The step of each host operation -/

theorem step_rd {s : State} {off : Offset} {rest : List HostOp} (h : s.status.reservedErrCode = false)
    (hn : nextTurn s = .host) (hp : s.program = .rd off :: rest) :
    step s = .next (hostRead off { s with program := rest, turns := s.turns.tail }) := by
  rw [step_eq_takeTurn h, hn]
  simp only [takeTurn, hostStep, State.popTurn_program, hp, hostOperation]; rfl

theorem step_wr {s : State} {off : Offset} {v : Word} {rest : List HostOp} (h : s.status.reservedErrCode = false)
    (hn : nextTurn s = .host) (hp : s.program = .wr off v :: rest) :
    step s = .next (hostWrite off v { s with program := rest, turns := s.turns.tail }) := by
  rw [step_eq_takeTurn h, hn]
  simp only [takeTurn, hostStep, State.popTurn_program, hp, hostOperation]; rfl

theorem step_poll {s : State} {off : Offset} {mask val : Word} {rest : List HostOp}
    (h : s.status.reservedErrCode = false) (hn : nextTurn s = .host) (hp : s.program = .poll off mask val :: rest) :
    step s = .next (hostRead off { s with
      program := if readData s off &&& mask = val then rest else s.program, turns := s.turns.tail }) := by
  rw [step_eq_takeTurn h, hn]
  simp only [takeTurn, hostStep, State.popTurn_program, hp, hostOperation, readData_popTurn, pollSatisfied, beq_iff_eq]
  split
  · rfl
  · rw [show s.popTurn = { s with turns := s.turns.tail } from rfl, ← hp]

theorem step_nonWord {s : State} {kind : NonWord} {off : Offset} {rest : List HostOp}
    (h : s.status.reservedErrCode = false) (hn : nextTurn s = .host) (hp : s.program = .nonWord kind off :: rest) :
    step s = .refused (.nonWordTransaction kind) := by
  rw [step_eq_takeTurn h, hn]
  simp only [takeTurn, hostStep, State.popTurn_program, hp, hostOperation]

/-- What a read returns does not depend on the host's program or the schedule. -/
theorem readData_host (s : State) (p : List HostOp) (ts : List Turn) (off : Offset) :
    readData { s with program := p, turns := ts } off = readData s off := by
  have : ∀ t, readingAt { s with program := p, turns := ts } t = readingAt s t := by
    intro t; simp only [readingAt]; cases t <;> rfl
  simp only [readData, this]

end Sys2Proof.Machine
end

