-- ==== Sys2Proof/Laws/Invariant.lean ====
section
/-! SUPPORT. The parts of the invariant: what each depends on, and that the operations keep it. -/

namespace Sys2Proof.Machine

/-! ### BITBUF words are whole -/

/-- The property depends on BITBUF's bytes alone. -/
theorem Memory.bitBufWhole_congr {m m' : Memory} (h : ∀ a, 0xC000 ≤ a → a < 0xD000 → Memory.byte? m' a = Memory.byte? m a)
    (hm : Memory.BitBufWhole m) : Memory.BitBufWhole m' := by
  intro w hw
  have he : ∀ i, i < 4 → Memory.byte? m' (bitBufAddr w + i) = Memory.byte? m (bitBufAddr w + i) := fun i hi =>
    h _ (by simp only [bitBufAddr]; omega) (by simp only [bitBufAddr]; omega)
  exact (hm w hw).imp (fun hs i hi => by rw [he i hi]; exact hs i hi) (fun hn i hi => by rw [he i hi]; exact hn i hi)

theorem Memory.bitBufWhole_nil : Memory.BitBufWhole [] := by
  intro w hw
  refine .inr fun i hi => ?_
  have : isTableByte (bitBufAddr w + i) = false := by
    rw [Bool.eq_false_iff, Ne, isTableByte_iff]; simp only [bitBufAddr]; omega
  simp [Memory.byte?, unlistedByte, this]

/-- Writing one BITBUF word keeps it, and so does a write past the end, where nothing is stored. -/
theorem Memory.bitBufWhole_setWord {m : Memory} (w : Nat) (v : Word) (hm : Memory.BitBufWhole m) :
    Memory.BitBufWhole (Memory.setWord m (bitBufAddr w) v) := by
  intro w' hw'
  by_cases h : w' = w
  · subst h
    refine .inl fun i hi => ?_
    have hs : hasStorage (bitBufAddr w' + i) = true := by
      rw [hasStorage_iff]; simp only [bitBufAddr]; omega
    rw [Memory.byte?_setWord, if_pos ⟨by omega, by omega, hs⟩]
    rfl
  · have he : ∀ i, i < 4 →
        Memory.byte? (Memory.setWord m (bitBufAddr w) v) (bitBufAddr w' + i) = Memory.byte? m (bitBufAddr w' + i) := by
      intro i hi
      rw [Memory.byte?_setWord, if_neg]
      simp only [bitBufAddr]; omega
    exact (hm w' hw').imp (fun hs i hi => by rw [he i hi]; exact hs i hi) (fun hn i hi => by rw [he i hi]; exact hn i hi)

/-- Pack writes whole words. -/
theorem bitBufWhole_packStream {m : Memory} (stream : BitString) (hm : Memory.BitBufWhole m) :
    Memory.BitBufWhole (packStream stream m) := by
  have key : ∀ (l : List Nat) (m : Memory), Memory.BitBufWhole m →
      Memory.BitBufWhole (Memory.setWords m (l.map fun w => (bitBufAddr w, packWord stream w))) := by
    intro l
    induction l with
    | nil => intro m hm; exact hm
    | cons x l ih => intro m hm; exact ih _ (Memory.bitBufWhole_setWord _ _ hm)
  exact key _ m hm

/-! ### The retained tree -/

/-- Where nothing is listed and the tree registers are 0, there is no tree. -/
theorem State.noTree_of_empty {s : State} (hm : s.mem = []) (ht : s.status.treeValid = false) (hn : s.nsym = 0#9)
    (hr : s.root = 0#9) (hc : s.nnodes = 0#9) : s.NoTree :=
  ⟨ht, hn, hr, hc, fun a ha => by simp [hm, Memory.byte?, unlistedByte, ha]⟩

theorem State.SameTree.refl (s : State) : s.SameTree s := ⟨rfl, rfl, rfl, rfl, fun _ _ => rfl⟩

theorem State.SameTree.trans {s t u : State} (h : s.SameTree t) (h' : t.SameTree u) : s.SameTree u := by
  obtain ⟨a1, a2, a3, a4, a5⟩ := h
  obtain ⟨b1, b2, b3, b4, b5⟩ := h'
  exact ⟨b1.trans a1, b2.trans a2, b3.trans a3, b4.trans a4, fun a ha => (b5 a ha).trans (a5 a ha)⟩

/-- What no operation on the tree touches keeps the tree. -/
theorem State.sameTree_of_eq {s t : State} (h1 : t.status.treeValid = s.status.treeValid) (h2 : t.nsym = s.nsym)
    (h3 : t.root = s.root) (h4 : t.nnodes = s.nnodes) (h5 : t.mem = s.mem) : s.SameTree t :=
  ⟨h1, h2, h3, h4, fun a _ => by rw [h5]⟩

theorem State.NoTree.of_sameTree {s t : State} (h : s.NoTree) (hs : s.SameTree t) : t.NoTree := by
  obtain ⟨a1, a2, a3, a4, a5⟩ := h
  obtain ⟨b1, b2, b3, b4, b5⟩ := hs
  exact ⟨b1.trans a1, b2.trans a2, b3.trans a3, b4.trans a4, fun a ha => (b5 a ha).trans (a5 a ha)⟩

theorem State.HoldsTreeOf.of_sameTree {s t : State} {input : List Symbol} (h : s.HoldsTreeOf input)
    (hs : s.SameTree t) : t.HoldsTreeOf input := by
  obtain ⟨a1, a2, a3, a4, a5, a6, a7⟩ := h
  obtain ⟨b1, b2, b3, b4, b5⟩ := hs
  exact ⟨b1.trans a1, a2, a3, b2.trans a4, b3.trans a5, b4.trans a6, fun a ha => (b5 a ha).trans (a7 a ha)⟩

/-- A write outside the tables keeps the tree. -/
theorem State.sameTree_setWord (s : State) {a : Nat} (v : Word) (h : 0x4000 ≤ a) :
    s.SameTree { s with mem := Memory.setWord s.mem a v } :=
  ⟨rfl, rfl, rfl, rfl, fun b hb => by
    have := (isTableByte_iff b).1 hb
    exact (Memory.byte?_setWord s.mem a b v).trans (if_neg (by omega))⟩

theorem State.sameTree_setByte (s : State) {a : Nat} (b : Byte) (h : 0x4000 ≤ a) :
    s.SameTree { s with mem := Memory.setByte s.mem a b } :=
  ⟨rfl, rfl, rfl, rfl, fun c hc => by
    have := (isTableByte_iff c).1 hc
    exact Memory.byte?_setByte_other s.mem b (by omega)⟩

/-- A commit's tables are those of its input. -/
theorem State.holdsTreeOf_commitEncode (s : State) {input : List Symbol} (h1 : 1 ≤ input.length)
    (h2 : input.length ≤ 4096) (hd : 1 ≤ distinct input) : (s.commitEncode input).HoldsTreeOf input := by
  refine ⟨by simpa using hd, h1, h2, rfl, rfl, rfl, fun a ha => ?_⟩
  have := (isTableByte_iff a).1 ha
  exact (byte?_packStream_below _ _ (by omega)).trans (byte?_commitTables_table _ _ _ ha)

end Sys2Proof.Machine
end

