-- ==== Sys2Proof/Laws/PerInstr.lean ====
section
/-! SUPPORT. Laws stated per command, one lemma per constructor: the encoding of a command is a legal CMD word. -/

namespace Sys2Proof.Laws.LegalWord

/-- The command's word has MBZ zero, its OP is the command's opcode and is below 4 (30_encoding.md R91, R92). -/
def Statement (i : Instr) : Prop :=
  cmdMbz (encode i) = 0#28 ∧ cmdOp (encode i) = i.opcode ∧ i.opcode.toNat < 4 ∧ i.wellFormed = true

theorem nop : Statement .nop := by unfold Statement; decide

theorem clear : Statement .clear := by unfold Statement; decide

theorem encode : Statement .encode := by unfold Statement; decide

theorem decode : Statement .decode := by unfold Statement; decide

end Sys2Proof.Laws.LegalWord
end

