-- ==== Sys2Proof/Tests/Slice0.lean ====
section
/-! SUPPORT. The model's own tests: decoding of written-out words, ill-formed terms refused, the spec's vectors
(95_test_vectors.md) one step each, and for each obligation with hypotheses a state and operands that meet them. -/

namespace Sys2Proof.Tests

open Sys2Proof.Machine

set_option Elab.async false

/-! ### Helpers -/

/-- The state an outcome gives, if any. -/
def after (o : Host.Outcome State Fault Refusal) : Option State :=
  match o with
  | .next t => some t
  | _ => none

/-- The bytes of characters. -/
def symbols (xs : List Nat) : List Symbol := xs.map (BitVec.ofNat 8)

/-- The reset state with SYM_IN and SYM_IN_LEN written. -/
def loaded (xs : List Nat) : State :=
  { State.reset with
    symInLen := BitVec.ofNat 32 xs.length
    mem := (symbols xs).zipIdx.map fun p => (symInAddr p.2, p.1) }

/-- "Tree X": what a successful ENCODE of X leaves, here with ENCODE as the last opcode. -/
def withTree (xs : List Nat) : State := ((State.reset.issue 0x00000002#32).commitEncode (symbols xs)).succeed

/-- A state with BITBUF word 0 and BIT_LEN written. -/
def withStream (v : Word) (len : Nat) (s : State) : State :=
  { s with mem := Memory.setWord s.mem (bitBufAddr 0) v, bitLen := BitVec.ofNat 32 len }

/-- A state whose next steps are the host's, with this program. -/
def hosting (program : List HostOp) (s : State) : State := { s with program := program, turns := [.host] }

def ab : List Nat := [0x61, 0x62]
def aaaa : List Nat := [0x61, 0x61, 0x61, 0x61]
def abcc : List Nat := [0x61, 0x62, 0x63, 0x63]
def abracadabra : List Nat := [0x61, 0x62, 0x72, 0x61, 0x63, 0x61, 0x64, 0x61, 0x62, 0x72, 0x61]

/-! ### Words written out from 30_encoding.md R91 and R92 -/

theorem test_decode_nop_word : decode 0b00000000000000000000000000000000#32 = .command .nop := by decide
theorem test_decode_clear_word : decode 0b00000000000000000000000000000001#32 = .command .clear := by decide
theorem test_decode_encode_word : decode 0b00000000000000000000000000000010#32 = .command .encode := by decide
theorem test_decode_decode_word : decode 0b00000000000000000000000000000011#32 = .command .decode := by decide

theorem test_decode_reserved_opcodes :
    ∀ op : BitVec 4, 4 ≤ op.toNat → decode (0#28 ++ op) = .illegal .reservedOpcode := by decide

theorem test_decode_every_mbz_bit :
    ∀ i : Fin 28, decode (BitVec.twoPow 32 (4 + i.val)) = .illegal .mbzNonzero ∧
      decode (BitVec.twoPow 32 (4 + i.val) ||| 2#32) = .illegal .mbzNonzero := by decide

theorem test_encode_words :
    encode .nop = 0x00000000#32 ∧ encode .clear = 0x00000001#32 ∧ encode .encode = 0x00000002#32 ∧
      encode .decode = 0x00000003#32 := by decide

theorem test_table_words :
    decodeTableWord 32 0 = some .nop ∧ decodeTableWord 32 1 = some .clear ∧ decodeTableWord 32 2 = some .encode ∧
      decodeTableWord 32 3 = some .decode ∧ decodeTableWord 32 5 = none ∧ decodeTableWord 32 0x12 = none := by decide

/-! ### Ill-formed terms are refused -/

/-- V-C7's and V-C5's words. -/
theorem test_illformed_cmd_words :
    cmdWordWellFormed 0x00000012#32 = false ∧ cmdWordWellFormed 0x00000005#32 = false ∧
      cmdWordWellFormed 0x80000003#32 = false ∧ cmdWordWellFormed 0x00000003#32 = true := by decide

theorem test_illformed_transactions :
    HostOp.wellFormed (.rd 0x002#16) = false ∧ HostOp.wellFormed (.wr 0x00A#16 2#32) = false ∧
      HostOp.wellFormed (.poll 0x00D#16 1#32 0#32) = false ∧ HostOp.wellFormed (.nonWord .byte 0x000#16) = false ∧
      HostOp.wellFormed (.rd 0xFFFC#16) = true := by decide

theorem test_illformed_pseudo_operations :
    Pseudo.wellFormed (.putSym 4096 0#8) = false ∧ Pseudo.wellFormed (.putBits 1024 0#32) = false ∧
      Pseudo.wellFormed (.getSym 4096) = false ∧ Pseudo.wellFormed (.getBits 1024) = false ∧
      Pseudo.wellFormed (.getBits 1023) = true := by decide

/-! ### NOP and CLEAR -/

/-- V-C1. -/
theorem test_nop_after_reset :
    (after (exec .nop (State.reset.issue 0#32))).map (fun t => (t.status.toWord, t.errInfo)) =
      some (0x00000002#32, 0#32) := by decide

/-- V-C2: the start is V-C5's end. -/
theorem test_nop_after_error :
    (after (exec .nop (((State.reset.issue 5#32).raise .illegalCmd 5#32).issue 0#32))).map
      (fun t => (t.status.toWord, t.errInfo)) = some (0x00000002#32, 0#32) := by decide

/-- V-C3. -/
theorem test_clear_of_ab :
    (after (exec .clear ((withTree ab).issue 1#32))).map
      (fun t => (t.status.toWord, [readData t 0x020#16, readData t 0x024#16, readData t 0x028#16, readData t 0x018#16,
        readData t 0x1010#16, readData t 0x1014#16, readData t 0x0584#16, readData t 0x0988#16, readData t 0x2C40#16,
        readData t 0xC000#16])) =
      some (0x00010002#32, [0#32, 0#32, 0#32, 2#32, 0#32, 0#32, 0#32, 0#32, 0#32, 0x40000000#32]) := by decide +kernel

/-! ### Illegal words -/

/-- V-C5 and V-C7. -/
theorem test_illegal_words :
    (after (runCommand 5#32 (State.reset.issue 5#32))).map (fun t => (t.status.toWord, t.errInfo)) =
      some (0x00050104#32, 5#32) ∧
    (after (runCommand 0x12#32 ((withTree ab).issue 0x12#32))).map (fun t => (t.status.toWord, t.errInfo, t.nsym)) =
      some (0x0002010C#32, 0x12#32, 2#9) := by decide +kernel

/-! ### ENCODE -/

/-- V-E7: the whole NODE table, the registers, the code table and the stream. -/
theorem test_encode_abracadabra :
    (after (exec .encode ((loaded abracadabra).issue 2#32))).map
      (fun t => (t.status.toWord,
        (List.range 10).map (fun i => Memory.tableWord t.mem (nodeLinkAddr i)),
        (List.range 10).map (fun i => Memory.tableWord t.mem (nodeFreqAddr i)),
        [0x61, 0x62, 0x63, 0x64, 0x72].map (fun x => Memory.tableWord t.mem (codeBitsAddr x 0)),
        [readData t 0x020#16, readData t 0x024#16, readData t 0x028#16, readData t 0x018#16, readData t 0xC000#16])) =
      some (0x0002000A#32,
        [0xC0000061#32, 0xC0000062#32, 0xC0000063#32, 0xC0000064#32, 0xC0000072#32, 0x40030002#32, 0x40040001#32,
          0x40060005#32, 0x40070000#32, 0#32],
        [5#32, 2#32, 1#32, 1#32, 2#32, 2#32, 4#32, 6#32, 11#32, 0#32],
        [0x00000000#32, 0xC0000000#32, 0x80000000#32, 0xA0000000#32, 0xE0000000#32],
        [5#32, 8#32, 9#32, 23#32, 0x6E8ADC00#32]) := by decide +kernel

/-- V-E14. -/
theorem test_encode_length_error :
    (after (exec .encode (({ withTree ab with symInLen := 4097#32 } : State).issue 2#32))).map
      (fun t => (t.status.toWord, t.errInfo, t.bitLen, t.nsym)) =
      some (0x0002020C#32, 0x00001001#32, 2#32, 2#9) := by decide +kernel

/-! ### DECODE -/

/-- V-D4: a truncated code, with the symbols before it kept. -/
theorem test_decode_truncated :
    (after (exec .decode ((withStream 0x18000000#32 5 (withTree [0x61, 0x62, 0x63, 0x64])).issue 3#32))).map
      (fun t => (t.status.toWord, t.errInfo, t.symOutLen, Memory.symbol? t.mem (symOutAddr 0),
        Memory.symbol? t.mem (symOutAddr 1), Memory.symbol? t.mem (symOutAddr 2))) =
      some (0x0003050C#32, 4#32, 2#13, some 0x61#8, some 0x62#8, none) := by decide +kernel

/-- V-D14: a 1 bit against a one-symbol tree. -/
theorem test_decode_bad_bits :
    (after (exec .decode ((withStream 0x40000000#32 2 (withTree aaaa)).issue 3#32))).map
      (fun t => (t.status.toWord, t.errInfo, t.symOutLen, Memory.symbol? t.mem (symOutAddr 0))) =
      some (0x0003040C#32, 1#32, 1#13, some 0x61#8) := by decide +kernel

/-! ### The bus, the flags and Reset -/

/-- V-B23, V-B1, V-B2, V-B7. -/
theorem test_reads :
    readData (withTree ab) 0x1010#16 = 0x40010000#32 ∧ readData (withTree ab) 0x1014#16 = 0x00000002#32 ∧
      readData (withTree ab) 0x2C40#16 = 0x80000000#32 ∧ readData (withTree ab) 0x000#16 = 0x48554646#32 ∧
      readData (withTree ab) 0x004#16 = 0x01FF0FC8#32 ∧ readData (withTree ab) 0xFFFC#16 = 0#32 := by decide +kernel

/-- V-B9: the junk bits are dropped at the write. -/
theorem test_symIn_write : readData (hostWrite 0x4000#16 0xFFFFFF61#32 State.reset) 0x4000#16 = 0x00000061#32 := by
  decide

/-- V-B12 and V-B13: the W1C bits alone change. -/
theorem test_status_writes :
    (hostWrite 0x00C#16 0xFFFFFFFF#32 (withTree ab)).status.toWord = 0x00020008#32 ∧
    (hostWrite 0x00C#16 4#32 (((withTree ab).issue 3#32).raise .trunc 4#32)).status.toWord = 0x00030008#32 ∧
    (hostWrite 0x00C#16 4#32 (((withTree ab).issue 3#32).raise .trunc 4#32)).errInfo = 4#32 := by decide +kernel

/-- V-B5, V-B6, V-B16, V-B17. -/
theorem test_transactions :
    (hostRead 0x002#16 State.reset).rsp = some (.read 0#32 true) ∧
    hostWrite 0x00A#16 2#32 State.reset = { State.reset with rsp := some (.write true) } ∧
    (hostWrite 0x4000#16 0x62#32 (State.reset.issue 2#32)).status.busyWr = true ∧
    Memory.symbol? (hostWrite 0x4000#16 0x62#32 (State.reset.issue 2#32)).mem (symInAddr 0) = none ∧
    (hostWrite 0x010#16 1#32 (State.reset.issue 2#32)).ie = true := by decide

/-- V-C11: STATUS while ENCODE runs over tree "ab". -/
theorem test_status_while_busy :
    readData (hostWrite 0x008#16 2#32 (withTree ab)) 0x00C#16 = 0x00020009#32 := by decide +kernel

/-- V-I5 and V-I8. -/
theorem test_irq :
    State.irq ({ withTree ab with ie := true } : State) = true ∧
    State.irq (hostWrite 0x008#16 0#32 ({ withTree ab with ie := true } : State)) = false ∧
    State.irq (hostWrite 0x010#16 0#32 ({ withTree ab with ie := true } : State)) = false := by decide +kernel

/-- V-R2: Reset abandons a running ENCODE. -/
theorem test_reset_while_busy :
    (after (step { (withTree ab).issue 2#32 with turns := [.reset] })).map
      (fun t => (t.status.toWord, t.eng, t.nsym, readData t 0x1010#16, Memory.word? t.mem (bitBufAddr 0))) =
      some (0#32, .idle, 0#9, 0#32, none) := by decide +kernel

/-- The host's opcode-table words run as the first command after reset (40_commands.md R120, R121). -/
theorem test_first_commands :
    (after (step (State.reset.withFetchWord 32 0))).map (fun t => t.status.toWord) = some 0x00000002#32 ∧
    (after (step (State.reset.withFetchWord 32 1))).map (fun t => t.status.toWord) = some 0x00010002#32 ∧
    (after (step (State.reset.withFetchWord 32 2))).map (fun t => t.status.toWord) = some 0x00020002#32 ∧
    (after (step (State.reset.withFetchWord 32 3))).map (fun t => t.status.toWord) = some 0x00030002#32 := by
  decide +kernel

/-! ### Witnesses: lemmas -/

theorem forall_of_all {α : Type} {p : α → Prop} [DecidablePred p] {l : List α}
    (h : l.all (fun x => decide (p x)) = true) : ∀ x ∈ l, p x := by simpa using h

theorem next_of_after {o : Host.Outcome State Fault Refusal} {p : State → Bool} (h : (after o).any p = true) :
    ∃ t, o = .next t ∧ p t = true := by
  cases o with
  | next t => exact ⟨t, rfl, h⟩
  | fault r => cases h
  | refused r => cases h

/-- A command of any word running right after reset meets the invariant. -/
theorem inv_issued (w : Word) : (State.reset.issue w).Inv :=
  ⟨⟨by simp, by simp, fun _ => ⟨rfl, rfl⟩, by simp⟩, ⟨rfl, rfl, rfl⟩, Memory.wf_nil, Memory.bitBufWhole_nil,
    Nat.zero_le _, .inl (State.noTree_of_empty rfl rfl rfl rfl rfl)⟩

theorem sameTree_issue (s : State) (w : Word) : s.SameTree (s.issue w) := State.sameTree_of_eq rfl rfl rfl rfl rfl

/-- The tree of `withTree` is its input's. -/
theorem holdsTree_withTree {xs : List Nat} (h1 : 1 ≤ (symbols xs).length) (h2 : (symbols xs).length ≤ 4096)
    (hd : 1 ≤ distinct (symbols xs)) : (withTree xs).HoldsTreeOf (symbols xs) :=
  (State.holdsTreeOf_commitEncode _ h1 h2 hd).of_sameTree (State.sameTree_of_eq rfl rfl rfl rfl rfl)

/-- BITBUF and BIT_LEN are no part of the tree. -/
theorem holdsTree_withStream {s : State} {input : List Symbol} (v : Word) (len : Nat) (h : s.HoldsTreeOf input) :
    (withStream v len s).HoldsTreeOf input :=
  (h.of_sameTree (State.sameTree_setWord s v (by decide : 0x4000 ≤ bitBufAddr 0))).of_sameTree
    (State.sameTree_of_eq rfl rfl rfl rfl rfl)

/-- A DECODE running over tree "ab" meets the invariant, with a tree. -/
theorem inv_withTree : ((withTree ab).issue 3#32).Inv := by
  refine ⟨⟨by simp, by simp, fun _ => ⟨rfl, rfl⟩, by simp⟩, ⟨rfl, rfl, rfl⟩, ?_, ?_, ?_,
    .inr ⟨symbols ab, (holdsTree_withTree (by decide) (by decide) (by decide +kernel)).of_sameTree (sameTree_issue _ _)⟩⟩
  · rw [State.issue_mem, withTree, State.succeed_mem, State.commitEncode_mem]
    exact Memory.wf_setWords _ (Memory.wf_setWords _ (Memory.wf_clearTables Memory.wf_nil))
  · rw [State.issue_mem, withTree, State.succeed_mem, State.commitEncode_mem]
    refine bitBufWhole_packStream _ (Memory.bitBufWhole_congr (m := []) (fun a h1 h2 => ?_)
      Memory.bitBufWhole_nil)
    refine byte?_commitTables_outside _ _ ?_
    rw [Bool.eq_false_iff, Ne, isTableByte_iff]; omega
  · rw [State.issue_symOutLen]; exact Nat.zero_le _

/-- BITBUF bytes 0 to n - 1, byte i being f i. -/
def streamBytes (n : Nat) (f : Nat → Byte) : Memory := (List.range n).map fun i => (0xC000 + i, f i)

theorem find_streamBytes (n i : Nat) (f : Nat → Byte) (h : i < n) :
    Memory.find (0xC000 + i) (streamBytes n f) = some (f i) := by
  have key : ∀ l : List Nat, i ∈ l →
      Memory.find (0xC000 + i) (l.map fun i => (0xC000 + i, f i)) = some (f i) := by
    intro l
    induction l with
    | nil => simp
    | cons x l ih =>
      intro hx
      rw [List.map_cons, Memory.find_cons]
      by_cases hxi : x = i
      · subst hxi; rw [if_pos rfl]
      · rw [if_neg (by simp only; omega)]
        exact ih ((List.mem_cons.1 hx).resolve_left (Ne.symm hxi))
  exact key _ (List.mem_range.2 h)

/-- A word of all-zero stream bytes gives 0 bits. -/
theorem streamBit_zero (n k d : Nat) (f : Nat → Byte) (h : 4 * (k / 32) + 4 ≤ n)
    (hf : ∀ i, i < 4 → f (4 * (k / 32) + i) = 0#8) : streamBit (streamBytes n f) k d = false := by
  have hb : ∀ i, i < 4 → Memory.byte? (streamBytes n f) (bitBufAddr (k / 32) + i) = some 0#8 := by
    intro i hi
    rw [bitBufAddr, Nat.add_assoc, Memory.byte?, find_streamBytes _ _ _ (by omega), hf i hi]
  have h0 := hb 0 (by omega); have h1 := hb 1 (by omega); have h2 := hb 2 (by omega); have h3 := hb 3 (by omega)
  rw [Nat.add_zero] at h0
  simp only [streamBit, Memory.word?, h0, h1, h2, h3]
  simp [msbBit]

/-- A one-symbol tree with that BITBUF and BIT_LEN. -/
def oneLeaf (n : Nat) (f : Nat → Byte) (len : Nat) : State :=
  { State.reset with status := Status.reset.setTreeValid true, nsym := 1#9, nnodes := 1#9, mem := streamBytes n f
                     bitLen := BitVec.ofNat 32 len }

theorem oneLeaf_zero (n len k : Nat) (f : Nat → Byte) (hk : k < len) (h : 4 * (k / 32) + 4 ≤ n)
    (hf : ∀ i, i < 4 → f (4 * (k / 32) + i) = 0#8) : (streamOperand (oneLeaf n f len) len)[k]? = some false := by
  rw [List.getElem?_eq_getElem (by simpa using hk), streamOperand_getElem]
  exact congrArg some (streamBit_zero n k _ f h hf)

/-- The premises that the host's statements share: the host moves, and `op` is its next operation. -/
abbrev hostMoves (s : State) (op : HostOp) : Prop :=
  s.status.reservedErrCode = false ∧ nextTurn s = .host ∧ s.program = op :: []

/-! ### Witnesses: the host -/

/-- DecodeAndEncodeAgree: words of each row of the map, at the rows' ends. -/
theorem witness_DecodeAndEncodeAgree :
    ((4#32).extractLsb' 4 28 = 0#28 ∧ 4 ≤ ((4#32).extractLsb' 0 4).toNat) ∧
    ((15#32).extractLsb' 4 28 = 0#28 ∧ 4 ≤ ((15#32).extractLsb' 0 4).toNat) ∧
    (16#32).extractLsb' 4 28 ≠ 0#28 ∧ (0xFFFFFFFF#32).extractLsb' 4 28 ≠ 0#28 := by decide

theorem witness_ResetStateIsIdleWithoutTree :
    isTableByte 0x0400 = true ∧ isTableByte 0x0BFF = true ∧ isTableByte 0x1000 = true ∧ isTableByte 0x3FFF = true ∧
    isTableByte 0x03FF = false ∧ isTableByte 0x0C00 = false ∧ isTableByte 0x4000 = false := by decide

theorem witness_ResetStepResetsEverything :
    let s := { (withTree ab).issue 2#32 with turns := [.reset, .host] }
    s.status.reservedErrCode = false ∧ s.turns = .reset :: [.host] ∧ isTableByte 0x1000 = true ∧
      isBufferByte 0x4000 = true ∧ isBufferByte 0x8000 = true ∧ isBufferByte 0xCFFF = true := by decide +kernel

theorem witness_ReadChangesNoState :
    ∀ off ∈ [0x00C#16, 0x002#16, 0x8000#16, 0x1000#16],
      hostMoves (hosting [.rd off] ((withTree ab).issue 2#32)) (.rd off) := by
  exact forall_of_all (by decide +kernel)

/-- An offset that the running word does not hide is shown. -/
theorem shows_issue (s : State) {w : Word} {off : Offset} (h : ¬ hiddenWhileRunning w off) : (s.issue w).Shows off := by
  intro op w' he
  injection he with _ hw
  exact hw ▸ h

/-- ReadChangesNoState, the entries: each window's first and last entry while a command that does not hide it runs. -/
theorem witness_ReadChangesNoState_entries :
    (∀ off ∈ [0x0400#16, 0x07FC#16, 0x0800#16, 0x0BFC#16, 0x1000#16, 0x1FFC#16, 0x2000#16, 0x3FFC#16, 0x4000#16, 0x7FFC#16,
      0xC000#16, 0xCFFC#16], ((withTree ab).issue 3#32).Shows off) ∧
    (∀ off ∈ [0x8000#16, 0xBFFC#16], ((withTree ab).issue 2#32).Shows off) ∧
    (∀ a ∈ [symInAddr 0, symInAddr 4095, symOutAddr 0, symOutAddr 4095],
      Memory.symbol? (Memory.setByte [] a 0xFF#8) a = some 0xFF#8) ∧
    ∀ w ∈ [0, 1023], Memory.word? (Memory.setWord [] (bitBufAddr w) 0x80000001#32) (bitBufAddr w) = some 0x80000001#32 := by
  refine ⟨fun off h => shows_issue _ ?_, fun off h => shows_issue _ ?_, forall_of_all (by decide +kernel),
    forall_of_all (by decide +kernel)⟩
  · revert off
    unfold hiddenWhileRunning isTreeWindow isBitBufWindow isSymOutWindow
    exact forall_of_all (by decide +kernel)
  · revert off
    unfold hiddenWhileRunning isTreeWindow isBitBufWindow isSymOutWindow
    exact forall_of_all (by decide +kernel)

theorem witness_OnlyMisalignedTransactionsAreBusErrors :
    ∀ off ∈ [0x000#16, 0x001#16, 0x002#16, 0x003#16, 0xFFFC#16, 0xFFFF#16],
      hostMoves (hosting [.rd off] State.reset) (.rd off) ∧ hostMoves (hosting [.wr off 1#32] State.reset) (.wr off 1#32) := by
  exact forall_of_all (by decide +kernel)

theorem witness_OnlyMisalignedTransactionsAreBusErrors_clauses :
    (0x001#16).extractLsb' 0 2 ≠ 0#2 ∧ (0xFFFF#16).extractLsb' 0 2 ≠ 0#2 ∧ (0x000#16).extractLsb' 0 2 = 0#2 ∧
      (0xFFFC#16).extractLsb' 0 2 = 0#2 := by decide

theorem witness_WindowMapsEveryEntry :
    selectsBlock (busAddress 0x0000#16) = true ∧ selectsBlock (busAddress 0xFFFF#16) = true ∧
    isReservedOffset 0x0030#16 ∧ isReservedOffset 0x03FC#16 ∧ isReservedOffset 0x0C00#16 ∧ isReservedOffset 0x0FFC#16 ∧
    isReservedOffset 0xD000#16 ∧ isReservedOffset 0xFFFC#16 := by
  refine ⟨?_, ?_, ?_⟩
  · simp [selectsBlock, busAddress]
  · simp [selectsBlock, busAddress]
  · unfold isReservedOffset; decide

theorem witness_ReservedOffsetsReadZeroAndIgnoreWrites :
    ∀ off ∈ [0x0030#16, 0x03FC#16, 0x0C00#16, 0x0FFC#16, 0xD000#16, 0xFFFC#16],
      aligned off = true ∧ isReservedOffset off := by
  unfold isReservedOffset; exact forall_of_all (by decide +kernel)

theorem witness_ReadOnlyTargetsIgnoreWrites :
    ∀ off ∈ [0x0000#16, 0x0004#16, 0x001C#16, 0x002C#16, 0x0400#16, 0x0BFC#16, 0x1000#16, 0x3FFC#16, 0x8000#16, 0xBFFC#16],
      aligned off = true ∧ isReadOnlyOffset off := by
  unfold isReadOnlyOffset; exact forall_of_all (by decide +kernel)

/-- RunningCommandHidesItsWindows: each command at the ends of the windows it hides, and offsets that none hides. -/
theorem witness_RunningCommandHidesItsWindows :
    (∀ off ∈ [0x0400#16, 0x0BFC#16, 0x1000#16, 0x3FFC#16, 0xC000#16, 0xCFFC#16],
      aligned off = true ∧ hiddenWhileRunning 0x00000002#32 off) ∧
    (∀ off ∈ [0x8000#16, 0xBFFC#16], aligned off = true ∧ hiddenWhileRunning 0x00000003#32 off) ∧
    (∀ off ∈ [0x0400#16, 0x3FFC#16], aligned off = true ∧ hiddenWhileRunning 0x00000001#32 off) ∧
    (∀ off ∈ [0x0000#16, 0x002C#16, 0x4000#16, 0x7FFC#16, 0xC000#16],
      aligned off = true ∧ ¬ hiddenWhileRunning 0x00000003#32 off) ∧
    (∀ off ∈ [0x0400#16, 0x8000#16, 0xC000#16],
      aligned off = true ∧ ¬ hiddenWhileRunning 0x00000000#32 off ∧ ¬ hiddenWhileRunning 0x00000012#32 off) ∧
    (State.reset.issue 3#32).eng = .busy (cmdOp 3#32) 3#32 := by
  unfold hiddenWhileRunning isTreeWindow isBitBufWindow isSymOutWindow
  exact ⟨forall_of_all (by decide +kernel), forall_of_all (by decide +kernel), forall_of_all (by decide +kernel),
    forall_of_all (by decide +kernel), forall_of_all (by decide +kernel), rfl⟩

theorem witness_UnwrittenBufferEntriesReadFreshDraws :
    State.reset.eng = .idle ∧ State.reset.status.busy = false ∧
    Memory.symbol? State.reset.mem (symInAddr 0) = none ∧ Memory.symbol? State.reset.mem (symInAddr 4095) = none ∧
    Memory.symbol? State.reset.mem (symOutAddr 0) = none ∧ Memory.symbol? State.reset.mem (symOutAddr 4095) = none ∧
    Memory.word? State.reset.mem (bitBufAddr 0) = none ∧ Memory.word? State.reset.mem (bitBufAddr 1023) = none := by decide +kernel

/-- UnwrittenBufferEntriesReadFreshDraws, the written ones: the first and last entry, written by the host. -/
theorem witness_UnwrittenBufferEntriesReadFreshDraws_written :
    Memory.symbol? (hostWrite 0x4000#16 0x61#32 State.reset).mem (symInAddr 0) = some 0x61#8 ∧
    Memory.symbol? (hostWrite 0x7FFC#16 0xFF#32 State.reset).mem (symInAddr 4095) = some 0xFF#8 ∧
    Memory.word? (hostWrite 0xC000#16 0x40000000#32 State.reset).mem (bitBufAddr (31 / 32)) = some 0x40000000#32 ∧
    Memory.word? (hostWrite 0xCFFC#16 1#32 State.reset).mem (bitBufAddr (32767 / 32)) = some 1#32 := by decide +kernel

/-- The engine's reading of what the host wrote (20_memory.md R73 item 1; 30_encoding.md R94, R95). -/
theorem test_written_operands :
    symInOperand (hostWrite 0x4000#16 0xFFFFFF61#32 State.reset) 1 = [0x61#8] ∧
    streamOperand (hostWrite 0xC000#16 0x40000000#32 State.reset) 2 = [false, true] := by decide +kernel

theorem witness_BusyDropsInputWrites :
    (State.reset.issue 2#32).status.busy = true ∧
    ∀ off ∈ [0x0008#16, 0x0014#16, 0x0018#16, 0x4000#16, 0x7FFC#16, 0xC000#16, 0xCFFC#16],
      aligned off = true ∧ isInputOffset off := by
  unfold isInputOffset; exact ⟨rfl, forall_of_all (by decide +kernel)⟩

theorem witness_IdleInputWritesAreStored : State.reset.status.busy = false ∧ State.reset.eng = .idle := by decide

theorem witness_CmdWriteIssuesAnyWord :
    (withTree ab).status.busy = false ∧ ((withTree ab).issue 2#32).status.busy = true ∧
    4 ≤ ((0x00000004#32).extractLsb' 0 4).toNat ∧ (0x00000010#32).extractLsb' 4 28 ≠ 0#28 := ⟨rfl, rfl, by decide, by decide⟩

/-- Tree "ab", the host about to write w to CMD, then the engine's turn. -/
def issuing (w : Word) : State :=
  { withTree ab with turns := [.host, .engine, .reset], program := [.wr 0x008#16 w, .rd 0x00C#16] }

theorem witness_IllegalWordEndsInError :
    ∀ w ∈ [0x00000004#32, 0x0000000F#32, 0x00000010#32, 0x00000012#32, 0xFFFFFFFF#32],
      (issuing w).status.reservedErrCode = false ∧ (issuing w).status.busy = false ∧
        (issuing w).turns = .host :: .engine :: [.reset] ∧ (issuing w).program = .wr 0x008#16 w :: [.rd 0x00C#16] ∧
        (w.extractLsb' 4 28 ≠ 0#28 ∨ 4 ≤ (w.extractLsb' 0 4).toNat) := by
  exact forall_of_all (by decide +kernel)

/-! ### Witnesses: commands -/

theorem witness_StepRunsTheDecodedCommand :
    ∀ i ∈ [Instr.nop, .clear, .encode, .decode],
      (State.reset.withFetchWord 32 (encode i).toNat).status.reservedErrCode = false ∧
      nextTurn (State.reset.withFetchWord 32 (encode i).toNat) = .engine ∧
      (State.reset.withFetchWord 32 (encode i).toNat).eng = .busy (cmdOp (encode i)) (encode i) ∧
      decode (encode i) = .command i := by decide +kernel

/-- StepRunsTheDecodedCommand, illegal words at the ends of both rows, STATUS polled since the issue. -/
theorem witness_StepRunsTheDecodedCommand_illegal :
    ∀ w ∈ [0x00000004#32, 0x0000000F#32, 0x00000010#32, 0x80000003#32],
      let s := hostRead 0x00C#16 (State.reset.issue w)
      s.status.reservedErrCode = false ∧ nextTurn s = .engine ∧ s.eng = .busy (cmdOp w) w ∧
        (w.extractLsb' 4 28 ≠ 0#28 ∨ 4 ≤ (w.extractLsb' 0 4).toNat) := by
  exact forall_of_all (by decide +kernel)

theorem witness_EveryCommandCompletes :
    ((withTree ab).issue 3#32).status.done = false ∧ ((withTree ab).issue 3#32).status.err = false ∧
      ((withTree ab).issue 3#32).status.errCode = 0#4 := by decide +kernel

theorem witness_IrqFollowsCompletion :
    State.reset.status.busy = false ∧ (∃ t, runCommand 1#32 (State.reset.issue 1#32) = .next t) ∧
    (0x00000016#32).getLsbD 1 = true ∧ (0x00000016#32).getLsbD 2 = true ∧ (0xFFFFFFFE#32).getLsbD 0 = false ∧
    (State.reset.issue 2#32).status.busy = true ∧ aligned 0x4000#16 = true ∧ isInputOffset 0x4000#16 := by
  refine ⟨by decide, runCommand_answers_next _ _, ?_⟩
  unfold isInputOffset; decide

/-- EveryCommandIsEventuallyEnded: a host that moves three times before the engine, two of them without effect. -/
theorem witness_EveryCommandIsEventuallyEnded :
    let s := { State.reset.issue 2#32 with turns := [.host, .host, .host], program := [.rd 0x00C#16] }
    s.Inv ∧ s.eng ≠ .idle ∧ wordsOnly s.program = true := by
  refine ⟨?_, by decide, by decide⟩
  obtain ⟨h1, h2, h3, h4, h5, h6⟩ := inv_issued 2#32
  exact ⟨h1, h2, h3, h4, h5, h6⟩

theorem witness_NopOnlyCompletes : ∃ t, exec .nop (State.reset.issue 0x00000000#32) = .next t := ⟨_, rfl⟩

theorem witness_ClearDiscardsTheTree :
    State.reset.NoTree ∧ Memory.wf State.reset.mem ∧ isTableByte 0x3FFF = true ∧ isTableByte 0xC000 = false ∧
    (∀ n ∈ [1, 32768], ∃ t, exec .clear (withStream 0#32 n State.reset) = .next t ∧ 1 ≤ t.bitLen.toNat ∧
      t.bitLen.toNat ≤ 32768) := by
  refine ⟨State.noTree_of_empty rfl rfl rfl rfl rfl, Memory.wf_nil, by decide, by decide, fun n hn => ⟨_, rfl, ?_⟩⟩
  simp only [List.mem_cons, List.not_mem_nil, or_false] at hn
  rcases hn with rfl | rfl <;> decide

theorem witness_EncodeRefusesALongInput :
    4096 < ({ State.reset with symInLen := 4097#32 } : State).symInLen.toNat ∧
    4096 < ({ State.reset with symInLen := 0xFFFFFFFF#32 } : State).symInLen.toNat := by decide

/-- The premise that ENCODE's statements share: SYM_IN_LEN at most 4096, here 0, 4096 and an input written. -/
theorem witness_encode_lengths :
    State.reset.symInLen.toNat ≤ 4096 ∧ ({ State.reset with symInLen := 4096#32 } : State).symInLen.toNat ≤ 4096 ∧
    (loaded abcc).symInLen.toNat ≤ 4096 ∧ symInOperand (loaded abcc) 4 = symbols abcc := by decide

/-- EncodeWritesEveryNode: a leaf slot, an internal slot and an unused slot (V-E5). -/
theorem witness_EncodeWritesEveryNode :
    (buildTree (symbols abcc))[0]? = some ⟨.leaf 0x61#8, 1⟩ ∧ (buildTree (symbols abcc))[4]? = some ⟨.internal 2 3, 4⟩ ∧
      (buildTree (symbols abcc))[5]? = none := by decide +kernel

/-- MergeBuildsAFullTree: V-E5's internal slots are 3 and 4, its last non-root slot is 3. -/
theorem witness_MergeBuildsAFullTree :
    1 ≤ (symbols abcc).length ∧ (symbols abcc).toFinset.card = 3 ∧ 4 < (buildTree (symbols abcc)).length ∧
      3 + 1 < (buildTree (symbols abcc)).length := by decide +kernel

theorem witness_MergeTakesTheTwoLeastNodes :
    [LiveKey.mk 1 0, LiveKey.mk 1 1] ≠ [] ∧ 2 ≤ [LiveKey.mk 1 0, LiveKey.mk 1 1].length ∧
      [LiveKey.mk 1 0].length < 2 ∧ ([] : List LiveKey).length < 2 := by decide

/-- MergeTakesTheTwoLeastNodes, the tree: the symbols of V-E5's input, and those of the empty input. -/
theorem witness_MergeTakesTheTwoLeastNodes_tree :
    ([0x61#8, 0x62#8, 0x63#8].Pairwise (fun x y => x.toNat < y.toNat) ∧
      ∀ x, x ∈ [0x61#8, 0x62#8, 0x63#8] ↔ 1 ≤ (symbols abcc).count x) ∧
    (([] : List Symbol).Pairwise (fun x y => x.toNat < y.toNat) ∧ ∀ x : Symbol, x ∈ ([] : List Symbol) ↔ 1 ≤ [].count x) := by
  refine ⟨⟨by decide, by decide +kernel⟩, by decide, by simp⟩

/-- "abcc" merged by hand (41_encoder.md R144 to R146): a and b first, then the older leaf c before the new node. -/
theorem test_buildTree_abcc :
    buildTree (symbols abcc) =
      [⟨.leaf 0x61#8, 1⟩, ⟨.leaf 0x62#8, 1⟩, ⟨.leaf 0x63#8, 2⟩, ⟨.internal 0 1, 2⟩, ⟨.internal 2 3, 4⟩] := by decide +kernel

theorem witness_CodesAreRootToLeafPaths :
    2 ≤ (symbols ab).toFinset.card ∧ 0x61#8 ∈ symbols ab := by decide

theorem witness_SingleSymbolCodeIsZero : 0x61#8 ∈ symbols aaaa ∧ ∀ y ∈ symbols aaaa, y = 0x61#8 := by decide

theorem witness_EncodeWritesTheCodeTable : 0x61#8 ∈ symbols abcc ∧ 0x64#8 ∉ symbols abcc := by decide

theorem witness_SerializeConcatenatesTheCodes : 0x63#8 ∈ symbols abcc := by decide

/-- EncodePacksTheStream: V-E5's stream has 6 bits, so word 0 is written and word 1 is not. -/
theorem witness_EncodePacksTheStream :
    32 * 0 < (serialize (symInOperand (loaded abcc) 4)).length ∧
      (serialize (symInOperand (loaded abcc) 4)).length ≤ 32 * 1 := by decide +kernel

theorem witness_StreamFitsInBitbuf :
    (symbols aaaa).length ≤ 4096 ∧ (symbols aaaa).toFinset.card = 1 ∧ (List.replicate 4096 0#8).length ≤ 4096 := by
  refine ⟨by decide, by decide, by rw [List.length_replicate]⟩

theorem witness_CodesArePrefixFree : 0x61#8 ∈ symbols ab ∧ 0x62#8 ∈ symbols ab ∧ 0x61#8 ≠ 0x62#8 := by decide

theorem witness_CodeTableIsCompleteAndFull :
    0x63#8 ∈ symbols abcc ∧ 2 ≤ (symbols abcc).toFinset.card ∧ (symbols aaaa).toFinset.card = 1 := by decide

theorem witness_RarerSymbolsNeverGetShorterCodes :
    0x61#8 ∈ symbols abcc ∧ 0x63#8 ∈ symbols abcc ∧ (symbols abcc).count 0x61#8 < (symbols abcc).count 0x63#8 := by decide

/-- EncodeIsAFunctionOfItsInput: two states with one input and different trees, registers and BITBUF. -/
theorem witness_EncodeIsAFunctionOfItsInput :
    let s := loaded ab
    let s' := { loaded ab with nsym := 7#9, bitLen := 9#32, mem := (loaded ab).mem ++ [(0xC000, 1#8)] }
    s.symInLen.toNat ≤ 4096 ∧ s'.symInLen = s.symInLen ∧
      symInOperand s' s.symInLen.toNat = symInOperand s s.symInLen.toNat ∧
      32 * 0 < (serialize (symInOperand s s.symInLen.toNat)).length := by decide +kernel

theorem witness_DecodeRefusesALongStream : 32768 < (withStream 0#32 32769 (withTree ab)).bitLen.toNat := by decide +kernel

theorem witness_DecodeOfNothingSucceeds : State.reset.bitLen = 0#32 ∧ (withTree ab).bitLen ≠ 0#32 := by decide +kernel

theorem witness_DecodeWithoutTreeFails :
    (∀ n ∈ [1, 32768], 1 ≤ (withStream 0#32 n State.reset).bitLen.toNat ∧
      (withStream 0#32 n State.reset).bitLen.toNat ≤ 32768 ∧
      (withStream 0#32 n State.reset).status.treeValid = false) ∧ State.reset.symInLen = 0#32 := by decide +kernel

/-- The premises that the statements on tree walks share, at both ends of BIT_LEN's range. -/
theorem witness_walk_premises :
    (∀ n ∈ [1, 32768], 1 ≤ (withStream 0#32 n (withTree ab)).bitLen.toNat ∧
      (withStream 0#32 n (withTree ab)).bitLen.toNat ≤ 32768 ∧
      (withStream 0#32 n (withTree ab)).status.treeValid = true ∧ 2 ≤ (withStream 0#32 n (withTree ab)).nsym.toNat) ∧
    (∀ n ∈ [1, 32768], 1 ≤ (withStream 0#32 n (withTree aaaa)).bitLen.toNat ∧
      (withStream 0#32 n (withTree aaaa)).bitLen.toNat ≤ 32768 ∧
      (withStream 0#32 n (withTree aaaa)).status.treeValid = true ∧
      (withStream 0#32 n (withTree aaaa)).nsym.toNat < 2) := by decide +kernel

/-- SingleSymbolDecode: a 1 bit first (V-D15), and one after 4096 zeros (V-D18). -/
theorem witness_SingleSymbolDecode_badBits :
    (let s := oneLeaf 4 (fun i => if i = 3 then 0x80#8 else 0#8) 1
     1 ≤ s.bitLen.toNat ∧ s.bitLen.toNat ≤ 32768 ∧ s.status.treeValid = true ∧ s.nsym.toNat < 2 ∧
       (streamOperand s 1)[0]? = some true) ∧
    (let f := fun i => if i = 515 then 0x80#8 else 0#8
     let s := oneLeaf 516 f 4097
     1 ≤ s.bitLen.toNat ∧ s.bitLen.toNat ≤ 32768 ∧ s.status.treeValid = true ∧ s.nsym.toNat < 2 ∧
       (streamOperand s 4097)[4096]? = some true ∧ ∀ j, j < 4096 → (streamOperand s 4097)[j]? = some false) := by
  refine ⟨by decide +kernel, by decide, by decide, by decide, by decide, ?_, fun j hj => ?_⟩
  · rw [List.getElem?_eq_getElem (by simp), streamOperand_getElem]
    have h : ∀ i, i < 4 → Memory.byte? (streamBytes 516 fun i => if i = 515 then 0x80#8 else 0#8)
        (bitBufAddr 128 + i) = some (if i = 3 then 0x80#8 else 0#8) := by
      intro i hi
      rw [bitBufAddr, Nat.add_assoc, Memory.byte?, find_streamBytes _ _ _ (by omega)]
      simp only [Option.some.injEq]
      by_cases h3 : i = 3
      · rw [if_pos h3, if_pos (by omega)]
      · rw [if_neg h3, if_neg (by omega)]
    have h0 := h 0 (by omega); have h1 := h 1 (by omega); have h2 := h 2 (by omega); have h3 := h 3 (by omega)
    rw [Nat.add_zero] at h0
    simp only [oneLeaf, streamBit, Memory.word?, show 4096 / 32 = 128 from rfl, h0, h1, h2, h3]
    decide
  · refine oneLeaf_zero 516 4097 j _ (by omega) (by omega) fun i hi => if_neg (by omega)

/-- SingleSymbolDecode: 4096 zeros succeed (V-D16), one zero succeeds, a 4097th overflows (V-D17). -/
theorem witness_SingleSymbolDecode_zeros :
    (∀ len ∈ [1, 4096], (oneLeaf 516 (fun _ => 0#8) len).bitLen.toNat = len ∧
      ∀ j, j < len → (streamOperand (oneLeaf 516 (fun _ => 0#8) len) len)[j]? = some false) ∧
    (let s := oneLeaf 516 (fun _ => 0#8) 4097
     4097 ≤ s.bitLen.toNat ∧ ∀ j, j < 4097 → (streamOperand s 4097)[j]? = some false) := by
  refine ⟨fun len hlen => ?_, by decide, fun j hj => oneLeaf_zero 516 4097 j _ hj (by omega) fun _ _ => rfl⟩
  simp only [List.mem_cons, List.not_mem_nil, or_false] at hlen
  refine ⟨?_, fun j hj => oneLeaf_zero 516 len j _ hj (by omega) fun _ _ => rfl⟩
  rcases hlen with rfl | rfl <;> decide

theorem witness_DecodeKeepsWhatItWrote :
    32768 < (withStream 0#32 32769 State.reset).bitLen.toNat ∧
    (let s := withStream 0#32 1 State.reset
     1 ≤ s.bitLen.toNat ∧ s.status.treeValid = false) ∧ State.reset.bitLen = 0#32 ∧
    (decodeWalk (withTree ab) (streamOperand (withTree ab) 2)).out.length = 2 := by decide +kernel

/-- DecodeLeavesTheTreeAlone: a stream whose words are all written, and addresses on both sides of SYM_OUT. -/
theorem witness_DecodeLeavesTheTreeAlone :
    (withTree ab).bitLen.toNat = 2 ∧ (∀ w, 32 * w < 2 → (Memory.word? (withTree ab).mem (bitBufAddr w)).isSome = true) ∧
      (0x7FFF < 0x8000 ∨ 0xC000 ≤ 0x7FFF) ∧ (0xC000 < 0x8000 ∨ 0xC000 ≤ 0xC000) := by
  refine ⟨by decide +kernel, fun w hw => ?_, by decide⟩
  obtain rfl : w = 0 := by omega
  decide +kernel

/-- DecodeReadsCodesBack, whole codes: tree and stream of V-E5. -/
theorem witness_DecodeReadsCodesBack_whole :
    (withTree abcc).HoldsTreeOf (symbols abcc) ∧ 2 ≤ (symbols abcc).toFinset.card ∧ (symbols abcc).length ≤ 4096 ∧
    1 ≤ (withTree abcc).bitLen.toNat ∧ (withTree abcc).bitLen.toNat ≤ 32768 ∧
    streamOperand (withTree abcc) (withTree abcc).bitLen.toNat =
      (symbols abcc).flatMap (codeOf (genCodes (symbols abcc))) ++ [] :=
  ⟨holdsTree_withTree (by decide) (by decide) (by decide +kernel), by decide, by decide, by decide +kernel,
    by decide +kernel, by decide +kernel⟩

/-- DecodeReadsCodesBack, a part of a code at the end: V-D6, "b" and then the first bit of "a"'s code. -/
theorem witness_DecodeReadsCodesBack_part :
    let s := withStream 0xE0000000#32 3 (withTree abcc)
    s.HoldsTreeOf (symbols abcc) ∧ 2 ≤ (symbols abcc).toFinset.card ∧ (∀ x ∈ [0x62#8], x ∈ symbols abcc) ∧
    1 ≤ s.bitLen.toNat ∧ s.bitLen.toNat ≤ 32768 ∧ 0x61#8 ∈ symbols abcc ∧
    [true] <+: codeOf (genCodes (symbols abcc)) 0x61#8 ∧ [true] ≠ codeOf (genCodes (symbols abcc)) 0x61#8 ∧
    streamOperand s s.bitLen.toNat = [0x62#8].flatMap (codeOf (genCodes (symbols abcc))) ++ [true] :=
  ⟨holdsTree_withStream _ _ (holdsTree_withTree (by decide) (by decide) (by decide +kernel)), by decide, by decide,
    by decide, by decide, by decide, by decide +kernel, by decide +kernel, by decide +kernel⟩

/-- A state with `words` BITBUF words of zeros and BIT_LEN = len. -/
def zeroStream (words len : Nat) (s : State) : State :=
  { s with mem := Memory.setWords s.mem ((List.range words).map fun w => (bitBufAddr w, 0#32)), bitLen := BitVec.ofNat 32 len }

theorem holdsTree_zeroStream {s : State} {input : List Symbol} (words len : Nat) (h : s.HoldsTreeOf input) :
    (zeroStream words len s).HoldsTreeOf input :=
  h.of_sameTree ⟨rfl, rfl, rfl, rfl, fun a ha => Memory.byte?_setWords_other _ _ _ (by
    have := (isTableByte_iff a).1 ha
    simp only [List.mem_map, List.mem_range, forall_exists_index, and_imp]
    rintro _ w _ rfl
    simp only [bitBufAddr]; omega)⟩

theorem streamOperand_zeroStream {words len : Nat} (s : State) (hw : words ≤ 1024) (hl : len ≤ 32 * words) :
    streamOperand (zeroStream words len s) len = List.replicate len false := by
  refine List.ext_getElem (by simp) fun k hk _ => ?_
  have hk : k < len := by simpa using hk
  have hd : ((List.range words).map fun w => (bitBufAddr w, 0#32)).Pairwise
      fun w w' => w.1 + 4 ≤ w'.1 ∨ w'.1 + 4 ≤ w.1 := by
    rw [List.pairwise_map]
    exact List.pairwise_lt_range.imp fun h => by simp only [bitBufAddr]; omega
  have hs : wordStorage (bitBufAddr (k / 32)) := by
    simp only [wordStorage, hasStorage_iff, bitBufAddr]; omega
  have := Memory.word?_setWords_mem s.mem _ hd (List.mem_map.2 ⟨k / 32, List.mem_range.2 (by omega), rfl⟩) hs
  rw [streamOperand_getElem, List.getElem_replicate]
  simp only [zeroStream, streamBit, this]
  simp [msbBit]

/-- DecodeReadsCodesBack, one code too many: 4097 times the code "0" of "a", and one bit more. -/
theorem witness_DecodeReadsCodesBack_overflow :
    let s := zeroStream 129 4098 (withTree ab)
    s.HoldsTreeOf (symbols ab) ∧ 2 ≤ (symbols ab).toFinset.card ∧
    (∀ x ∈ List.replicate 4096 0x61#8, x ∈ symbols ab) ∧ (List.replicate 4096 0x61#8).length = 4096 ∧
    0x61#8 ∈ symbols ab ∧ s.bitLen.toNat ≤ 32768 ∧
    streamOperand s s.bitLen.toNat = (List.replicate 4096 0x61#8).flatMap (codeOf (genCodes (symbols ab))) ++
      codeOf (genCodes (symbols ab)) 0x61#8 ++ [false] := by
  refine ⟨holdsTree_zeroStream _ _ (holdsTree_withTree (by decide) (by decide) (by decide +kernel)), by decide, fun x hx => ?_,
    List.length_replicate, by decide, by decide, ?_⟩
  · rw [List.eq_of_mem_replicate hx]; decide
  · have hc : codeOf (genCodes (symbols ab)) 0x61#8 = [false] := by decide +kernel
    have hf : ∀ n, (List.replicate n 0x61#8).flatMap (codeOf (genCodes (symbols ab))) = List.replicate n false := by
      intro n
      induction n with
      | zero => rfl
      | succ n ih => rw [List.replicate_succ, List.flatMap_cons, ih, hc]; rfl
    rw [show (zeroStream 129 4098 (withTree ab)).bitLen.toNat = 4098 from rfl,
      streamOperand_zeroStream _ (by decide) (by decide), hf, hc, List.replicate_succ', List.replicate_succ']

/-- RoundTrip: a DECODE issued right after the ENCODE of "abcc" completes. -/
theorem witness_RoundTrip :
    (loaded abcc).symInLen.toNat ≤ 4096 ∧ ∃ t, exec .encode (loaded abcc) = .next t ∧ t.SameTree (t.issue 3#32) ∧
      (t.issue 3#32).bitLen = t.bitLen ∧
      ∀ a, 0xC000 ≤ a → a < 0xD000 → Memory.byte? (t.issue 3#32).mem a = Memory.byte? t.mem a :=
  ⟨by decide, _, exec_encode_ok (by decide), sameTree_issue _ _, State.issue_bitLen _ _,
    fun _ _ _ => by rw [State.issue_mem]⟩

/-! ### Witnesses: the whole machine -/

/-- EveryStepKeepsTheInvariant and EngineIsBusyFromIssueToCompletion: a DECODE over tree "ab" completes. -/
theorem witness_EveryStepKeepsTheInvariant :
    ((withTree ab).issue 3#32).Inv ∧ ∃ t, step ((withTree ab).issue 3#32) = .next t ∧ t.eng = .idle := by
  refine ⟨inv_withTree, ?_⟩
  obtain ⟨t, ht, hp⟩ := next_of_after (o := step ((withTree ab).issue 3#32)) (p := fun t => t.eng == .idle)
    (by decide +kernel)
  exact ⟨t, ht, by simpa using hp⟩

/-- EngineIsBusyFromIssueToCompletion: an issue, and a host step while a command runs. -/
theorem witness_EngineIsBusyFromIssueToCompletion :
    (let s := hosting [.wr 0x008#16 2#32] State.reset
     s.Inv ∧ s.eng = .idle ∧ ∃ t, step s = .next t ∧ t.eng = .busy 2#4 2#32) ∧
    (let s := hosting [.rd 0x00C#16] (State.reset.issue 2#32)
     s.Inv ∧ s.eng = .busy 2#4 2#32 ∧ ∃ t, step s = .next t ∧ t.eng = .busy 2#4 2#32) := by
  refine ⟨⟨?_, rfl, _, rfl, rfl⟩, ?_, rfl, _, rfl, rfl⟩
  · exact ⟨⟨by decide, by decide, by decide, by decide⟩, rfl, Memory.wf_nil, Memory.bitBufWhole_nil, by decide,
      .inl (State.noTree_of_empty rfl rfl rfl rfl rfl)⟩
  · obtain ⟨h1, h2, h3, h4, h5, h6⟩ := inv_issued 2#32
    exact ⟨h1, h2, h3, h4, h5, h6⟩

/-- OnlyEncodeClearAndResetChangeTheTree: an ENCODE of "ab" after reset changes it. -/
theorem witness_OnlyEncodeClearAndResetChangeTheTree :
    let s := (loaded ab).issue 2#32
    ∃ t, step s = .next t ∧ ¬ s.SameTree t := by
  obtain ⟨t, ht, hp⟩ := next_of_after (o := step ((loaded ab).issue 2#32)) (p := fun t => t.status.treeValid)
    (by decide +kernel)
  refine ⟨t, ht, fun h => ?_⟩
  have := h.1
  rw [hp] at this
  cases this

theorem witness_HostStepsChangeNoResult :
    let s := hosting [.wr 0x00C#16 0xFFFFFFFF#32] (withTree ab)
    nextTurn s = .host ∧ ∃ t, step s = .next t := ⟨by decide, _, rfl⟩

theorem witness_ReservedErrorCodesFault :
    (∀ c ∈ [7#4, 15#4], 7 ≤ ({ State.reset with status := { Status.reset with errCode := c } } : State).status.errCode.toNat) ∧
      (State.reset.issue 0#32).Inv := ⟨by decide, inv_issued _⟩

theorem witness_NonWordTransfersAreRefused :
    ∀ kind ∈ [NonWord.byte, .halfWord, .burst, .byteEnables],
      hostMoves (hosting [.nonWord kind 0x4000#16] State.reset) (.nonWord kind 0x4000#16) := by decide +kernel

/-- HostNotationMeansItsTransactions: WAIT's POLL on an idle and on a busy block. -/
theorem witness_HostNotationMeansItsTransactions :
    ∀ s0 ∈ [State.reset, State.reset.issue 2#32],
      hostMoves (hosting [.poll 0x00C#16 1#32 0#32] s0) (.poll 0x00C#16 1#32 0#32) := by decide +kernel

theorem witness_HostNotationMeansItsTransactions_clauses :
    readData State.reset 0x00C#16 &&& 1#32 = 0#32 ∧ readData (State.reset.issue 2#32) 0x00C#16 &&& 1#32 ≠ 0#32 := by
  decide

end Sys2Proof.Tests
end

section
/-! SUPPORT. The registers as a host reads them, and the engine's sequencing over a step (10_state.md R21 to R28). -/

namespace Sys2Proof.Machine

/-! ### Registers -/

/-- No command writes a register (70_reset_and_hazards.md R241). -/
theorem mayWrite_registerAt (i : Instr) (a : Nat) : Instr.mayWrite i (registerAt a) = false := by
  have outsideWindows : ∀ t ∈ [Target.id, .param, .status, .ctrl, .symInLen, .bitLen, .symOutLen, .nsym, .root, .nnodes,
      .errInfo, .reserved], Instr.mayWrite i t = false := by cases i <;> decide
  rcases registerAt_cases a with h | ⟨_, h⟩
  · exact outsideWindows _ h
  · rw [h]; cases i <;> rfl

/-- A register reads what is stored, whatever command runs. -/
theorem readData_register (s : State) {off : Offset} (ha : aligned off = true) (hlt : off.toNat < 0x400) :
    readData s off = (storedReading s (registerAt off.toNat)).word s.draws := by
  rw [readData_of_target ha (if_pos hlt), readingAt_of_mayWrite fun i => mayWrite_registerAt i _]

theorem readData_ctrl (s : State) : readData s 0x010#16 = if s.ie then 1#32 else 0#32 := by
  have h : readData s 0x010#16 = 0#31 ++ BitVec.ofBool s.ie := readData_register s (by decide) (by decide)
  rw [h]; cases s.ie <;> rfl

/-- CTRL is no command input, so BUSY does not drop a write to it (20_memory.md R68). -/
theorem hostWrite_ctrl (v : Word) (s : State) :
    hostWrite 0x010#16 v s = { s with ie := v.getLsbD 0, rsp := some (.write false) } := by
  have ht : target 0x010#16 = .ctrl := by decide
  rw [hostWrite_aligned (by decide), ht]; rfl

/-- Settles O6: no command hides a register, so each reads as stored. -/
theorem registersReadAtTheirOffsets : Obligations.RegistersReadAtTheirOffsets := by
  intro s
  have reads {off : Offset} := readData_register s (off := off)
  refine ⟨reads ?_ ?_, reads ?_ ?_, reads ?_ ?_, reads ?_ ?_, readData_ctrl s, reads ?_ ?_, reads ?_ ?_, reads ?_ ?_,
    reads ?_ ?_, reads ?_ ?_, reads ?_ ?_, reads ?_ ?_⟩ <;> decide

/-- Settles O18: the write by `hostWrite_ctrl`, the read by `readData_ctrl`. -/
theorem ctrlHoldsTheInterruptEnable : Obligations.CtrlHoldsTheInterruptEnable := by
  refine ⟨fun s v => ⟨hostWrite_ctrl v s, ?_, ?_⟩, by rw [readData_ctrl]; rfl⟩
  all_goals rw [readData_ctrl]; cases s.ie <;> decide

/-! ### The engine's sequencing -/

/-- Two states agree on ENG and on what STATUS says of it, BUSY and LAST_OP. -/
def State.SameEng (s t : State) : Prop :=
  t.eng = s.eng ∧ t.status.busy = s.status.busy ∧ t.status.lastOp = s.status.lastOp

/-- ENG is busy with the word w, and STATUS says so (40_commands.md R120). -/
def State.Running (w : Word) (s : State) : Prop :=
  s.eng = .busy (cmdOp w) w ∧ s.status.busy = true ∧ s.status.lastOp = cmdOp w

/-- ENG is idle, and STATUS says so. -/
def State.Stopped (s : State) : Prop := s.eng = .idle ∧ s.status.busy = false

theorem State.SameEng.refl (s : State) : s.SameEng s := ⟨rfl, rfl, rfl⟩

theorem State.running_issue (w : Word) (s : State) : (s.issue w).Running w := ⟨rfl, rfl, rfl⟩

theorem State.stopped_succeed (s : State) : s.succeed.Stopped := ⟨rfl, rfl⟩

theorem State.stopped_raise (e : ErrorKind) (info : Word) (s : State) : (s.raise e info).Stopped := ⟨rfl, rfl⟩

theorem State.stopped_endWalk (x : WalkEnd) (s : State) : (s.endWalk x).Stopped := by cases x <;> exact ⟨rfl, rfl⟩

theorem State.stopped_resetStep (s : State) : s.resetStep.Stopped := ⟨rfl, rfl⟩

/-- The engine's part of the invariant says that ENG is idle or runs one word. -/
theorem State.engOk_iff (s : State) : s.EngOk ↔ s.Stopped ∨ ∃ w, s.Running w := by
  unfold State.EngOk State.Stopped State.Running
  cases s.eng with
  | idle => simp
  | busy op w =>
    constructor
    · rintro ⟨hbusy, rfl, hlast⟩; exact .inr ⟨w, rfl, hbusy, hlast⟩
    · rintro (⟨hidle, _⟩ | ⟨w', heng, hbusy, hlast⟩)
      · cases hidle
      · cases heng; exact ⟨hbusy, rfl, hlast⟩

theorem State.EngOk.of_sameEng {s t : State} (h : s.EngOk) (hs : s.SameEng t) : t.EngOk := by
  obtain ⟨heng, hbusy, hlast⟩ := hs
  unfold State.EngOk at h ⊢
  rwa [heng, hbusy, hlast]

/-- 10_state.md R21: ENG is busy exactly when STATUS.BUSY = 1. -/
theorem State.EngOk.busy_iff {s : State} (h : s.EngOk) : s.status.busy = true ↔ ∃ op w, s.eng = .busy op w := by
  rcases s.engOk_iff.1 h with ⟨heng, hbusy⟩ | ⟨w, heng, hbusy, _⟩ <;> simp [heng, hbusy]

/-- Every command's completion leaves the engine idle (40_commands.md R121; 60_exceptions.md R201). -/
theorem exec_stopped {i : Instr} {s t : State} (h : exec i s = .next t) : t.Stopped := by
  cases i with
  | nop => cases h; exact State.stopped_succeed _
  | clear => cases h; exact State.stopped_succeed _
  | encode =>
    rcases Nat.lt_or_ge 4096 s.symInLen.toNat with hlen | hlen
    · rw [exec_encode_tooLong hlen] at h; cases h; exact State.stopped_raise ..
    · rw [exec_encode_ok hlen] at h; cases h; exact State.stopped_succeed _
  | decode =>
    rcases exec_decode_cases s with ⟨_, he⟩ | ⟨_, he⟩ | ⟨_, _, _, he⟩ | ⟨_, _, _, he⟩ <;> rw [he] at h <;> cases h
    · exact State.stopped_raise ..
    · exact State.stopped_succeed _
    · exact State.stopped_raise ..
    · exact State.stopped_endWalk ..

/-- So does every word's, legal or not (40_commands.md R125). -/
theorem runCommand_stopped {w : Word} {s t : State} (h : runCommand w s = .next t) : t.Stopped := by
  cases hd : decode w with
  | command i => rw [runCommand_command hd] at h; exact exec_stopped h
  | illegal x => rw [runCommand_illegal hd] at h; cases h; exact State.stopped_raise ..

theorem hostRead_sameEng (off : Offset) (s : State) : s.SameEng (hostRead off s) := by
  rw [hostRead_eq]; exact State.SameEng.refl s

/-- A write leaves the engine alone, but for the write of CMD that an idle block accepts. -/
theorem hostWrite_eng_cases (off : Offset) (v : Word) (s : State) :
    s.SameEng (hostWrite off v s) ∨ (s.status.busy = false ∧ off = 0x008#16 ∧ (hostWrite off v s).Running v) := by
  rcases hostWrite_cases off v s with ⟨_, h⟩ | ⟨_, h⟩ | ⟨hbusy, ht, h⟩ | ⟨_, h⟩ | ⟨_, h⟩ | ⟨_, _, h⟩ | ⟨_, _, h⟩ |
    ⟨_, _, _, h⟩ | ⟨_, _, _, h⟩ | h <;> rw [h]
  case inr.inr.inl => exact .inr ⟨hbusy, target_eq_cmd ht, State.running_issue v s⟩
  all_goals exact .inl ⟨rfl, rfl, rfl⟩

/-- A host step leaves the engine alone, but for the write that issues a command. -/
theorem hostStep_eng_cases {s t : State} (h : hostStep s = .next t) :
    s.SameEng t ∨ (s.status.busy = false ∧ ∃ w rest, s.program = .wr 0x008#16 w :: rest ∧ t.Running w) := by
  rcases hostStep_cases h with ⟨_, rfl⟩ | ⟨off, rest, _, rfl⟩ | ⟨off, v, rest, hp, rfl⟩ |
    ⟨off, mask, val, rest, _, rfl | rfl⟩
  · exact .inl (.refl _)
  · exact .inl (hostRead_sameEng off _)
  · rcases hostWrite_eng_cases off v { s with program := rest } with hs | ⟨hbusy, rfl, hrun⟩
    · exact .inl hs
    · exact .inr ⟨hbusy, v, rest, hp, hrun⟩
  · exact .inl (hostRead_sameEng off _)
  · exact .inl (hostRead_sameEng off _)

/-- All that a step can do to the engine: nothing, a host's issue, or an end by the engine or by Reset. -/
theorem step_eng_cases {s t : State} (h : step s = .next t) :
    s.SameEng t ∨
    (nextTurn s = .host ∧ s.status.busy = false ∧ ∃ w rest, s.program = .wr 0x008#16 w :: rest ∧ t.Running w) ∨
    ((nextTurn s = .engine ∨ nextTurn s = .reset) ∧ t.Stopped) := by
  obtain ⟨_, ⟨hturn, h⟩ | ⟨hturn, h⟩ | ⟨hturn, rfl⟩⟩ := step_next_cases h
  · exact (hostStep_eng_cases h).imp_right fun issued => .inl ⟨hturn, issued⟩
  · rcases engineStep_cases h with ⟨_, rfl⟩ | ⟨_, _, _, hrun⟩
    · exact .inl (.refl s)
    · exact .inr (.inr ⟨.inl hturn, runCommand_stopped hrun⟩)
  · exact .inr (.inr ⟨.inr hturn, State.stopped_resetStep _⟩)

/-- Every step keeps the engine's part of the invariant. -/
theorem step_keeps_engOk {s t : State} (hs : s.EngOk) (h : step s = .next t) : t.EngOk := by
  rcases step_eng_cases h with same | ⟨_, _, w, _, _, hrun⟩ | ⟨_, hstop⟩
  · exact hs.of_sameEng same
  · exact t.engOk_iff.2 (.inr ⟨w, hrun⟩)
  · exact t.engOk_iff.2 (.inl hstop)

/-- Settles O56, by the three things a step can do to the engine. -/
theorem engineIsBusyFromIssueToCompletion : Obligations.EngineIsBusyFromIssueToCompletion := by
  intro s t ⟨_, hok, _⟩ h
  refine ⟨(step_keeps_engOk hok h).busy_iff, ?_⟩
  rcases step_eng_cases h with ⟨same, _⟩ | ⟨hturn, hbusy, v, rest, hp, hrun, _⟩ | ⟨hturn, hstop, _⟩
  case inl => simp +contextual [same]
  case inr.inl =>
    have hidle : ∀ op w, s.eng ≠ .busy op w := by
      intro op w he
      have := hok.busy_iff.2 ⟨op, w, he⟩
      simp [hbusy] at this
    refine ⟨fun op w _ ht => ?_, fun op w he => absurd he (hidle op w), fun op w _ _ he => absurd he (hidle op w)⟩
    obtain ⟨rfl, rfl⟩ := Eng.busy.inj (hrun.symm.trans ht)
    exact ⟨hturn, rfl, rest, hp⟩
  case inr.inr => simp [hstop, hturn]

end Sys2Proof.Machine
end

section
/-! SUPPORT. The offsets at which a write is ignored: reserved (20_memory.md R64) and read-only (R65). -/

namespace Sys2Proof.Machine

/-! ### The reserved offsets -/

/-- The reserved ranges of 20_memory.md R63. -/
theorem target_reserved {off : Offset} (h : isReservedOffset off) : target off = .reserved := by
  rcases h with ⟨hlo, hhi⟩ | ⟨hlo, hhi⟩ | hlo
  · simp only [target, if_pos hhi, registerAt_reserved hlo]
  · simp (disch := omega) only [target, if_neg, if_pos]
  · simp (disch := omega) only [target, if_neg]

theorem readingAt_reserved (s : State) : readingAt s .reserved = .value 0#32 :=
  readingAt_of_mayWrite fun i => by cases i <;> rfl

theorem hostRead_reserved {off : Offset} (ha : aligned off = true) (ht : target off = .reserved) (s : State) :
    hostRead off s = { s with rsp := some (.read 0#32 false) } := by
  rw [hostRead_aligned ha, readData_of_target ha ht, ht, readingAt_reserved]; rfl

/-! ### Ignored writes -/

/-- The targets that neither take nor refuse a write: reserved and read-only (20_memory.md R64, R65). -/
def Target.ignoresWrites : Target → Bool
  | .cmd | .status | .ctrl | .symInLen | .bitLen | .symIn _ | .bitBuf _ => false
  | _ => true

/-- Such a target is no command input, so BUSY_WR is not set even while BUSY = 1 (20_memory.md R65, R68). -/
theorem writeTarget_of_ignoresWrites {t : Target} (h : t.ignoresWrites = true) (v : Word) (s : State) :
    writeTarget t v s = s := by
  cases t with
  | cmd | status | ctrl | symInLen | bitLen | symIn | bitBuf => cases h
  | _ => rfl

theorem hostWrite_of_ignoresWrites {off : Offset} (ha : aligned off = true) (h : (target off).ignoresWrites = true)
    (v : Word) (s : State) : hostWrite off v s = { s with rsp := some (.write false) } := by
  rw [hostWrite_aligned ha, writeTarget_of_ignoresWrites h]

/-- The registers that take a write lie at 0x008 to 0x018 (10_state.md R22). -/
theorem registerAt_ignoresWrites {a : Nat} (h : a < 0x008 ∨ 0x01C ≤ a) : (registerAt a).ignoresWrites = true := by
  have hne : a ≠ 0x008 ∧ a ≠ 0x00C ∧ a ≠ 0x010 ∧ a ≠ 0x014 ∧ a ≠ 0x018 := by omega
  simp only [registerAt, hne, if_false]
  split_ifs <;> rfl

theorem nodeWordAt_ignoresWrites (d : Nat) : (nodeWordAt d).ignoresWrites = true := by
  unfold nodeWordAt; split <;> rfl

/-- What a read-only offset names takes no write, range by range of 20_memory.md R63. -/
theorem target_ignoresWrites {off : Offset} (h : isReadOnlyOffset off) : (target off).ignoresWrites = true := by
  rcases h with hreg | ⟨hlo, hhi⟩ | ⟨hlo, hhi⟩ | ⟨hlo, hhi⟩ | ⟨hlo, hhi⟩
  · rw [target, if_pos (by omega)]; exact registerAt_ignoresWrites (.inl hreg)
  · rw [target, if_pos (by omega)]; exact registerAt_ignoresWrites (.inr hlo)
  · rcases Nat.lt_or_ge off.toNat 0x0800 with hfreq | hcodeLen <;>
      simp (disch := omega) only [target, if_neg, if_pos, Target.ignoresWrites]
  · rcases Nat.lt_or_ge off.toNat 0x2000 with hnode | hcodeBits
    · simp (disch := omega) only [target, if_neg, if_pos, nodeWordAt_ignoresWrites]
    · simp (disch := omega) only [target, if_neg, if_pos, Target.ignoresWrites]
  · simp (disch := omega) only [target, if_neg, if_pos, Target.ignoresWrites]

/-- Settles O11, by `target_reserved`: a reserved offset names nothing that holds a value or takes a write. -/
theorem reservedOffsetsReadZeroAndIgnoreWrites : Obligations.ReservedOffsetsReadZeroAndIgnoreWrites := by
  intro s off v ha hoff
  have ht := target_reserved hoff
  exact ⟨hostRead_reserved ha ht s, hostWrite_of_ignoresWrites ha (by rw [ht]; rfl) v s⟩

/-- Settles O12, by `target_ignoresWrites`: no read-only offset names a command input or a writable register. -/
theorem readOnlyTargetsIgnoreWrites : Obligations.ReadOnlyTargetsIgnoreWrites :=
  fun s _ v ha hoff => hostWrite_of_ignoresWrites ha (target_ignoresWrites hoff) v s

end Sys2Proof.Machine
end

section
/-! SUPPORT. The opcode map as three rows that exclude each other: a command's word, a reserved opcode, nonzero MBZ
(30_encoding.md R91, R92). -/

namespace Sys2Proof

/-! ### The rows -/

theorem legalWord (i : Instr) : Laws.LegalWord.Statement i := by
  cases i
  exacts [Laws.LegalWord.nop, Laws.LegalWord.clear, Laws.LegalWord.encode, Laws.LegalWord.decode]

/-- Every OP below 4 is a command's. -/
theorem exists_opcode_eq : ∀ op : BitVec 4, op.toNat < 4 →
    ∃ i ∈ [Instr.nop, .clear, .encode, .decode], op = i.opcode := by decide

/-- A word with MBZ zero is fixed by its OP. -/
theorem eq_encode_of_fields {w : Word} {i : Instr} (hmbz : cmdMbz w = 0#28) (hop : cmdOp w = i.opcode) :
    w = encode i := by
  rw [cmdWord_fields w, hmbz, hop]; rfl

/-- "Every 32-bit word selects exactly one row" (30_encoding.md R92), on the word's fields. -/
theorem cmdWord_cases (w : Word) :
    (∃ i, w = encode i) ∨ (cmdMbz w = 0#28 ∧ 4 ≤ (cmdOp w).toNat) ∨ cmdMbz w ≠ 0#28 := by
  by_cases hmbz : cmdMbz w = 0#28
  · rcases Nat.lt_or_ge (cmdOp w).toNat 4 with hlt | hge
    · obtain ⟨i, _, hop⟩ := exists_opcode_eq (cmdOp w) hlt
      exact .inl ⟨i, eq_encode_of_fields hmbz hop⟩
    · exact .inr (.inl ⟨hmbz, hge⟩)
  · exact .inr (.inr hmbz)

/-! ### What each row decodes to -/

@[simp] theorem decode_encode (i : Instr) : decode (encode i) = .command i := by
  rw [decode_of_op (cmdMbz_encode i), cmdOp_encode]
  cases i <;> rfl

theorem decode_of_reservedOp {w : Word} (hmbz : cmdMbz w = 0#28) (hop : 4 ≤ (cmdOp w).toNat) :
    decode w = .illegal .reservedOpcode := by
  rw [decode_of_op hmbz]
  split
  case h_5 => rfl
  all_goals omega

/-- All that the decoder can answer, with the row of 30_encoding.md R92 that the word selects. -/
theorem decode_cases (w : Word) :
    (∃ i, w = encode i ∧ decode w = .command i) ∨
    ((cmdMbz w = 0#28 ∧ 4 ≤ (cmdOp w).toNat) ∧ decode w = .illegal .reservedOpcode) ∨
    (cmdMbz w ≠ 0#28 ∧ decode w = .illegal .mbzNonzero) := by
  rcases cmdWord_cases w with ⟨i, rfl⟩ | ⟨hmbz, hop⟩ | hmbz
  · exact .inl ⟨i, rfl, decode_encode i⟩
  · exact .inr (.inl ⟨⟨hmbz, hop⟩, decode_of_reservedOp hmbz hop⟩)
  · exact .inr (.inr ⟨hmbz, decode_of_mbz hmbz⟩)

theorem decode_eq_command_iff (w : Word) (i : Instr) : decode w = .command i ↔ w = encode i := by
  refine ⟨fun hd => ?_, fun hw => hw ▸ decode_encode i⟩
  rcases decode_cases w with ⟨j, hw, h⟩ | ⟨_, h⟩ | ⟨_, h⟩ <;> cases h.symm.trans hd
  exact hw

theorem decode_eq_reservedOpcode_iff (w : Word) :
    decode w = .illegal .reservedOpcode ↔ cmdMbz w = 0#28 ∧ 4 ≤ (cmdOp w).toNat := by
  refine ⟨fun hd => ?_, fun ⟨hmbz, hop⟩ => decode_of_reservedOp hmbz hop⟩
  rcases decode_cases w with ⟨_, _, h⟩ | ⟨hrow, h⟩ | ⟨_, h⟩ <;> cases h.symm.trans hd
  exact hrow

theorem decode_eq_mbzNonzero_iff (w : Word) : decode w = .illegal .mbzNonzero ↔ cmdMbz w ≠ 0#28 := by
  refine ⟨fun hd => ?_, decode_of_mbz⟩
  rcases decode_cases w with ⟨_, _, h⟩ | ⟨_, h⟩ | ⟨hmbz, h⟩ <;> cases h.symm.trans hd
  exact hmbz

/-! ### Well-formed words -/

theorem cmdWordWellFormed_iff (w : Word) :
    cmdWordWellFormed w = true ↔ cmdMbz w = 0#28 ∧ (cmdOp w).toNat < 4 := by
  simp [cmdWordWellFormed, cmdMbz, cmdOp]

theorem cmdWordWellFormed_encode (i : Instr) : cmdWordWellFormed (encode i) = true := by
  obtain ⟨hmbz, hop, hlt, _⟩ := legalWord i
  exact (cmdWordWellFormed_iff _).2 ⟨hmbz, hop ▸ hlt⟩

/-- Settles O1, by `decode_cases`: the rows cover every word, and each decodes to an outcome of its own. -/
theorem decodeAndEncodeAgree : Obligations.DecodeAndEncodeAgree := by
  refine ⟨by decide, decode_eq_command_iff, fun i => ⟨?_, cmdWordWellFormed_encode i⟩, decode_eq_reservedOpcode_iff,
    decode_eq_mbzNonzero_iff⟩
  obtain ⟨_, _, _, hwf⟩ := legalWord i
  exact hwf

end Sys2Proof
end

section
/-! SUPPORT. The issue of a command and the control commands: the CMD write, illegal words, NOP and CLEAR
(40_commands.md R120 to R125). -/

namespace Sys2Proof.Machine

/-! ### The CMD write -/

/-- A CMD write is dropped while BUSY = 1 and issues its word otherwise (20_memory.md R68; 40_commands.md R120). -/
theorem hostWrite_cmd (w : Word) (s : State) :
    hostWrite 0x008#16 w s =
      { if s.status.busy then { s with status := s.status.noteDroppedWrite } else s.issue w with
        rsp := some (.write false) } := by
  have ht : target 0x008#16 = .cmd := by decide
  rw [hostWrite_aligned (by decide), ht]; rfl

/-- The two illegal rows of 30_encoding.md R92 are the words with nonzero MBZ or an OP from 4 on. -/
theorem exists_decode_eq_illegal {w : Word} (h : cmdMbz w ≠ 0#28 ∨ 4 ≤ (cmdOp w).toNat) :
    ∃ x, decode w = .illegal x := by
  by_cases hmbz : cmdMbz w = 0#28
  · exact ⟨_, decode_of_reservedOp hmbz (h.resolve_left (not_not_intro hmbz))⟩
  · exact ⟨_, decode_of_mbz hmbz⟩

/-- An illegal word completes by `raise ERR_ILLEGAL_CMD(w)`, whichever row made it illegal (40_commands.md R125). -/
theorem runCommand_of_illegalFields {w : Word} (h : cmdMbz w ≠ 0#28 ∨ 4 ≤ (cmdOp w).toNat) (s : State) :
    runCommand w s = .next (s.raise .illegalCmd w) := by
  obtain ⟨_, hd⟩ := exists_decode_eq_illegal h
  exact runCommand_illegal hd s

/-- Settles O19: the writes by `hostWrite_cmd`, the illegal completion by `runCommand_of_illegalFields`. -/
theorem cmdWriteIssuesAnyWord : Obligations.CmdWriteIssuesAnyWord := by
  refine ⟨fun s w hidle => ?_, fun s w hbusy => ?_,
    fun s w hillegal => ⟨_, runCommand_of_illegalFields hillegal s, rfl, rfl, rfl⟩⟩
  · rw [hostWrite_cmd, if_neg (by simp [hidle])]; rfl
  · rw [hostWrite_cmd, if_pos hbusy]; rfl

/-! ### NOP -/

/-- Settles O25: NOP is `State.succeed` alone (`exec_nop`), so after an issue only the writes of R120 and R121 show. -/
theorem nopOnlyCompletes : Obligations.NopOnlyCompletes := by
  refine ⟨exec_nop, fun s => exec_nop (s.issue 0x00000000#32), fun t h => ?_⟩
  rw [exec_nop] at h
  cases h
  decide

/-! ### CLEAR -/

/-- A listed byte stands in the list as a cell. -/
theorem Memory.mem_of_find {m : Memory} {a : Nat} {b : Byte} (h : Memory.find a m = some b) : (a, b) ∈ m := by
  induction m with
  | nil => cases h
  | cons c m ih =>
    rw [Memory.find_cons] at h
    split at h
    case isTrue hc => cases h; cases hc; exact List.mem_cons_self
    case isFalse => exact List.mem_cons_of_mem _ (ih h)

/-- In the canonical form a byte is listed exactly where it differs from what an unlisted address reads as. -/
theorem Memory.find_of_wf {m : Memory} (h : Memory.wf m) (a : Nat) :
    Memory.find a m = if Memory.byte? m a = unlistedByte a then none else Memory.byte? m a := by
  cases hf : Memory.find a m with
  | none => simp [Memory.byte?, hf]
  | some b =>
    obtain ⟨_, hcells⟩ := h
    obtain ⟨_, hne⟩ := hcells _ (Memory.mem_of_find hf)
    simp [Memory.byte?, hf, hne.symm]

/-- Canonical lists with the same bytes are the same list. -/
theorem Memory.eq_of_byte?_eq {m m' : Memory} (h : Memory.wf m) (h' : Memory.wf m')
    (he : ∀ a, Memory.byte? m a = Memory.byte? m' a) : m = m' :=
  Memory.eq_of_find_eq h.1 h'.1 fun a => by rw [Memory.find_of_wf h, Memory.find_of_wf h', he]

/-- Clearing tables that already read 0 changes nothing: CLEAR is idempotent (40_commands.md R124). -/
theorem Memory.clearTables_of_zero {m : Memory} (h : Memory.wf m)
    (hz : ∀ a, isTableByte a = true → Memory.byte? m a = some 0#8) : Memory.clearTables m = m := by
  refine Memory.eq_of_byte?_eq (Memory.wf_clearTables h) h fun a => ?_
  rw [Memory.byte?_clearTables]
  split
  · exact (hz a ‹_›).symm
  · rfl

/-- A word of FREQ, CODELEN, NODE or CODEBITS reads 0 once the tables are cleared. -/
theorem Memory.tableWord_clearTables (m : Memory) {a : Nat}
    (h : (0x0400 ≤ a ∧ a + 4 ≤ 0x0C00) ∨ (0x1000 ≤ a ∧ a + 4 ≤ 0x4000)) :
    Memory.tableWord (Memory.clearTables m) a = 0#32 := by
  refine Memory.tableWord_of_zero fun i hi => ?_
  rw [Memory.byte?_clearTables, if_pos ((isTableByte_iff _).2 (by omega))]

/-- Settles O26: the words by `Memory.tableWord_clearTables`, idempotence by `Memory.clearTables_of_zero`, and the
DECODE that follows by `exec_decode_noTree`. -/
theorem clearDiscardsTheTree : Obligations.ClearDiscardsTheTree := by
  intro s
  refine ⟨_, exec_clear s, rfl, fun x hx => ⟨?_, ?_, fun k hk => ?_⟩, fun i hi => ⟨?_, ?_⟩, fun a ha => ?_,
    fun ⟨_, _, _, _, hz⟩ hwf => Memory.clearTables_of_zero hwf hz, fun h1 h2 => exec_decode_noTree h1 h2 rfl⟩
  · exact Memory.tableWord_clearTables _ (by simp only [freqAddr]; omega)
  · exact Memory.tableWord_clearTables _ (by simp only [codeLenAddr]; omega)
  · exact Memory.tableWord_clearTables _ (by simp only [codeBitsAddr]; omega)
  · exact Memory.tableWord_clearTables _ (by simp only [nodeLinkAddr]; omega)
  · exact Memory.tableWord_clearTables _ (by simp only [nodeFreqAddr]; omega)
  · exact (Memory.byte?_clearTables s.mem a).trans (if_neg (by simp [ha]))

end Sys2Proof.Machine
end

section
/-! SUPPORT. The builder's forest: the leaves under the live nodes are the present symbols, each once, from the seeding to
the root (41_encoder.md R143 to R151). -/

namespace Sys2Proof.Machine

/-! ### The leaves under a slot -/

/-- Every internal node's children lie in lower slots (41_encoder.md R144). -/
def ChildrenBelow (nodes : List TreeNode) : Prop :=
  ∀ (i l r f : Nat), nodes[i]? = some ⟨.internal l r, f⟩ → l < i ∧ r < i

/-- The symbols of the leaves under a slot, left to right (41_encoder.md R150). -/
def slotSymbols (nodes : List TreeNode) (slot : Nat) : List Symbol :=
  (walkCodes nodes (slot + 1) slot []).map Prod.fst

/-- The leaves that a walk meets depend on neither its path nor its bound, once the bound exceeds the slot. -/
theorem walkCodes_symbols {nodes : List TreeNode} (hb : ChildrenBelow nodes) {fuel slot : Nat} (path : BitString)
    (h : slot < fuel) : (walkCodes nodes fuel slot path).map Prod.fst = slotSymbols nodes slot := by
  induction slot using Nat.strong_induction_on generalizing fuel path with
  | _ slot ih =>
    obtain ⟨fuel, rfl⟩ : ∃ n, fuel = n + 1 := ⟨fuel - 1, by omega⟩
    simp only [slotSymbols, walkCodes]
    split
    · rfl
    · rfl
    next l r f hn =>
      obtain ⟨hl, hr⟩ := hb _ _ _ _ hn
      have left {n : Nat} (p : BitString) (hn : l < n) := ih l hl p hn
      have right {n : Nat} (p : BitString) (hn : r < n) := ih r hr p hn
      simp only [List.map_append, left _ hl, right _ hr, left _ (show l < fuel by omega),
        right _ (show r < fuel by omega)]

theorem slotSymbols_leaf {nodes : List TreeNode} {i f : Nat} {x : Symbol} (h : nodes[i]? = some ⟨.leaf x, f⟩) :
    slotSymbols nodes i = [x] := by
  simp [slotSymbols, walkCodes, h]

theorem slotSymbols_internal {nodes : List TreeNode} (hb : ChildrenBelow nodes) {i l r f : Nat}
    (h : nodes[i]? = some ⟨.internal l r, f⟩) :
    slotSymbols nodes i = slotSymbols nodes l ++ slotSymbols nodes r := by
  obtain ⟨hl, hr⟩ := hb _ _ _ _ h
  conv_lhs => simp only [slotSymbols, walkCodes, h]
  rw [List.map_append, walkCodes_symbols hb _ hl, walkCodes_symbols hb _ hr]

/-- A node added in the next slot changes no walk below it. -/
theorem walkCodes_append {nodes : List TreeNode} (hb : ChildrenBelow nodes) (more : List TreeNode) (fuel : Nat) {slot : Nat}
    (path : BitString) (h : slot < nodes.length) :
    walkCodes (nodes ++ more) fuel slot path = walkCodes nodes fuel slot path := by
  induction fuel generalizing slot path with
  | zero => rfl
  | succ fuel ih =>
    simp only [walkCodes, List.getElem?_append_left h]
    split
    · rfl
    · rfl
    next l r f hn =>
      obtain ⟨hl, hr⟩ := hb _ _ _ _ hn
      rw [ih _ (hl.trans h), ih _ (hr.trans h)]

theorem slotSymbols_append {nodes : List TreeNode} (hb : ChildrenBelow nodes) (more : List TreeNode) {slot : Nat}
    (h : slot < nodes.length) : slotSymbols (nodes ++ more) slot = slotSymbols nodes slot := by
  rw [slotSymbols, walkCodes_append hb _ _ _ h, slotSymbols]

theorem ChildrenBelow.append_internal {nodes : List TreeNode} (hb : ChildrenBelow nodes) {a b : Nat} (f : Nat)
    (ha : a < nodes.length) (hb' : b < nodes.length) : ChildrenBelow (nodes ++ [⟨.internal a b, f⟩]) := by
  intro i l r g h
  rcases Nat.lt_trichotomy i nodes.length with hi | rfl | hi
  · exact hb i l r g (by rwa [List.getElem?_append_left hi] at h)
  · obtain ⟨⟨rfl, rfl⟩, rfl⟩ : (a = l ∧ b = r) ∧ f = g := by simpa using h
    exact ⟨ha, hb'⟩
  · rw [List.getElem?_eq_none (by simpa using hi)] at h; cases h

/-! ### The forest of the live nodes -/

/-- What the merge loop keeps: children lie below their parents, the live nodes are in used slots, the last of them in the
last slot, and the leaves under the live nodes are the symbols `syms`, each once. -/
structure Forest (syms : List Symbol) (live : List LiveKey) (nodes : List TreeNode) : Prop where
  below : ChildrenBelow nodes
  used : ∀ k ∈ live, k.slot < nodes.length
  newest : live.getLast?.map LiveKey.slot = some (nodes.length - 1)
  spans : (live.flatMap fun k => slotSymbols nodes k.slot).Perm syms

theorem Forest.eq_singleton {syms : List Symbol} {live : List LiveKey} {nodes : List TreeNode}
    (h : Forest syms live nodes) (hlt : live.length < 2) : ∃ root, live = [root] := by
  match live, h.newest with
  | [], hnew => cases hnew
  | [root], _ => exact ⟨root, rfl⟩
  | _ :: _ :: _, _ => simp at hlt

/-- With one live node left, it is the root: the last slot, over all the symbols. -/
theorem Forest.slotSymbols_root {syms : List Symbol} {root : LiveKey} {nodes : List TreeNode}
    (h : Forest syms [root] nodes) : (slotSymbols nodes (nodes.length - 1)).Perm syms := by
  have hslot : root.slot = nodes.length - 1 := Option.some.inj h.newest
  simpa [hslot] using h.spans

/-- The seeded leaves are a forest of single leaves (41_encoder.md R143, R144). -/
theorem forest_seed {input : List Symbol} (h : 1 ≤ distinct input) :
    Forest (presentSymbols input) (seedLive (seedLeaves input)) (seedLeaves input) where
  below i l r f hn := by
    simp [seedLeaves] at hn
  used k hk := by
    obtain ⟨p, hp, rfl⟩ := List.mem_map.1 hk
    simpa using List.snd_lt_of_mem_zipIdx hp
  newest := by
    have hlast : distinct input - 1 < (seedLeaves input).length := by rw [seedLeaves_length]; omega
    rw [List.getLast?_eq_getElem?, seedLive_getElem?, seedLive_length, seedLeaves_length, List.getElem?_eq_getElem hlast]
    rfl
  spans := by
    have leaf : ∀ p ∈ (presentSymbols input).zipIdx, slotSymbols (seedLeaves input) p.2 = [p.1] := by
      intro p hp
      exact slotSymbols_leaf (f := freqCount input p.1) (by simp [seedLeaves, List.mem_zipIdx_iff_getElem?.1 hp])
    have hall : (seedLive (seedLeaves input)).flatMap (fun k => slotSymbols (seedLeaves input) k.slot) =
        (presentSymbols input).zipIdx.flatMap fun p => slotSymbols (seedLeaves input) p.2 := by
      conv_lhs => rw [seedLive, seedLeaves]
      rw [List.zipIdx_map, List.map_map, List.flatMap_map]
      rfl
    rw [hall, List.flatMap_congr leaf, ← List.map_eq_flatMap, List.zipIdx_map_fst]

/-- A merge pass keeps the forest: the new node stands over the leaves of the two it removes (41_encoder.md R144). -/
theorem Forest.merge {syms : List Symbol} {live live1 live2 : List LiveKey} {nodes : List TreeNode} {a b : LiveKey}
    (h : Forest syms live nodes) (h1 : removeLeast live = some (a, live1)) (h2 : removeLeast live1 = some (b, live2)) :
    Forest syms (live2 ++ [⟨a.freq + b.freq, nodes.length⟩])
      (nodes ++ [⟨.internal a.slot b.slot, a.freq + b.freq⟩]) := by
  obtain ⟨ha, rfl, _⟩ := removeLeast_some h1
  obtain ⟨hb, rfl, _⟩ := removeLeast_some h2
  have hp : live.Perm (a :: b :: (live.erase a).erase b) :=
    (List.perm_cons_erase ha).trans ((List.perm_cons_erase hb).cons a)
  generalize (live.erase a).erase b = rest at hp
  have hused : ∀ k ∈ a :: b :: rest, k.slot < nodes.length := fun k hk => h.used k (hp.mem_iff.2 hk)
  have hsa := hused a (by simp)
  have hsb := hused b (by simp)
  have hrest : ∀ k ∈ rest, k.slot < nodes.length := fun k hk => hused k (by simp [hk])
  have hbelow := h.below.append_internal (a.freq + b.freq) hsa hsb
  refine ⟨hbelow, fun k hk => ?_, by simp, List.Perm.trans ?_ h.spans⟩
  · rw [List.length_append, List.length_singleton]
    rcases List.mem_append.1 hk with hk | hk
    · exact (hrest k hk).trans (Nat.lt_succ_self _)
    · rw [List.mem_singleton.1 hk]; exact Nat.lt_succ_self _
  · rw [List.flatMap_append, List.flatMap_congr fun k hk => slotSymbols_append h.below _ (hrest k hk),
      List.flatMap_singleton, slotSymbols_internal hbelow List.getElem?_concat_length,
      slotSymbols_append h.below _ hsa, slotSymbols_append h.below _ hsb]
    refine List.perm_append_comm.trans ?_
    simpa using (hp.flatMap_right fun k => slotSymbols nodes k.slot).symm

/-- The loop merges the forest into one tree, with one node more for each live node but one (41_encoder.md R144). -/
theorem Forest.exists_root {syms : List Symbol} {fuel : Nat} {live : List LiveKey} {nodes : List TreeNode}
    (h : Forest syms live nodes) (hfuel : live.length ≤ fuel + 1) :
    ∃ root, Forest syms [root] (mergeLoop fuel live nodes) ∧
      (mergeLoop fuel live nodes).length + 1 = nodes.length + live.length := by
  induction fuel generalizing live nodes with
  | zero =>
    obtain ⟨root, rfl⟩ := h.eq_singleton (by omega)
    exact ⟨root, h, rfl⟩
  | succ fuel ih =>
    rcases mergeLoop_cases fuel live nodes with ⟨h1, he⟩ | ⟨a, b, live1, live2, h1, h2, he⟩
    · obtain ⟨root, rfl⟩ := h.eq_singleton h1
      rw [he]
      exact ⟨root, h, rfl⟩
    · obtain ⟨_, _, hlen1⟩ := removeLeast_some h1
      obtain ⟨_, _, hlen2⟩ := removeLeast_some h2
      obtain ⟨root, hroot, hlen⟩ := ih (h.merge h1 h2) (by rw [List.length_append, List.length_singleton]; omega)
      rw [he]
      simp only [List.length_append, List.length_singleton] at hlen
      exact ⟨root, hroot, by omega⟩

/-- The builder's nodes: one tree over the present symbols, its root in the last slot (41_encoder.md R147). -/
theorem exists_root_buildTree {input : List Symbol} (h : 1 ≤ distinct input) :
    ∃ root, Forest (presentSymbols input) [root] (buildTree input) ∧
      (buildTree input).length = nodeCount (distinct input) := by
  obtain ⟨root, hroot, hlen⟩ := (forest_seed h).exists_root (fuel := (seedLeaves input).length) (by simp)
  rw [seedLive_length, seedLeaves_length] at hlen
  exact ⟨root, hroot, by rw [buildTree, nodeCount, seedLeaves_length]; omega⟩

/-- The loop only adds nodes after those it is given (41_encoder.md R144). -/
theorem mergeLoop_eq_append (fuel : Nat) (live : List LiveKey) (nodes : List TreeNode) :
    ∃ more, mergeLoop fuel live nodes = nodes ++ more := by
  induction fuel generalizing live nodes with
  | zero => exact ⟨[], (List.append_nil nodes).symm⟩
  | succ fuel ih =>
    rcases mergeLoop_cases fuel live nodes with ⟨_, he⟩ | ⟨a, b, live1, live2, _, _, he⟩
    · exact ⟨[], by rw [he, List.append_nil]⟩
    · obtain ⟨more, hmore⟩ := ih (live2 ++ [⟨a.freq + b.freq, nodes.length⟩])
        (nodes ++ [⟨.internal a.slot b.slot, a.freq + b.freq⟩])
      exact ⟨_, by rw [he, hmore, List.append_assoc]⟩

/-- Settles O31: the leaves are seeded in ascending order, and the merge loop only adds nodes after them. -/
theorem leavesFillTheFirstSlots : Obligations.LeavesFillTheFirstSlots := by
  intro input
  refine ⟨presentSymbols input, presentSymbols_rising input, mem_presentSymbols input, ?_⟩
  obtain ⟨more, hmore⟩ := mergeLoop_eq_append (seedLeaves input).length (seedLive (seedLeaves input)) (seedLeaves input)
  rw [buildTree, hmore]
  exact List.take_left' (seedLeaves_length input)

end Sys2Proof.Machine
end

section
/-! SUPPORT. The code table's entries: one for each present symbol, none for another, each shorter than the number of slots
(41_encoder.md R150 to R153). -/

namespace Sys2Proof.Machine

theorem presentSymbols_nodup (input : List Symbol) : (presentSymbols input).Nodup :=
  (presentSymbols_rising input).imp fun h he => by rw [he] at h; exact Nat.lt_irrefl _ h

theorem mem_presentSymbols_iff_mem {input : List Symbol} {x : Symbol} : x ∈ presentSymbols input ↔ x ∈ input := by
  rw [mem_presentSymbols, Nat.succ_le_iff, List.count_pos_iff]

/-! ### The table's symbols -/

/-- The code table has one entry for each present symbol (41_encoder.md R150, R151). -/
theorem genCodes_symbols_perm (input : List Symbol) : ((genCodes input).map Prod.fst).Perm (presentSymbols input) := by
  unfold genCodes
  split
  next h => rw [h]; rfl
  next x h => rw [h]; rfl
  next x y rest h =>
    have hn : 2 ≤ distinct input := by simp [distinct, h]
    obtain ⟨root, hroot, hlen⟩ := exists_root_buildTree (show 1 ≤ distinct input by omega)
    have hslot : rootSlot (distinct input) = (buildTree input).length - 1 := by
      rw [hlen]; simp only [rootSlot, nodeCount]; omega
    rw [hslot, walkCodes_symbols hroot.below _ (by rw [hlen]; simp only [nodeCount]; omega)]
    exact hroot.slotSymbols_root

theorem genCodes_symbols_nodup (input : List Symbol) : ((genCodes input).map Prod.fst).Nodup :=
  (genCodes_symbols_perm input).nodup_iff.2 (presentSymbols_nodup input)

theorem mem_genCodes_symbols {input : List Symbol} {x : Symbol} : x ∈ (genCodes input).map Prod.fst ↔ x ∈ input :=
  (genCodes_symbols_perm input).mem_iff.trans mem_presentSymbols_iff_mem

/-! ### The lookup -/

/-- A symbol with an entry is looked up to the code of one of its entries. -/
theorem codeOf_mem {codes : List (Symbol × BitString)} {x : Symbol} (h : x ∈ codes.map Prod.fst) :
    (x, codeOf codes x) ∈ codes := by
  induction codes with
  | nil => cases h
  | cons p ps ih =>
    simp only [codeOf]
    split
    case isTrue hp => rw [← hp]; exact List.mem_cons_self
    case isFalse hp => exact List.mem_cons_of_mem _ (ih ((List.mem_cons.1 h).resolve_left (Ne.symm hp)))

theorem codeOf_eq_nil {codes : List (Symbol × BitString)} {x : Symbol} (h : x ∉ codes.map Prod.fst) :
    codeOf codes x = [] := by
  induction codes with
  | nil => rfl
  | cons p ps ih =>
    rw [List.map_cons, List.mem_cons, not_or] at h
    obtain ⟨hp, hps⟩ := h
    rw [codeOf, if_neg (Ne.symm hp), ih hps]

/-- Every symbol of the input has its code in the table (41_encoder.md R153). -/
theorem codeOf_mem_genCodes {input : List Symbol} {x : Symbol} (h : x ∈ input) :
    (x, codeOf (genCodes input) x) ∈ genCodes input :=
  codeOf_mem (mem_genCodes_symbols.2 h)

/-! ### One symbol -/

theorem presentSymbols_of_single {input : List Symbol} {x : Symbol} (hx : x ∈ input) (hall : ∀ y ∈ input, y = x) :
    presentSymbols input = [x] := by
  rw [← List.perm_singleton, List.perm_ext_iff_of_nodup (presentSymbols_nodup input) (List.nodup_singleton x)]
  intro y
  rw [mem_presentSymbols_iff_mem, List.mem_singleton]
  exact ⟨hall y, fun h => h ▸ hx⟩

/-- Settles O35: with one present symbol GenCodes takes its second case, and the input is that symbol repeated. -/
theorem singleSymbolCodeIsZero : Obligations.SingleSymbolCodeIsZero := by
  intro input x hx hall
  have hcode : codeOf (genCodes input) x = [false] := by
    simp [genCodes, presentSymbols_of_single hx hall, codeOf]
  refine ⟨hcode, ?_⟩
  have hinput : input = List.replicate input.length x := List.eq_replicate_of_mem hall
  calc serialize input = (List.replicate input.length x).flatMap (codeOf (genCodes input)) := by
        rw [← hinput, serialize]
    _ = List.replicate input.length false := by
        rw [List.flatMap_replicate, hcode, List.flatten_replicate_singleton]

/-! ### Lengths -/

/-- A walk's paths are shorter than its bound allows. -/
theorem walkCodes_path_length {nodes : List TreeNode} {fuel slot : Nat} {path : BitString} {p : Symbol × BitString}
    (h : p ∈ walkCodes nodes fuel slot path) : p.2.length < path.length + fuel := by
  induction fuel generalizing slot path with
  | zero => cases h
  | succ fuel ih =>
    simp only [walkCodes] at h
    split at h
    · cases h
    · rw [List.mem_singleton.1 h]; simp only; omega
    next l r f _ =>
      rcases List.mem_append.1 h with h | h
      all_goals
        have hp := ih h
        simp only [List.length_append, List.length_singleton] at hp
        omega

/-- A code is shorter than the number of slots there can be (41_encoder.md R150). -/
theorem genCodes_length_lt {input : List Symbol} {p : Symbol × BitString} (h : p ∈ genCodes input) :
    p.2.length < 511 := by
  unfold genCodes at h
  split at h
  · cases h
  · simp [List.mem_singleton.1 h]
  · have hp := walkCodes_path_length h
    have hn := buildTree_length_le input
    simp only [List.length_nil] at hp
    omega

theorem codeOf_genCodes_length_lt (input : List Symbol) (x : Symbol) : (codeOf (genCodes input) x).length < 511 := by
  by_cases h : x ∈ input
  · exact genCodes_length_lt (codeOf_mem_genCodes h)
  · rw [codeOf_eq_nil (mt mem_genCodes_symbols.1 h)]; decide

/-- The stream has fewer than 511 bits a symbol: far from 41_encoder.md R155, but enough for a register of 32 bits. -/
theorem serialize_length_le (input : List Symbol) : (serialize input).length ≤ input.length * 510 := by
  rw [serialize, List.length_flatMap]
  have hsum := List.sum_le_card_nsmul (input.map fun x => (codeOf (genCodes input) x).length) 510 ?_
  · simpa using hsum
  · intro n hn
    obtain ⟨x, _, rfl⟩ := List.mem_map.1 hn
    exact Nat.le_of_lt_succ (codeOf_genCodes_length_lt input x)

end Sys2Proof.Machine
end

section
/-! SUPPORT. What ENCODE commits: the table words lie apart, so each reads back and every other table word reads 0; then
the stream's words and BIT_LEN (41_encoder.md R141, R142, R152 to R156). -/

namespace Sys2Proof.Machine

/-! ### Offsets of the table words -/

/-- The words at two offsets share no byte. -/
def WordsApart (a b : Nat) : Prop := a + 4 ≤ b ∨ b + 4 ≤ a

/-- The offset of the FREQ word, the CODELEN word or a CODEBITS word of x (20_memory.md R63). -/
def IsSymbolWord (x : Symbol) (a : Nat) : Prop :=
  a = freqAddr x.toNat ∨ a = codeLenAddr x.toNat ∨ ∃ k < 8, a = codeBitsAddr x.toNat k

/-- The offset of one of the two words of NODE slot i (20_memory.md R63). -/
def IsNodeWord (i a : Nat) : Prop := a = nodeLinkAddr i ∨ a = nodeFreqAddr i

theorem IsSymbolWord.in_tables {x : Symbol} {a : Nat} (h : IsSymbolWord x a) :
    (0x0400 ≤ a ∧ a + 4 ≤ 0x0C00) ∨ (0x1000 ≤ a ∧ a + 4 ≤ 0x4000) := by
  have := x.isLt
  rcases h with rfl | rfl | ⟨k, hk, rfl⟩ <;> simp only [freqAddr, codeLenAddr, codeBitsAddr] <;> omega

theorem IsSymbolWord.apart_of_ne {x y : Symbol} {a b : Nat} (hxy : x ≠ y) (ha : IsSymbolWord x a) (hb : IsSymbolWord y b) :
    WordsApart a b := by
  have hne : x.toNat ≠ y.toNat := mt BitVec.eq_of_toNat_eq hxy
  have := x.isLt
  have := y.isLt
  rcases ha with rfl | rfl | ⟨k, hk, rfl⟩ <;> rcases hb with rfl | rfl | ⟨l, hl, rfl⟩ <;>
    simp only [WordsApart, freqAddr, codeLenAddr, codeBitsAddr] <;> omega

/-- NODE lies between the other tables. -/
theorem IsSymbolWord.apart_node {x : Symbol} {i a b : Nat} (ha : IsSymbolWord x a) (hi : i < 512) (hb : IsNodeWord i b) :
    WordsApart a b := by
  have := x.isLt
  rcases ha with rfl | rfl | ⟨k, hk, rfl⟩ <;> rcases hb with rfl | rfl <;>
    simp only [WordsApart, freqAddr, codeLenAddr, codeBitsAddr, nodeLinkAddr, nodeFreqAddr] <;> omega

theorem IsNodeWord.apart_of_lt {i j a b : Nat} (hij : i < j) (ha : IsNodeWord i a) (hb : IsNodeWord j b) :
    WordsApart a b := by
  rcases ha with rfl | rfl <;> rcases hb with rfl | rfl <;> simp only [WordsApart, nodeLinkAddr, nodeFreqAddr] <;> omega

/-! ### The words of a commit -/

/-- The table words that a commit writes over cleared tables (41_encoder.md R156). -/
def commitWords (input : List Symbol) : List (Nat × Word) :=
  freqWords input ++ nodeWords (buildTree input) ++ codeWords (genCodes input)

theorem commitTables_eq (input : List Symbol) (m : Memory) :
    commitTables input m = Memory.setWords (Memory.clearTables m) (commitWords input) := rfl

theorem mem_freqWords {input : List Symbol} {w : Nat × Word} (h : w ∈ freqWords input) :
    ∃ x ∈ input, w = (freqAddr x.toNat, BitVec.ofNat 32 (input.count x)) := by
  obtain ⟨x, hx, rfl⟩ := List.mem_map.1 h
  exact ⟨x, mem_presentSymbols_iff_mem.1 hx, rfl⟩

/-- The two words of a used slot, as `nodeWords` lists them (30_encoding.md R97, R98). -/
def slotWords (p : TreeNode × Nat) : List (Nat × Word) :=
  [(nodeLinkAddr p.2, linkWord p.1.kind), (nodeFreqAddr p.2, BitVec.ofNat 32 p.1.freq)]

/-- The nine words of a code, as `codeWords` lists them (30_encoding.md R96). -/
def entryWords (p : Symbol × BitString) : List (Nat × Word) :=
  (codeLenAddr p.1.toNat, BitVec.ofNat 32 p.2.length) ::
    (List.range 8).map fun k => (codeBitsAddr p.1.toNat k, packWord p.2 k)

theorem nodeWords_eq (nodes : List TreeNode) : nodeWords nodes = nodes.zipIdx.flatMap slotWords := rfl

theorem codeWords_eq (codes : List (Symbol × BitString)) : codeWords codes = codes.flatMap entryWords := rfl

theorem mem_slotWords_offset {p : TreeNode × Nat} {w : Nat × Word} (h : w ∈ slotWords p) : IsNodeWord p.2 w.1 := by
  simp only [slotWords, List.mem_cons, List.not_mem_nil, or_false] at h
  exact h.imp (congrArg Prod.fst) (congrArg Prod.fst)

theorem mem_entryWords {p : Symbol × BitString} {w : Nat × Word} : w ∈ entryWords p ↔
    w = (codeLenAddr p.1.toNat, BitVec.ofNat 32 p.2.length) ∨
      ∃ k < 8, w = (codeBitsAddr p.1.toNat k, packWord p.2 k) := by
  simp only [entryWords, List.mem_cons, List.mem_map, List.mem_range, eq_comm (a := w)]

theorem mem_entryWords_offset {p : Symbol × BitString} {w : Nat × Word} (h : w ∈ entryWords p) :
    w.1 = codeLenAddr p.1.toNat ∨ ∃ k < 8, w.1 = codeBitsAddr p.1.toNat k :=
  (mem_entryWords.1 h).imp (congrArg Prod.fst) fun ⟨k, hk, hw⟩ => ⟨k, hk, congrArg Prod.fst hw⟩

theorem mem_nodeWords_offset {nodes : List TreeNode} {w : Nat × Word} (h : w ∈ nodeWords nodes) :
    ∃ i < nodes.length, IsNodeWord i w.1 := by
  obtain ⟨p, hp, hw⟩ := List.mem_flatMap.1 h
  exact ⟨p.2, by simpa using List.snd_lt_of_mem_zipIdx hp, mem_slotWords_offset hw⟩

theorem mem_codeWords_offset {codes : List (Symbol × BitString)} {w : Nat × Word} (h : w ∈ codeWords codes) :
    ∃ x ∈ codes.map Prod.fst, w.1 = codeLenAddr x.toNat ∨ ∃ k < 8, w.1 = codeBitsAddr x.toNat k := by
  obtain ⟨p, hp, hw⟩ := List.mem_flatMap.1 h
  exact ⟨p.1, List.mem_map_of_mem hp, mem_entryWords_offset hw⟩

/-- Every word of a commit is of a symbol that occurs or of a used NODE slot. -/
theorem mem_commitWords_offset {input : List Symbol} {w : Nat × Word} (h : w ∈ commitWords input) :
    (∃ x ∈ input, IsSymbolWord x w.1) ∨ ∃ i < (buildTree input).length, IsNodeWord i w.1 := by
  simp only [commitWords, List.mem_append] at h
  rcases h with (h | h) | h
  · obtain ⟨x, hx, rfl⟩ := mem_freqWords h
    exact .inl ⟨x, hx, .inl rfl⟩
  · exact .inr (mem_nodeWords_offset h)
  · obtain ⟨x, hx, hw⟩ := mem_codeWords_offset h
    exact .inl ⟨x, mem_genCodes_symbols.1 hx, .inr hw⟩

theorem freqWords_apart (input : List Symbol) : (freqWords input).Pairwise fun w w' => WordsApart w.1 w'.1 := by
  refine List.pairwise_map.2 ((presentSymbols_nodup input).imp fun hne => ?_)
  exact IsSymbolWord.apart_of_ne hne (.inl rfl) (.inl rfl)

theorem nodeWords_apart (nodes : List TreeNode) : (nodeWords nodes).Pairwise fun w w' => WordsApart w.1 w'.1 := by
  have slots : nodes.zipIdx.Pairwise fun p q => p.2 < q.2 := by
    rw [← List.pairwise_map (f := Prod.snd), List.zipIdx_map_snd]
    exact List.pairwise_lt_range'
  rw [nodeWords_eq]
  refine List.pairwise_flatMap.2 ⟨fun p _ => ?_, slots.imp fun hpq w hw w' hw' => ?_⟩
  · simp only [slotWords, List.pairwise_pair, WordsApart, nodeLinkAddr, nodeFreqAddr]; omega
  · exact IsNodeWord.apart_of_lt hpq (mem_slotWords_offset hw) (mem_slotWords_offset hw')

/-- The nine words of one symbol lie apart, and different symbols have words of their own. -/
theorem codeWords_apart {codes : List (Symbol × BitString)} (h : (codes.map Prod.fst).Nodup) :
    (codeWords codes).Pairwise fun w w' => WordsApart w.1 w'.1 := by
  rw [codeWords_eq]
  refine List.pairwise_flatMap.2 ⟨fun p _ => List.pairwise_cons.2 ⟨fun w hw => ?_, ?_⟩,
    (List.pairwise_map.1 h).imp fun hpq w hw w' hw' => ?_⟩
  · obtain ⟨k, -, rfl⟩ := List.mem_map.1 hw
    have := p.1.isLt
    simp only [WordsApart, codeLenAddr, codeBitsAddr]; omega
  · refine List.pairwise_map.2 (List.pairwise_lt_range.imp fun hij => ?_)
    simp only [WordsApart, codeBitsAddr]; omega
  · exact IsSymbolWord.apart_of_ne hpq (.inr (mem_entryWords_offset hw)) (.inr (mem_entryWords_offset hw'))

theorem commitWords_apart (input : List Symbol) : (commitWords input).Pairwise fun w w' => WordsApart w.1 w'.1 := by
  have hnodes := buildTree_length_le input
  refine List.pairwise_append.2 ⟨List.pairwise_append.2 ⟨freqWords_apart input, nodeWords_apart _, fun w hw w' hw' => ?_⟩,
    codeWords_apart (genCodes_symbols_nodup input), fun w hw w' hw' => ?_⟩
  · obtain ⟨x, _, rfl⟩ := mem_freqWords hw
    obtain ⟨i, _, hi⟩ := mem_nodeWords_offset hw'
    exact IsSymbolWord.apart_node (.inl rfl) (by omega) hi
  · obtain ⟨y, _, hy⟩ := mem_codeWords_offset hw'
    rcases List.mem_append.1 hw with hw | hw
    · obtain ⟨x, _, rfl⟩ := mem_freqWords hw
      have := x.isLt
      left
      rcases hy with hy | ⟨k, _, hy⟩ <;> rw [hy] <;> simp only [freqAddr, codeLenAddr, codeBitsAddr] <;> omega
    · obtain ⟨i, _, hi⟩ := mem_nodeWords_offset hw
      exact (IsSymbolWord.apart_node (.inr hy) (by omega) hi).symm

/-! ### The tables after a commit -/

/-- A table word that a commit writes is the table word read. -/
theorem tableWord_commitTables_of_mem {input : List Symbol} {a : Nat} {v : Word} (h : (a, v) ∈ commitWords input)
    (m : Memory) : Memory.tableWord (commitTables input m) a = v := by
  have hs : wordStorage a := wordStorage_of_table (commitTables_words_in_tables input _ h)
  exact Memory.tableWord_of_word? (Memory.word?_setWords_mem _ _ (commitWords_apart input) h hs)

/-- A table word apart from every word of the commit is 0. -/
theorem tableWord_commitTables_zero {input : List Symbol} {a : Nat}
    (ha : (0x0400 ≤ a ∧ a + 4 ≤ 0x0C00) ∨ (0x1000 ≤ a ∧ a + 4 ≤ 0x4000))
    (h : ∀ w ∈ commitWords input, WordsApart a w.1) (m : Memory) :
    Memory.tableWord (commitTables input m) a = 0#32 := by
  rw [← Memory.tableWord_clearTables m ha, commitTables_eq]
  refine Memory.tableWord_congr fun i hi => Memory.byte?_setWords_other _ _ _ fun w hw hcovers => ?_
  rcases h w hw with hlt | hlt <;> omega

/-- Every table word of a symbol that does not occur is 0 (41_encoder.md R152, R156). -/
theorem tableWord_commitTables_absent {input : List Symbol} {x : Symbol} {a : Nat} (hx : x ∉ input)
    (ha : IsSymbolWord x a) (m : Memory) : Memory.tableWord (commitTables input m) a = 0#32 := by
  refine tableWord_commitTables_zero ha.in_tables (fun w hw => ?_) m
  rcases mem_commitWords_offset hw with ⟨y, hy, hw⟩ | ⟨i, hi, hw⟩
  · exact IsSymbolWord.apart_of_ne (ne_of_mem_of_not_mem hy hx).symm ha hw
  · have := buildTree_length_le input
    exact ha.apart_node (by omega) hw

theorem freqWord_commitTables (input : List Symbol) (m : Memory) (x : Symbol) :
    Memory.tableWord (commitTables input m) (freqAddr x.toNat) = BitVec.ofNat 32 (input.count x) := by
  by_cases hx : x ∈ input
  · refine tableWord_commitTables_of_mem ?_ m
    simp only [commitWords, List.mem_append]
    exact .inl (.inl (List.mem_map_of_mem (mem_presentSymbols_iff_mem.2 hx)))
  · rw [List.count_eq_zero.2 hx]
    exact tableWord_commitTables_absent hx (.inl rfl) m

/-- The words of its code are written for every symbol that occurs (41_encoder.md R152). -/
theorem entryWords_subset_commitWords {input : List Symbol} {x : Symbol} (hx : x ∈ input) :
    entryWords (x, codeOf (genCodes input) x) ⊆ commitWords input := fun _ hw =>
  List.mem_append_right _ (List.mem_flatMap.2 ⟨_, codeOf_mem_genCodes hx, hw⟩)

theorem codeLenWord_commitTables {input : List Symbol} {x : Symbol} (hx : x ∈ input) (m : Memory) :
    Memory.tableWord (commitTables input m) (codeLenAddr x.toNat) =
      BitVec.ofNat 32 (codeOf (genCodes input) x).length :=
  tableWord_commitTables_of_mem (entryWords_subset_commitWords hx (mem_entryWords.2 (.inl rfl))) m

theorem codeBitsWord_commitTables {input : List Symbol} {x : Symbol} (hx : x ∈ input) {k : Nat} (hk : k < 8) (m : Memory) :
    Memory.tableWord (commitTables input m) (codeBitsAddr x.toNat k) = packWord (codeOf (genCodes input) x) k :=
  tableWord_commitTables_of_mem (entryWords_subset_commitWords hx (mem_entryWords.2 (.inr ⟨k, hk, rfl⟩))) m

/-! ### ENCODE -/

/-- Pack leaves the tables alone. -/
theorem tableWord_packStream (stream : BitString) (m : Memory) {a : Nat} (h : a + 4 ≤ 0xC000) :
    Memory.tableWord (packStream stream m) a = Memory.tableWord m a :=
  Memory.tableWord_congr fun _ hi => byte?_packStream_below _ _ (by omega)

/-- Settles O27, by `exec_encode_tooLong`. -/
theorem encodeRefusesALongInput : Obligations.EncodeRefusesALongInput :=
  fun _ h => exec_encode_tooLong h

/-- Read ENCODE's tables where the commit put them: Pack writes BITBUF alone (41_encoder.md R154, R156). -/
theorem exec_encode_tables {s : State} (h : s.symInLen.toNat ≤ 4096) : ∃ t, exec .encode s = .next t ∧
    ∀ a, a + 4 ≤ 0xC000 →
      Memory.tableWord t.mem a = Memory.tableWord (commitTables (symInOperand s s.symInLen.toNat) s.mem) a :=
  ⟨_, exec_encode_ok h, fun _ => tableWord_packStream _ _⟩

/-- The counts over a range that covers a list sum to its length. -/
theorem sum_count_range {l : List Nat} {n : Nat} (h : ∀ a ∈ l, a < n) : ((List.range n).map l.count).sum = l.length := by
  have hsum := Multiset.sum_count_eq_card (s := Finset.range n) (m := l) fun a ha => Finset.mem_range.2 (h a ha)
  simpa [Finset.sum_eq_multiset_sum, ← Multiset.coe_range] using hsum

/-- The counts of all 256 symbols sum to the input's length (41_encoder.md R142). -/
theorem sum_count_symbols (input : List Symbol) :
    ((List.range 256).map fun x => input.count (BitVec.ofNat 8 x)).sum = input.length := by
  have hcount : ∀ x ∈ List.range 256, input.count (BitVec.ofNat 8 x) = (input.map BitVec.toNat).count x := by
    intro x hx
    rw [← List.count_map_of_injective input BitVec.toNat (fun _ _ => BitVec.eq_of_toNat_eq), BitVec.toNat_ofNat,
      Nat.mod_eq_of_lt (List.mem_range.1 hx)]
  rw [List.map_congr_left hcount, ← List.length_map (as := input) BitVec.toNat]
  exact sum_count_range (List.forall_mem_map.2 fun x _ => x.isLt)

/-- Settles O29: FREQ[x] by `freqWord_commitTables`, the sum by `sum_count_symbols`. -/
theorem encodeCountsEverySymbol : Obligations.EncodeCountsEverySymbol := by
  intro s h
  obtain ⟨t, ht, htables⟩ := exec_encode_tables h
  have hfreq : ∀ x : Symbol, (Memory.tableWord t.mem (freqAddr x.toNat)).toNat =
      (symInOperand s s.symInLen.toNat).count x := by
    intro x
    have := x.isLt
    have hcount := List.count_le_length (a := x) (l := symInOperand s s.symInLen.toNat)
    rw [symInOperand_length] at hcount
    rw [htables _ (by simp only [freqAddr]; omega), freqWord_commitTables]
    exact Nat.mod_eq_of_lt (by omega)
  have hsum := sum_count_symbols (symInOperand s s.symInLen.toNat)
  rw [symInOperand_length] at hsum
  refine ⟨t, ht, hfreq, Eq.trans (congrArg List.sum (List.map_congr_left fun x hx => ?_)) hsum⟩
  rw [← hfreq, BitVec.toNat_ofNat, Nat.mod_eq_of_lt (List.mem_range.1 hx)]

/-- Settles O36: the words of a symbol that occurs by `codeLenWord_commitTables` and `codeBitsWord_commitTables`, those of
another by `tableWord_commitTables_absent`. -/
theorem encodeWritesTheCodeTable : Obligations.EncodeWritesTheCodeTable := by
  intro s h
  obtain ⟨t, ht, htables⟩ := exec_encode_tables h
  have reads {x : Symbol} {a : Nat} (ha : IsSymbolWord x a) := htables a (by have := ha.in_tables; omega)
  have readsLen (x : Symbol) := reads (x := x) (.inr (.inl rfl))
  have readsBits (x : Symbol) {k : Nat} (hk : k < 8) := reads (x := x) (.inr (.inr ⟨k, hk, rfl⟩))
  refine ⟨t, ht, fun x => ⟨fun hx => ⟨?_, fun j hj => ?_⟩, fun hx => ⟨?_, fun k hk => ?_⟩⟩⟩
  · have hlen := codeOf_genCodes_length_lt (symInOperand s s.symInLen.toNat) x
    rw [readsLen, codeLenWord_commitTables hx]
    exact Nat.mod_eq_of_lt (by omega)
  · have hk : j / 32 < 8 := by omega
    rw [readsBits x hk, codeBitsWord_commitTables hx hk]
    exact msbBit_packWord _ j
  · rw [readsLen, tableWord_commitTables_absent hx (.inr (.inl rfl))]
  · rw [readsBits x hk, tableWord_commitTables_absent hx (.inr (.inr ⟨k, hk, rfl⟩))]

/-- Settles O38: `word?_packStream` for the words of the stream, and the frames of Pack and of the commit for those after
it. -/
theorem encodePacksTheStream : Obligations.EncodePacksTheStream := by
  intro s h
  refine ⟨_, exec_encode_ok h, fun w hw hlt => ⟨_, word?_packStream _ _ hw hlt, fun j hj => ?_⟩, fun w hw hge i hi => ?_⟩
  · rw [packWord_bit _ _ _ hj]
    split
    case isTrue hbit => exact List.getD_eq_getElem _ _ hbit
    case isFalse hend => exact List.getD_eq_default _ _ (Nat.not_lt.1 hend)
  · have hout : isTableByte (bitBufAddr w + i) = false := by
      rw [← Bool.not_eq_true, isTableByte_iff]; simp only [bitBufAddr]; omega
    exact (byte?_packStream_after _ _ hge (Nat.le_add_right _ _)).trans (byte?_commitTables_outside _ _ hout)

/-- Settles O37: every symbol's code is in the table by `codeOf_mem_genCodes`, and the stream's length fits BIT_LEN by
`serialize_length_le`. -/
theorem serializeConcatenatesTheCodes : Obligations.SerializeConcatenatesTheCodes := by
  refine ⟨fun input => List.flatMap_def .., fun input x hx => codeOf_mem_genCodes hx, rfl,
    fun s h => ⟨_, exec_encode_ok h, ?_⟩⟩
  have hlen := serialize_length_le (symInOperand s s.symInLen.toNat)
  rw [symInOperand_length] at hlen
  exact Nat.mod_eq_of_lt (by omega)

end Sys2Proof.Machine
end

section
/-! SUPPORT. DECODE: SYM_OUT_LEN and SYM_OUT after a walk, the walk of a one-symbol tree, and the ends without a walk
(42_decoder.md R171 to R173, R176, R179). -/

namespace Sys2Proof.Machine

/-! ### After a walk -/

/-- The state in which DECODE ends once it has walked its stream. -/
def State.afterWalk (w : Walk) (s : State) : State := ((s.takeDraws s.bitLen.toNat).keepOutput w.out).endWalk w.ending

theorem exec_decode_afterWalk {s : State} (h1 : 1 ≤ s.bitLen.toNat) (h2 : s.bitLen.toNat ≤ 32768)
    (ht : s.status.treeValid = true) :
    exec .decode s = .next (s.afterWalk (decodeWalk s (streamOperand s s.bitLen.toNat))) :=
  exec_decode_walk h1 h2 ht

theorem State.afterWalk_symOutLen {w : Walk} (s : State) (h : w.out.length ≤ 4096) :
    (s.afterWalk w).symOutLen.toNat = w.out.length := by
  simp only [State.afterWalk, State.endWalk_symOutLen, State.keepOutput_symOutLen, BitVec.toNat_ofNat]
  omega

/-- SYM_OUT[j] is the j-th symbol of the output, or keeps its contents past the output's end (42_decoder.md R179). -/
theorem symbol?_writeSymOut {out : List Symbol} (m : Memory) (j : Nat) (h : out.length ≤ 4096) :
    Memory.symbol? (writeSymOut out m) (symOutAddr j) = out[j]?.or (Memory.symbol? m (symOutAddr j)) := by
  have hentry : (symOutAddr j - 0x8000) / 4 = j := by simp only [symOutAddr]; omega
  rw [Memory.symbol?, byte?_writeSymOut _ _ _ h, hentry]
  split
  case isTrue hin => rw [List.getElem?_eq_getElem hin.2.2, Option.some_or]
  case isFalse hout =>
    have hend : out.length ≤ j := by simp only [symOutAddr] at hout; omega
    rw [List.getElem?_eq_none hend, Option.none_or, Memory.symbol?]

theorem State.afterWalk_symbol? {w : Walk} (s : State) (j : Nat) (h : w.out.length ≤ 4096) :
    Memory.symbol? (s.afterWalk w).mem (symOutAddr j) = w.out[j]?.or (Memory.symbol? s.mem (symOutAddr j)) := by
  rw [State.afterWalk, State.endWalk_mem, State.keepOutput_mem, State.takeDraws_mem, symbol?_writeSymOut _ _ h]

/-! ### The walk of a one-symbol tree -/

/-- The symbol of slot 0, the one leaf of a one-symbol tree (42_decoder.md R176). -/
def firstSymbol (m : Memory) : Symbol := linkSymbol (nodeLink m 0#9)

theorem firstSymbol_eq (m : Memory) : firstSymbol m = (Memory.tableWord m (nodeLinkAddr 0)).setWidth 8 :=
  (BitVec.setWidth_eq_extractLsb' (by decide)).symm

theorem decodeWalk_of_nsym_lt {s : State} (h : s.nsym.toNat < 2) (bits : BitString) :
    decodeWalk s bits = walkSingle s.mem bits 0 0 := if_neg (Nat.not_le.2 h)

theorem walkSingle_nil (m : Memory) (k cnt : Nat) : walkSingle m [] k cnt = ⟨[], .complete⟩ := rfl

theorem walkSingle_true (m : Memory) (bits : BitString) (k cnt : Nat) :
    walkSingle m (true :: bits) k cnt = ⟨[], .badBits k⟩ := rfl

theorem walkSingle_false_full (m : Memory) (bits : BitString) (k : Nat) :
    walkSingle m (false :: bits) k 4096 = ⟨[], .ovf k⟩ := rfl

theorem walkSingle_false {cnt : Nat} (h : cnt ≠ 4096) (m : Memory) (bits : BitString) (k : Nat) :
    walkSingle m (false :: bits) k cnt = (walkSingle m bits (k + 1) (cnt + 1)).emit (firstSymbol m) :=
  if_neg h

/-- WalkSingle writes no symbol but the tree's one. -/
theorem mem_walkSingle_out {m : Memory} {bits : BitString} {k cnt : Nat} {x : Symbol}
    (hx : x ∈ (walkSingle m bits k cnt).out) : x = firstSymbol m := by
  induction bits generalizing k cnt with
  | nil => cases hx
  | cons b bits ih =>
    cases b with
    | true => cases hx
    | false =>
      by_cases hfull : cnt = 4096
      · subst hfull; cases hx
      · rw [walkSingle_false hfull, Walk.emit] at hx
        rcases List.mem_cons.1 hx with rfl | hx
        · rfl
        · exact ih hx

/-- 0 bits that SYM_OUT has room for write the symbol once each; where nothing is written after them, the walk ends as it does
on the bits that follow. -/
theorem walkSingle_of_zeros (m : Memory) {n : Nat} {bits : BitString} {k cnt : Nat} {e : WalkEnd} (hn : cnt + n ≤ 4096)
    (hzeros : ∀ j, j < n → bits[j]? = some false)
    (hrest : walkSingle m (bits.drop n) (k + n) (cnt + n) = ⟨[], e⟩) :
    walkSingle m bits k cnt = ⟨List.replicate n (firstSymbol m), e⟩ := by
  induction n generalizing bits k cnt with
  | zero => exact hrest
  | succ n ih =>
    have hfirst := hzeros 0 n.succ_pos
    cases bits with
    | nil => cases hfirst
    | cons b bits =>
      cases hfirst
      rw [walkSingle_false (by omega), ih (by omega) (fun j hj => hzeros (j + 1) (Nat.succ_lt_succ hj))]
      · rfl
      · rwa [Nat.add_assoc k, Nat.add_assoc cnt, Nat.add_comm 1]

theorem drop_eq_cons {bits : BitString} {n : Nat} {b : Bool} (h : bits[n]? = some b) :
    bits.drop n = b :: bits.drop (n + 1) := by
  obtain ⟨hn, rfl⟩ := List.getElem?_eq_some_iff.1 h
  exact List.drop_eq_getElem_cons hn

theorem State.afterWalk_replicate_symOutLen {n : Nat} (s : State) (x : Symbol) (e : WalkEnd) (h : n ≤ 4096) :
    (s.afterWalk ⟨List.replicate n x, e⟩).symOutLen.toNat = n := by
  rw [State.afterWalk_symOutLen s (by rwa [List.length_replicate]), List.length_replicate]

/-- Settles O47: every entry is the tree's symbol by `mem_walkSingle_out`, and the bit after the leading 0 bits, if any, says
how the walk ends (`walkSingle_of_zeros`). -/
theorem singleSymbolDecode : Obligations.SingleSymbolDecode := by
  intro s h1 h2 ht hn
  have hroom := decodeWalk_out_length s (streamOperand s s.bitLen.toNat)
  have hexec := exec_decode_afterWalk h1 h2 ht
  rw [decodeWalk_of_nsym_lt hn] at hroom hexec
  refine ⟨_, hexec, fun j hj => ?_, fun k hk hone hzeros => ?_, fun hlen hzeros => ?_, fun hlen hzeros => ?_⟩
  · rw [State.afterWalk_symOutLen s hroom] at hj
    rw [State.afterWalk_symbol? s j hroom, List.getElem?_eq_getElem hj, Option.some_or, ← firstSymbol_eq]
    exact congrArg some (mem_walkSingle_out (List.getElem_mem hj))
  · rw [walkSingle_of_zeros s.mem (by omega) hzeros (by rw [drop_eq_cons hone, walkSingle_true, Nat.zero_add])]
    exact ⟨rfl, Nat.mod_eq_of_lt (by omega), State.afterWalk_replicate_symOutLen s _ _ hk⟩
  · have hend : (streamOperand s s.bitLen.toNat).drop s.bitLen.toNat = [] := List.drop_of_length_le (by simp)
    rw [walkSingle_of_zeros s.mem (by omega) hzeros (by rw [hend, walkSingle_nil])]
    exact ⟨rfl, rfl, State.afterWalk_replicate_symOutLen s _ _ hlen⟩
  · have hlast := hzeros 4096 (by omega)
    rw [walkSingle_of_zeros s.mem (n := 4096) (by omega) (fun j hj => hzeros j (by omega))
      (by rw [drop_eq_cons hlast, walkSingle_false_full])]
    exact ⟨rfl, rfl, State.afterWalk_replicate_symOutLen s _ _ le_rfl⟩

/-! ### Without a walk -/

/-- Settles O44, by `exec_decode_tooLong`. -/
theorem decodeRefusesALongStream : Obligations.DecodeRefusesALongStream := fun _ h => exec_decode_tooLong h

/-- Settles O45, by `exec_decode_empty`. -/
theorem decodeOfNothingSucceeds : Obligations.DecodeOfNothingSucceeds :=
  fun _ h => exec_decode_empty (congrArg BitVec.toNat h)

theorem distinct_nil : distinct [] = 0 := by
  refine List.length_eq_zero_iff.2 (List.eq_nil_iff_forall_not_mem.2 fun x hx => ?_)
  exact List.not_mem_nil (mem_presentSymbols_iff_mem.1 hx)

/-- An ENCODE of nothing leaves no tree (42_decoder.md R173). -/
theorem commitEncode_nil_treeValid (s : State) : (s.commitEncode []).status.treeValid = false := by
  rw [State.commitEncode_status, Status.setTreeValid_treeValid, distinct_nil]; rfl

/-- Settles O46: the error by `exec_decode_noTree`; the input of an ENCODE of length 0 is `[]`. -/
theorem decodeWithoutTreeFails : Obligations.DecodeWithoutTreeFails := by
  refine ⟨fun s => exec_decode_noTree, rfl, fun s => ⟨_, exec_clear s, rfl⟩, fun s h => ?_⟩
  have hlen : s.symInLen.toNat = 0 := congrArg BitVec.toNat h
  refine ⟨_, exec_encode_ok (by omega), ?_⟩
  rw [hlen]
  exact commitEncode_nil_treeValid (s.takeDraws 0)

/-! ### What is kept of the output -/

/-- Settles O49: the walk's output by `State.afterWalk_symOutLen` and `State.afterWalk_symbol?`; the other ends of DECODE
write no symbol. -/
theorem decodeKeepsWhatItWrote : Obligations.DecodeKeepsWhatItWrote := by
  refine ⟨fun s h1 h2 ht => ?_, fun s h => ?_, fun s h => ⟨_, decodeOfNothingSucceeds s h, rfl, rfl⟩⟩
  · have hroom := decodeWalk_out_length s (streamOperand s s.bitLen.toNat)
    refine ⟨_, exec_decode_afterWalk h1 h2 ht, State.afterWalk_symOutLen s hroom, hroom, fun j hj => ?_, fun j hj _ => ?_⟩
    · rw [State.afterWalk_symbol? s j hroom, List.getElem?_eq_getElem hj, Option.some_or]
    · rw [State.afterWalk_symbol? s j hroom, List.getElem?_eq_none hj, Option.none_or]
  · rcases Nat.lt_or_ge 32768 s.bitLen.toNat with hlong | hshort
    · exact ⟨_, exec_decode_tooLong hlong, rfl, rfl⟩
    · obtain ⟨h1, ht⟩ := h.resolve_left (Nat.not_lt.2 hshort)
      exact ⟨_, exec_decode_noTree h1 hshort ht, rfl, rfl⟩

end Sys2Proof.Machine
end

section
/-! SUPPORT. The interrupt line (60_exceptions.md R207): what each operation does to it, and the writes that BUSY drops
(20_memory.md R68). -/

namespace Sys2Proof.Machine

/-! ### The operations -/

@[simp] theorem State.irq_issue (w : Word) (s : State) : (s.issue w).irq = false := Bool.and_false _

@[simp] theorem State.irq_succeed (s : State) : s.succeed.irq = s.ie := by simp [State.irq, Status.succeed]

@[simp] theorem State.irq_raise (e : ErrorKind) (info : Word) (s : State) : (s.raise e info).irq = s.ie := by
  simp [State.irq, Status.fail]

@[simp] theorem State.irq_endWalk (x : WalkEnd) (s : State) : (s.endWalk x).irq = s.ie := by
  cases x with
  | complete => exact State.irq_succeed s
  | badBits | ovf | trunc => exact State.irq_raise ..

/-- Every completion sets DONE or ERR and none touches IE (40_commands.md R121; 60_exceptions.md R201). -/
theorem exec_irq {i : Instr} {s t : State} (h : exec i s = .next t) : t.irq = s.ie := by
  cases i with
  | nop => cases h; exact State.irq_succeed s
  | clear => cases h; exact State.irq_succeed s.dropTree
  | encode =>
    rcases Nat.lt_or_ge 4096 s.symInLen.toNat with hlen | hlen
    · rw [exec_encode_tooLong hlen] at h; cases h; exact State.irq_raise ..
    · rw [exec_encode_ok hlen] at h; cases h; exact State.irq_succeed _
  | decode =>
    rcases exec_decode_cases s with ⟨_, he⟩ | ⟨_, he⟩ | ⟨_, _, _, he⟩ | ⟨_, _, _, he⟩ <;> rw [he] at h <;> cases h
    · exact State.irq_raise ..
    · exact State.irq_succeed _
    · exact State.irq_raise ..
    · exact State.irq_endWalk ..

/-- So does every word's, legal or not (40_commands.md R125). -/
theorem runCommand_irq {w : Word} {s t : State} (h : runCommand w s = .next t) : t.irq = s.ie := by
  cases hd : decode w with
  | command i => rw [runCommand_command hd] at h; exact exec_irq h
  | illegal x => rw [runCommand_illegal hd] at h; cases h; exact State.irq_raise ..

/-! ### The host's writes -/

/-- STATUS is no command input, so BUSY does not drop a write to it (20_memory.md R68). -/
theorem hostWrite_status (v : Word) (s : State) :
    hostWrite 0x00C#16 v s = { s.acknowledge v with rsp := some (.write false) } := by
  have ht : target 0x00C#16 = .status := by decide
  rw [hostWrite_aligned (by decide), ht]; rfl

/-- The offsets of 20_memory.md R68 name command inputs. -/
theorem target_isCommandInput {off : Offset} (h : isInputOffset off) : (target off).isCommandInput = true := by
  rcases h with rfl | rfl | rfl | ⟨hlo, hhi⟩ | ⟨hlo, hhi⟩
  · decide
  · decide
  · decide
  · simp (disch := omega) only [target, if_neg, if_pos, Target.isCommandInput]
  · simp (disch := omega) only [target, if_neg, if_pos, Target.isCommandInput]

/-- A write to a command input while BUSY = 1 leaves only BUSY_WR and its response (20_memory.md R68). -/
theorem hostWrite_dropped {off : Offset} {s : State} (hbusy : s.status.busy = true) (ha : aligned off = true)
    (hoff : isInputOffset off) (v : Word) :
    hostWrite off v s = { s with status := s.status.noteDroppedWrite, rsp := some (.write false) } := by
  rw [hostWrite_aligned ha, writeTarget, if_pos (by rw [target_isCommandInput hoff, hbusy]; rfl)]

/-- Settles O23: a completion by `runCommand_irq`, each write by the equation of `hostWrite` at its offset. -/
theorem irqFollowsCompletion : Obligations.IrqFollowsCompletion := by
  refine ⟨fun s => rfl, rfl, fun s w hidle => ?issue, fun s t w h => runCommand_irq h, fun s v hdone herr => ?acknowledge,
    fun s v hie => ?disable, fun s off v hbusy ha hoff => ?dropped⟩
  case issue => rw [hostWrite_cmd, if_neg (by simp [hidle])]; exact State.irq_issue w s
  case acknowledge => simp [hostWrite_status, State.irq, hdone, herr]
  case disable => rw [hostWrite_ctrl, hie]; rfl
  case dropped => rw [hostWrite_dropped hbusy ha hoff]; rfl

end Sys2Proof.Machine
end

section
/-! SUPPORT. The hazards between the host and a running command (70_reset_and_hazards.md R241, R242): which window of the
map each command writes, so what a busy block hides, and the input writes it drops. -/

namespace Sys2Proof.Machine

/-! ### The windows of the map -/

/-- The windows a command may write do not overlap (20_memory.md R63). -/
theorem window_cases (off : Offset) :
    (isTreeWindow off ∧ ¬ isBitBufWindow off ∧ ¬ isSymOutWindow off) ∨
    (¬ isTreeWindow off ∧ isBitBufWindow off ∧ ¬ isSymOutWindow off) ∨
    (¬ isTreeWindow off ∧ ¬ isBitBufWindow off ∧ isSymOutWindow off) ∨
    (¬ isTreeWindow off ∧ ¬ isBitBufWindow off ∧ ¬ isSymOutWindow off) := by
  unfold isTreeWindow isBitBufWindow isSymOutWindow; omega

/-- CLEAR and ENCODE write FREQ, CODELEN, NODE and CODEBITS. -/
theorem mayWrite_of_treeWindow {off : Offset} (h : isTreeWindow off) (i : Instr) :
    Instr.mayWrite i (target off) = decide (i = .clear ∨ i = .encode) := by
  rcases h with ⟨hlo, hhi⟩ | ⟨hlo, hhi⟩
  · rcases Nat.lt_or_ge off.toNat 0x0800 with hfreq | hcodeLen <;>
      simp (disch := omega) only [target, if_neg, if_pos] <;> cases i <;> rfl
  · rcases Nat.lt_or_ge off.toNat 0x2000 with hnode | hcodeBits
    · simp (disch := omega) only [target, if_neg, if_pos, nodeWordAt]
      split <;> cases i <;> rfl
    · simp (disch := omega) only [target, if_neg, if_pos]
      cases i <;> rfl

/-- ENCODE alone writes BITBUF. -/
theorem mayWrite_of_bitBufWindow {off : Offset} (h : isBitBufWindow off) (i : Instr) :
    Instr.mayWrite i (target off) = decide (i = .encode) := by
  obtain ⟨hlo, hhi⟩ := h
  simp (disch := omega) only [target, if_neg, if_pos]
  cases i <;> rfl

/-- DECODE alone writes SYM_OUT. -/
theorem mayWrite_of_symOutWindow {off : Offset} (h : isSymOutWindow off) (i : Instr) :
    Instr.mayWrite i (target off) = decide (i = .decode) := by
  obtain ⟨hlo, hhi⟩ := h
  simp (disch := omega) only [target, if_neg, if_pos]
  cases i <;> rfl

/-- No command writes a register, a reserved offset or SYM_IN. -/
theorem mayWrite_outside_windows {off : Offset} (htree : ¬ isTreeWindow off) (hbuf : ¬ isBitBufWindow off)
    (hout : ¬ isSymOutWindow off) (i : Instr) : Instr.mayWrite i (target off) = false := by
  have hrange : off.toNat < 0x0400 ∨ isReservedOffset off ∨ (0x4000 ≤ off.toNat ∧ off.toNat < 0x8000) := by
    unfold isTreeWindow at htree; unfold isBitBufWindow at hbuf; unfold isSymOutWindow at hout; unfold isReservedOffset
    omega
  rcases hrange with hreg | hres | ⟨hlo, hhi⟩
  · rw [target, if_pos hreg]; exact mayWrite_registerAt i _
  · rw [target_reserved hres]; cases i <;> rfl
  · simp (disch := omega) only [target, if_neg, if_pos]
    cases i <;> rfl

/-! ### What a running command hides -/

/-- The offsets of the windows that a command may write, as 70_reset_and_hazards.md R241 lists them. -/
def Instr.hidesOffset (off : Offset) : Instr → Prop
  | .nop => False
  | .clear => isTreeWindow off
  | .encode => isTreeWindow off ∨ isBitBufWindow off
  | .decode => isSymOutWindow off

theorem hiddenWhileRunning_iff (w : Word) (off : Offset) :
    hiddenWhileRunning w off ↔ ∃ i, w = encode i ∧ Instr.hidesOffset off i := by
  constructor
  · rintro (⟨hw, hoff⟩ | ⟨hw, hoff⟩ | ⟨hw, hoff⟩)
    exacts [⟨.encode, hw, hoff⟩, ⟨.decode, hw, hoff⟩, ⟨.clear, hw, hoff⟩]
  · rintro ⟨i, hw, hoff⟩
    cases i with
    | nop => exact hoff.elim
    | clear => exact .inr (.inr ⟨hw, hoff⟩)
    | encode => exact .inl ⟨hw, hoff⟩
    | decode => exact .inr (.inl ⟨hw, hoff⟩)

theorem mayWrite_target_iff (i : Instr) (off : Offset) :
    Instr.mayWrite i (target off) = true ↔ Instr.hidesOffset off i := by
  rcases window_cases off with ⟨htree, hbuf, hout⟩ | ⟨htree, hbuf, hout⟩ | ⟨htree, hbuf, hout⟩ | ⟨htree, hbuf, hout⟩
  · rw [mayWrite_of_treeWindow htree]; cases i <;> simp [Instr.hidesOffset, htree, hout]
  · rw [mayWrite_of_bitBufWindow hbuf]; cases i <;> simp [Instr.hidesOffset, htree, hbuf, hout]
  · rw [mayWrite_of_symOutWindow hout]; cases i <;> simp [Instr.hidesOffset, htree, hbuf, hout]
  · rw [mayWrite_outside_windows htree hbuf hout]; cases i <;> simp [Instr.hidesOffset, htree, hbuf, hout]

/-- An illegal word hides nothing, a legal one what its command may write. -/
theorem hiddenByCommand_busy_iff (op : BitVec 4) (w : Word) (t : Target) :
    hiddenByCommand (.busy op w) t = true ↔ ∃ i, w = encode i ∧ Instr.mayWrite i t = true := by
  simp only [← decode_eq_command_iff, hiddenByCommand]
  cases decode w <;> simp

/-- The model hides exactly the offsets of 70_reset_and_hazards.md R241. -/
theorem hiddenByCommand_target_iff (op : BitVec 4) (w : Word) (off : Offset) :
    hiddenByCommand (.busy op w) (target off) = true ↔ hiddenWhileRunning w off := by
  simp only [hiddenByCommand_busy_iff, mayWrite_target_iff, hiddenWhileRunning_iff]

/-- A read of a hidden target answers the next draw and takes it. -/
theorem hostRead_of_hidden {s : State} {off : Offset} (ha : aligned off = true)
    (h : hiddenByCommand s.eng (target off) = true) :
    hostRead off s = { s with rsp := some (.read (Config.freeValue s.draws) false), draws := s.draws + 1 } := by
  rw [hostRead_aligned ha, readData_of_target ha rfl, readingAt_of_hidden h]; rfl

theorem storedReading_idle (s : State) (t : Target) :
    storedReading { s with eng := .idle } t = storedReading s t := by cases t <;> rfl

/-- Where nothing is hidden, a read returns what it would with the engine idle. -/
theorem readData_eq_idle_of_shown {s : State} {off : Offset} (ha : aligned off = true)
    (h : hiddenByCommand s.eng (target off) = false) : readData s off = readData { s with eng := .idle } off := by
  rw [readData_of_shown ha rfl h, readData_of_shown ha rfl (hiddenByCommand_idle _), storedReading_idle]

/-- Settles O13, by `hiddenByCommand_target_iff`: the model hides the offsets R241 names and no other. -/
theorem runningCommandHidesItsWindows : Obligations.RunningCommandHidesItsWindows := by
  intro s w off ha heng
  have hiff := hiddenByCommand_target_iff (cmdOp w) w off
  rw [← heng] at hiff
  exact ⟨fun hhid => hostRead_of_hidden ha (hiff.2 hhid),
    fun hshown => readData_eq_idle_of_shown ha (Bool.eq_false_iff.2 (mt hiff.1 hshown))⟩

/-- Settles O15: `hostWrite_dropped`, with the mark that a dropped write leaves written out. -/
theorem busyDropsInputWrites : Obligations.BusyDropsInputWrites :=
  fun _ _ v hbusy ha hoff => hostWrite_dropped hbusy ha hoff v

end Sys2Proof.Machine
end

section
/-! SUPPORT. The words of the formats and their fields (30_encoding.md R91, R97; 10_state.md R27), and the state after
reset (10_state.md R47; 70_reset_and_hazards.md R230 to R233). -/

namespace Sys2Proof.Machine

/-! ### CMD words -/

/-- Settles O2: each word is a command's encoding, or has a reserved OP or nonzero MBZ. -/
theorem spelledWordsDecode : Obligations.SpelledWordsDecode :=
  ⟨decode_encode .nop, decode_encode .clear, decode_encode .encode, decode_encode .decode,
    decode_of_reservedOp (by decide) (by decide), decode_of_reservedOp (by decide) (by decide),
    decode_of_mbz (by decide), decode_of_mbz (by decide)⟩

/-! ### LINK -/

theorem leafLink_eq (x : Symbol) : leafLink x = 0xC0000000#32 ||| x.setWidth 32 := by
  rw [← BitVec.setWidth_eq (leafLink x), leafLink, BitVec.setWidth_append_eq_shiftLeft_setWidth_or]
  rfl

theorem internalLink_eq (a b : NodeIndex) :
    internalLink a b = 0x40000000#32 ||| (b.setWidth 32 <<< 16) ||| a.setWidth 32 := by
  rw [← BitVec.setWidth_eq (internalLink a b), internalLink]
  simp only [BitVec.setWidth_append_eq_shiftLeft_setWidth_or, BitVec.shiftLeft_or_distrib, ← BitVec.shiftLeft_add]
  simp

/-- Settles O3: the words by `leafLink_eq` and `internalLink_eq`, the fields by the laws of the LINK format. -/
theorem linkWordsHoldTheirFields : Obligations.LinkWordsHoldTheirFields :=
  ⟨fun x => ⟨leafLink_eq x, linkIsLeaf_leafLink x, linkSymbol_leafLink x⟩,
    fun a b => ⟨internalLink_eq a b, linkIsLeaf_internalLink a b, linkLeft_internalLink a b,
      linkRight_internalLink a b⟩⟩

/-! ### STATUS -/

/-- Settles O7: a bit or a field of a concatenation is one of the part it falls in. -/
theorem statusWordHoldsItsFields : Obligations.StatusWordHoldsItsFields := by
  intro t
  simp (disch := omega) only [Status.toWord, BitVec.getLsbD_append, BitVec.getLsbD_ofBool,
    BitVec.extractLsb'_append_eq_of_le, BitVec.extractLsb'_append_eq_right, BitVec.extractLsb'_eq_self, Nat.reduceLT,
    Nat.reduceSub, decide_true, Bool.true_and, ↓reduceIte, and_self]

/-! ### Reset -/

theorem isTableByte_of_ge {a : Nat} (h : 0x4000 ≤ a) : isTableByte a = false := by
  rw [Bool.eq_false_iff, Ne, isTableByte_iff]; omega

theorem isBufferByte_iff (a : Nat) :
    isBufferByte a = true ↔ (0x4000 ≤ a ∧ a < 0xC000 ∧ a % 4 = 0) ∨ (0xC000 ≤ a ∧ a < 0xD000) := by
  simp [isBufferByte, and_assoc]

theorem unlistedByte_of_buffer {a : Nat} (h : isBufferByte a = true) : unlistedByte a = none := by
  rw [isBufferByte_iff] at h
  rw [unlistedByte, isTableByte_of_ge (by omega)]; rfl

theorem isBufferByte_symIn {i : Nat} (h : i < 4096) : isBufferByte (symInAddr i) = true := by
  rw [isBufferByte_iff, symInAddr]; omega

theorem isBufferByte_symOut {i : Nat} (h : i < 4096) : isBufferByte (symOutAddr i) = true := by
  rw [isBufferByte_iff, symOutAddr]; omega

theorem isBufferByte_bitBuf {w : Nat} (h : w < 1024) : isBufferByte (bitBufAddr w) = true := by
  rw [isBufferByte_iff, bitBufAddr]; omega

/-- A word with an unwritten byte has no value. -/
theorem Memory.word?_eq_none {m : Memory} {a : Nat} (h : Memory.byte? m a = none) : Memory.word? m a = none := by
  rw [Memory.word?, h]

/-- Settles O4: the registers by `registersReadAtTheirOffsets`, and nothing is listed in memory. -/
theorem resetStateIsIdleWithoutTree : Obligations.ResetStateIsIdleWithoutTree := by
  obtain ⟨hid, hparam, _, hstatus, hctrl, hlen, hbits, hout, hnsym, hroot, hnnodes, hinfo⟩ :=
    registersReadAtTheirOffsets State.reset
  exact ⟨rfl, hstatus, rfl, rfl, rfl, rfl, rfl, rfl, hid, hparam, hctrl, hlen, hbits, hout, hnsym, hroot, hnnodes,
    hinfo, fun a ha => unlistedByte_of_table ha,
    fun i hi => ⟨unlistedByte_of_buffer (isBufferByte_symIn hi), unlistedByte_of_buffer (isBufferByte_symOut hi)⟩,
    fun w hw => Memory.word?_eq_none (unlistedByte_of_buffer (isBufferByte_bitBuf hw))⟩

/-- Settles O5: the turn is Reset's, and its step is `State.resetStep`. -/
theorem resetStepResetsEverything : Obligations.ResetStepResetsEverything := by
  intro s ts hok hturns
  have hnext : nextTurn s = .reset := by rw [nextTurn, hturns]
  refine ⟨s.popTurn.resetStep, ?_, rfl, by rw [State.resetStep_status]; decide, rfl, rfl, rfl, rfl, rfl, rfl, rfl, rfl,
    rfl, rfl, rfl, fun a => unlistedByte_of_table, fun a => unlistedByte_of_buffer, ?_, rfl, le_rfl⟩
  · rw [step_eq_takeTurn hok, hnext, takeTurn]
  · rw [State.resetStep_turns, State.popTurn_turns, hturns, List.tail_cons]

/-- Settles O53: the reset STATUS and ENG by their values, memory and the tree because nothing is listed. -/
theorem resetSatisfiesTheInvariant : Obligations.ResetSatisfiesTheInvariant :=
  ⟨by unfold Status.Ok; decide, rfl, Memory.wf_nil, Memory.bitBufWhole_nil, by decide,
    .inl (State.noTree_of_empty rfl rfl rfl rfl rfl)⟩

end Sys2Proof.Machine
end

section
/-! SUPPORT. The window and the host's transactions: where each entry lies (20_memory.md R63), what a read of it returns
(R67), what an accepted write stores (R68), and the steps of the host's operations (30_encoding.md R101, R102). -/

namespace Sys2Proof.Machine

/-! ### The map -/

/-- An offset is the 16-bit word of its value. -/
theorem offset_eq {off : Offset} {a : Nat} (h : off.toNat = a) : off = BitVec.ofNat 16 a := by
  rw [← h, BitVec.ofNat_toNat, BitVec.setWidth_eq]

theorem toNat_offset {a : Nat} (h : a < 0x10000) : (BitVec.ofNat 16 a).toNat = a := Nat.mod_eq_of_lt h

theorem target_freq {x : Nat} (h : x < 256) : target (BitVec.ofNat 16 (freqAddr x)) = .freq x := by
  have e := toNat_offset (a := freqAddr x) (by rw [freqAddr]; omega)
  rw [freqAddr] at e ⊢
  simp (disch := omega) only [target, e, if_neg, if_pos]
  congr 1; omega

theorem target_codeLen {x : Nat} (h : x < 256) : target (BitVec.ofNat 16 (codeLenAddr x)) = .codeLen x := by
  have e := toNat_offset (a := codeLenAddr x) (by rw [codeLenAddr]; omega)
  rw [codeLenAddr] at e ⊢
  simp (disch := omega) only [target, e, if_neg, if_pos]
  congr 1; omega

theorem target_codeBits {x k : Nat} (hx : x < 256) (hk : k < 8) :
    target (BitVec.ofNat 16 (codeBitsAddr x k)) = .codeBits x k := by
  have e := toNat_offset (a := codeBitsAddr x k) (by rw [codeBitsAddr]; omega)
  rw [codeBitsAddr] at e ⊢
  simp (disch := omega) only [target, e, if_neg, if_pos]
  congr 1 <;> omega

theorem target_nodeLink {i : Nat} (h : i < 512) : target (BitVec.ofNat 16 (nodeLinkAddr i)) = .nodeLink i := by
  have e := toNat_offset (a := nodeLinkAddr i) (by rw [nodeLinkAddr]; omega)
  rw [nodeLinkAddr] at e ⊢
  simp (disch := omega) only [target, e, nodeWordAt, if_neg, if_pos]
  congr 1; omega

theorem target_nodeFreq {i : Nat} (h : i < 512) : target (BitVec.ofNat 16 (nodeFreqAddr i)) = .nodeFreq i := by
  have e := toNat_offset (a := nodeFreqAddr i) (by rw [nodeFreqAddr]; omega)
  rw [nodeFreqAddr] at e ⊢
  simp (disch := omega) only [target, e, nodeWordAt, if_neg, if_pos]
  congr 1; omega

theorem selectsBlock_iff (addr : Nat) :
    selectsBlock addr = true ↔ Config.huffBase ≤ addr ∧ addr < Config.huffBase + 0x10000 := by
  simp [selectsBlock]

/-- Settles O10: the bus addresses by the alignment of HUFF_BASE, the entries by the `target` law of each window. -/
theorem windowMapsEveryEntry : Obligations.WindowMapsEveryEntry := by
  have hbase := huffBase_mod
  refine ⟨hbase, fun off => ⟨?_, ?_⟩, fun addr haddr => ?_, fun x hx => ⟨target_freq hx, target_codeLen hx⟩,
    fun x k hx hk => target_codeBits hx hk, fun i hi => ⟨target_nodeLink hi, target_nodeFreq hi⟩,
    fun i hi => ⟨target_symIn hi, target_symOut hi⟩, fun w hw => target_bitBuf hw, fun off => target_reserved⟩
  · have := off.isLt
    rw [selectsBlock_iff, busAddress]; omega
  · have := off.isLt
    apply BitVec.eq_of_toNat_eq
    rw [portOffset, busAddress, BitVec.toNat_ofNat]; omega
  · rw [selectsBlock_iff] at haddr
    rw [busAddress, portOffset, BitVec.toNat_ofNat]; omega

/-! ### Reads -/

/-- What no running command hides, the model does not hide (70_reset_and_hazards.md R241). -/
theorem State.Shows.hiddenByCommand {s : State} {off : Offset} (h : s.Shows off) :
    hiddenByCommand s.eng (target off) = false := by
  cases heng : s.eng with
  | idle => rfl
  | busy op w => exact Bool.eq_false_iff.2 (mt (hiddenByCommand_target_iff op w off).1 (h op w heng))

/-- What a read of a shown entry returns. -/
theorem State.Shows.readData {s : State} {off : Offset} {t : Target} (h : s.Shows off) (ha : off.toNat % 4 = 0)
    (ht : target off = t) : readData s off = (storedReading s t).word s.draws :=
  readData_of_shown (aligned_of_mod ha) ht (ht ▸ h.hiddenByCommand)

theorem symbolReading_some {m : Memory} {a : Nat} {x : Symbol} (h : Memory.symbol? m a = some x) :
    symbolReading m a = .value (x.setWidth 32) := by rw [symbolReading, h]

theorem symbolReading_none {m : Memory} {a : Nat} (h : Memory.symbol? m a = none) : symbolReading m a = .anySym := by
  rw [symbolReading, h]

theorem bitBufReading_some {m : Memory} {w : Nat} {v : Word} (h : Memory.word? m (bitBufAddr w) = some v) :
    bitBufReading m w = .value v := by rw [bitBufReading, h]

theorem bitBufReading_none {m : Memory} {w : Nat} (h : Memory.word? m (bitBufAddr w) = none) :
    bitBufReading m w = .anyWord := by rw [bitBufReading, h]

/-- A read keeps every register, flag and byte (20_memory.md R67), also as the step that uses up its turn. -/
theorem sameBlock_hostRead (off : Offset) (s : State) (p : List HostOp) (ts : List Turn) :
    s.SameBlock (hostRead off { s with program := p, turns := ts }) := by
  rw [hostRead_eq]
  exact ⟨rfl, rfl, rfl, rfl, rfl, rfl, rfl, rfl, rfl, rfl, rfl⟩

/-- Settles O8: the step by `step_rd` and `hostRead_eq`, the values by the target of each entry's offset. -/
theorem readChangesNoState : Obligations.ReadChangesNoState := by
  refine ⟨fun s off rest hok hnext hprog => ⟨_, step_rd hok hnext hprog, sameBlock_hostRead off s rest _, ?_, ?_, ?_,
      hostRead_draws off { s with program := rest, turns := s.turns.tail }⟩,
    fun s off x hx hs => ⟨fun h => ?_, fun h => ?_, fun k hk h => ?_⟩, fun s off i hi hs => ⟨fun h => ?_, fun h => ?_⟩,
    fun s off i y hi hs => ⟨fun h hy => ?_, fun h hy => ?_⟩, fun s off w v hw hs h hv => ?_⟩
  · rw [hostRead_eq]
  · rw [hostRead_eq]
  · rw [hostRead_rsp, readData_host]
  · exact hs.readData (by omega) (offset_eq h ▸ target_freq hx)
  · exact hs.readData (by omega) (offset_eq h ▸ target_codeLen hx)
  · exact hs.readData (by omega) (offset_eq h ▸ target_codeBits hx hk)
  · exact hs.readData (by omega) (offset_eq h ▸ target_nodeLink hi)
  · exact hs.readData (by omega) (offset_eq h ▸ target_nodeFreq hi)
  · rw [hs.readData (by omega) (offset_eq h ▸ target_symIn hi), storedReading, symbolReading_some hy]; rfl
  · rw [hs.readData (by omega) (offset_eq h ▸ target_symOut hi), storedReading, symbolReading_some hy]; rfl
  · rw [hs.readData (by omega) (offset_eq h ▸ target_bitBuf hw), storedReading, bitBufReading_some hv]; rfl

/-! ### Bus errors -/

theorem misaligned_iff (off : Offset) : aligned off = false ↔ off.extractLsb' 0 2 ≠ 0#2 := by
  rw [Ne, ← aligned_iff, Bool.not_eq_true]

/-- Settles O9, by the two equations of a read and of a write, aligned and misaligned. -/
theorem onlyMisalignedTransactionsAreBusErrors : Obligations.OnlyMisalignedTransactionsAreBusErrors := by
  intro s off v rest hok hnext
  refine ⟨fun hprog => ⟨_, step_rd hok hnext hprog, fun hoff => ?_, fun hoff => ?_⟩,
    fun hprog => ⟨step_wr hok hnext hprog, _, step_wr hok hnext hprog, fun hoff => ?_, fun hoff => ?_⟩⟩
  · rw [hostRead_misaligned ((misaligned_iff off).2 hoff)]
    exact ⟨rfl, ⟨rfl, rfl, rfl, rfl, rfl, rfl, rfl, rfl, rfl, rfl, rfl⟩, rfl⟩
  · rw [hostRead_aligned ((aligned_iff off).2 hoff)]
    exact ⟨_, rfl⟩
  · rw [hostWrite_misaligned ((misaligned_iff off).2 hoff)]
    exact ⟨rfl, ⟨rfl, rfl, rfl, rfl, rfl, rfl, rfl, rfl, rfl, rfl, rfl⟩, rfl⟩
  · rw [hostWrite_aligned ((aligned_iff off).2 hoff)]

/-! ### Writes -/

/-- An idle block stores a SYM_IN write in the entry's byte (30_encoding.md R94). -/
theorem hostWrite_symIn {i : Nat} (hi : i < 4096) {s : State} (hidle : s.status.busy = false) (v : Word) :
    hostWrite (BitVec.ofNat 16 (symInAddr i)) v s =
      { s with mem := Memory.setByte s.mem (symInAddr i) (v.setWidth 8), rsp := some (.write false) } := by
  rw [hostWrite_aligned (aligned_symIn i), target_symIn hi, writeTarget, hidle, Bool.and_false,
    if_neg Bool.false_ne_true, acceptWrite, BitVec.setWidth_eq_extractLsb' (by decide)]

/-- An idle block stores a BITBUF write in the word's four bytes (30_encoding.md R95). -/
theorem hostWrite_bitBuf {w : Nat} (hw : w < 1024) {s : State} (hidle : s.status.busy = false) (v : Word) :
    hostWrite (BitVec.ofNat 16 (bitBufAddr w)) v s =
      { s with mem := Memory.setWord s.mem (bitBufAddr w) v, rsp := some (.write false) } := by
  rw [hostWrite_aligned (aligned_bitBuf w), target_bitBuf hw, writeTarget, hidle, Bool.and_false,
    if_neg Bool.false_ne_true, acceptWrite]

theorem hostWrite_symInLen {s : State} (hidle : s.status.busy = false) (v : Word) :
    hostWrite 0x014#16 v s = { s with symInLen := v, rsp := some (.write false) } := by
  have ht : target 0x014#16 = .symInLen := by decide
  rw [hostWrite_aligned (by decide), ht, writeTarget, hidle]; rfl

theorem hostWrite_bitLen {s : State} (hidle : s.status.busy = false) (v : Word) :
    hostWrite 0x018#16 v s = { s with bitLen := v, rsp := some (.write false) } := by
  have ht : target 0x018#16 = .bitLen := by decide
  rw [hostWrite_aligned (by decide), ht, writeTarget, hidle]; rfl

/-- An idle block reads a written entry of SYM_IN as its symbol. -/
theorem readData_symIn {i : Nat} (hi : i < 4096) {s : State} (heng : s.eng = .idle) {x : Symbol}
    (h : Memory.symbol? s.mem (symInAddr i) = some x) : readData s (BitVec.ofNat 16 (symInAddr i)) = x.setWidth 32 := by
  rw [readData_of_shown (aligned_symIn i) (target_symIn hi) (by rw [heng]; rfl), storedReading, symbolReading_some h]
  rfl

/-- An idle block reads a written word of BITBUF as it stands. -/
theorem readData_bitBuf {w : Nat} (hw : w < 1024) {s : State} (heng : s.eng = .idle) {v : Word}
    (h : Memory.word? s.mem (bitBufAddr w) = some v) : readData s (BitVec.ofNat 16 (bitBufAddr w)) = v := by
  rw [readData_of_shown (aligned_bitBuf w) (target_bitBuf hw) (by rw [heng]; rfl), storedReading, bitBufReading_some h]
  rfl

/-- Settles O16: each write by its equation, the value read back and the frame by the laws of storage. -/
theorem idleInputWritesAreStored : Obligations.IdleInputWritesAreStored := by
  intro s v hidle heng
  refine ⟨hostWrite_symInLen hidle v, hostWrite_bitLen hidle v,
    fun i hi => ⟨_, hostWrite_symIn hi hidle v, rfl, ?_, ?_⟩, fun w hw => ⟨_, hostWrite_bitBuf hw hidle v, rfl, ?_, ?_⟩⟩
  · exact readData_symIn hi (by exact heng) (Memory.byte?_setByte_same s.mem _ _ (hasStorage_symIn hi))
  · exact fun a ha => Memory.byte?_setByte_other _ _ ha
  · exact readData_bitBuf hw (by exact heng) (Memory.word?_setWord_same s.mem _ _ (wordStorage_bitBuf hw))
  · exact fun a ha => (Memory.byte?_setWord _ _ _ _).trans (if_neg (by omega))

theorem and_not_eq_ite (b clear : Bool) : (b && !clear) = if clear then false else b := by cases clear <;> simp

/-- Settles O17: `hostWrite_status`, and `Status.writeOneToClear` field by field. -/
theorem statusWriteClearsWhatItNames : Obligations.StatusWriteClearsWhatItNames := fun s v =>
  ⟨_, hostWrite_status v s, rfl, and_not_eq_ite _ _, and_not_eq_ite _ _, rfl, and_not_eq_ite _ _, rfl, rfl, rfl⟩

/-! ### Unwritten entries -/

/-- A read that finds no symbol answers the low byte of the next draw and takes it (70_reset_and_hazards.md R232). -/
theorem hostRead_of_anySym {s : State} {off : Offset} {t : Target} (ha : aligned off = true) (ht : target off = t)
    (h : readingAt s t = .anySym) : hostRead off s =
      { s with rsp := some (.read (((Config.freeValue s.draws).setWidth 8).setWidth 32) false),
               draws := s.draws + 1 } := by
  rw [hostRead_aligned ha, readData_of_target ha ht, ht, h]; rfl

/-- A read that finds no word answers the next draw and takes it. -/
theorem hostRead_of_anyWord {s : State} {off : Offset} {t : Target} (ha : aligned off = true) (ht : target off = t)
    (h : readingAt s t = .anyWord) : hostRead off s =
      { s with rsp := some (.read (Config.freeValue s.draws) false), draws := s.draws + 1 } := by
  rw [hostRead_aligned ha, readData_of_target ha ht, ht, h]; rfl

theorem readingAt_of_idle {s : State} (h : s.eng = .idle) (t : Target) : readingAt s t = storedReading s t :=
  readingAt_of_shown (by rw [h]; rfl)

/-! ### The engine's operands -/

theorem symInOperand_getElem? {s : State} {len i : Nat} (h : i < len) :
    (symInOperand s len)[i]? = some (symInEntry s.mem i (s.draws + i)) := by
  rw [List.getElem?_eq_getElem (by rwa [symInOperand_length]), symInOperand_getElem]

theorem streamOperand_getElem? {s : State} {len k : Nat} (h : k < len) :
    (streamOperand s len)[k]? = some (streamBit s.mem k (s.draws + k)) := by
  rw [List.getElem?_eq_getElem (by rwa [streamOperand_length]), streamOperand_getElem]

theorem symInEntry_none {m : Memory} {i : Nat} (h : Memory.symbol? m (symInAddr i) = none) (n : Nat) :
    symInEntry m i n = anySymbol n := by rw [symInEntry, h]

theorem symInEntry_some {m : Memory} {i : Nat} {x : Symbol} (h : Memory.symbol? m (symInAddr i) = some x) (n : Nat) :
    symInEntry m i n = x := by rw [symInEntry, h]

theorem streamBit_none {m : Memory} {k : Nat} (h : Memory.word? m (bitBufAddr (k / 32)) = none) (n : Nat) :
    streamBit m k n = msbBit (anyWord n) k := by rw [streamBit, h]

theorem streamBit_some {m : Memory} {k : Nat} {v : Word} (h : Memory.word? m (bitBufAddr (k / 32)) = some v) (n : Nat) :
    streamBit m k n = msbBit v k := by rw [streamBit, h]

/-- Settles O14: the host's reads by `hostRead_of_anySym` and `hostRead_of_anyWord`, the engine's by `symInEntry` and
`streamBit` of each entry, the writes by their equations. -/
theorem unwrittenBufferEntriesReadFreshDraws : Obligations.UnwrittenBufferEntriesReadFreshDraws := by
  refine ⟨fun s i hi heng => ⟨fun h => ?_, fun h => ?_⟩, fun s w hw heng h => ?_, fun s len i hi h => ?_,
    fun s len k hk h => ?_, fun s len => ⟨symInOperand_length s len, streamOperand_length s len⟩,
    fun s len i y hi h => ?_, fun s len k v hk h => ?_, fun s i v hi hidle => ?_, fun s w v hw hidle => ?_⟩
  · exact hostRead_of_anySym (aligned_symIn i) (target_symIn hi)
      ((readingAt_of_idle heng _).trans (symbolReading_none h))
  · exact hostRead_of_anySym (aligned_symOut i) (target_symOut hi)
      ((readingAt_of_idle heng _).trans (symbolReading_none h))
  · exact hostRead_of_anyWord (aligned_bitBuf w) (target_bitBuf hw)
      ((readingAt_of_idle heng _).trans (bitBufReading_none h))
  · rw [symInOperand_getElem? hi, symInEntry_none h]; rfl
  · rw [streamOperand_getElem? hk, streamBit_none h]; rfl
  · rw [symInOperand_getElem? hi, symInEntry_some h]
  · rw [streamOperand_getElem? hk, streamBit_some h]; rfl
  · rw [hostWrite_symIn hi hidle]
    exact Memory.byte?_setByte_same _ _ _ (hasStorage_symIn hi)
  · rw [hostWrite_bitBuf hw hidle]
    exact Memory.word?_setWord_same _ _ _ (wordStorage_bitBuf hw)

/-! ### The host's program -/

/-- Settles O59, by `step_nonWord`. -/
theorem nonWordTransfersAreRefused : Obligations.NonWordTransfersAreRefused :=
  fun _ _ _ _ hok hnext hprog => step_nonWord hok hnext hprog

/-- Settles O60: a POLL's step by `step_poll`, an expansion by its definition and the range of its index. -/
theorem hostNotationMeansItsTransactions : Obligations.HostNotationMeansItsTransactions := by
  refine ⟨fun s off mask val rest hok hnext hprog =>
      ⟨_, step_poll hok hnext hprog, sameBlock_hostRead off s _ _, ?_, ?_⟩,
    rfl, rfl, rfl, rfl, rfl, rfl, fun i x hi => ⟨_, rfl, toNat_offset ?_⟩, fun w v hw => ⟨_, rfl, toNat_offset ?_⟩,
    fun i hi => ⟨_, rfl, toNat_offset ?_⟩, fun w hw => ⟨_, rfl, toNat_offset ?_⟩⟩
  · rw [hostRead_rsp, readData_host]
  · rw [hostRead_eq]
  · rw [symInAddr]; omega
  · rw [bitBufAddr]; omega
  · rw [symOutAddr]; omega
  · rw [bitBufAddr]; omega

end Sys2Proof.Machine
end

section
/-! SUPPORT. The codes under a slot of a builder's forest: their paths, their lengths, that none begins another, and their Kraft
sum, by the recursion of `walkCodes` from a slot to its children (41_encoder.md R150, R157). -/

namespace Sys2Proof.Machine

/-! ### Slots, from the leaves up -/

/-- A property of the leaves that two children hand to their parent holds of every used slot. -/
theorem ChildrenBelow.slot_induction {nodes : List TreeNode} (hb : ChildrenBelow nodes)
    {motive : (i : Nat) → i < nodes.length → Prop}
    (leaf : ∀ i x f hi, nodes[i]? = some ⟨.leaf x, f⟩ → motive i hi)
    (internal : ∀ i l r f hi hl hr, nodes[i]? = some ⟨.internal l r, f⟩ → motive l hl → motive r hr → motive i hi)
    (i : Nat) (hi : i < nodes.length) : motive i hi := by
  induction i using Nat.strong_induction_on with
  | _ i ih =>
    have hn := List.getElem?_eq_getElem hi
    match hnode : nodes[i], hn with
    | ⟨.leaf x, f⟩, hn => exact leaf i x f hi hn
    | ⟨.internal l r, f⟩, hn =>
      obtain ⟨hl, hr⟩ := hb i l r f hn
      exact internal i l r f hi (hl.trans hi) (hr.trans hi) hn (ih l hl _) (ih r hr _)

/-! ### The codes under a slot -/

/-- The leaves under a slot with their paths from it, left to right (41_encoder.md R150). -/
def slotCodes (nodes : List TreeNode) (slot : Nat) : List (Symbol × BitString) := walkCodes nodes (slot + 1) slot []

/-- A table entry with one bit more in front of its code. -/
def consBit (b : Bool) (p : Symbol × BitString) : Symbol × BitString := (p.1, b :: p.2)

/-- A walk puts its path in front of the codes under the slot, whatever its bound, once that exceeds the slot. -/
theorem walkCodes_eq_map {nodes : List TreeNode} (hb : ChildrenBelow nodes) {fuel slot : Nat} (path : BitString)
    (h : slot < fuel) :
    walkCodes nodes fuel slot path = (slotCodes nodes slot).map fun p => (p.1, path ++ p.2) := by
  induction slot using Nat.strong_induction_on generalizing fuel path with
  | _ slot ih =>
    obtain ⟨fuel, rfl⟩ : ∃ n, fuel = n + 1 := ⟨fuel - 1, by omega⟩
    simp only [slotCodes, walkCodes]
    split
    · rfl
    · simp
    next l r f hn =>
      obtain ⟨hl, hr⟩ := hb _ _ _ _ hn
      rw [ih l hl _ (by omega : l < fuel), ih r hr _ (by omega : r < fuel), ih l hl _ hl, ih r hr _ hr]
      simp [Function.comp_def]

theorem slotCodes_leaf {nodes : List TreeNode} {i f : Nat} {x : Symbol} (h : nodes[i]? = some ⟨.leaf x, f⟩) :
    slotCodes nodes i = [(x, [])] := by
  simp [slotCodes, walkCodes, h]

theorem slotCodes_internal {nodes : List TreeNode} (hb : ChildrenBelow nodes) {i l r f : Nat}
    (h : nodes[i]? = some ⟨.internal l r, f⟩) :
    slotCodes nodes i =
      (slotCodes nodes l).map (consBit false) ++ (slotCodes nodes r).map (consBit true) := by
  obtain ⟨hl, hr⟩ := hb _ _ _ _ h
  conv_lhs => simp only [slotCodes, walkCodes, h]
  rw [walkCodes_eq_map hb _ hl, walkCodes_eq_map hb _ hr]
  rfl

theorem slotCodes_append {nodes : List TreeNode} (hb : ChildrenBelow nodes) (more : List TreeNode) {slot : Nat}
    (h : slot < nodes.length) : slotCodes (nodes ++ more) slot = slotCodes nodes slot :=
  walkCodes_append hb _ _ _ h

section
variable {nodes : List TreeNode} (hb : ChildrenBelow nodes) {slot : Nat} (hslot : slot < nodes.length)
include hb hslot

theorem slotCodes_length_pos : 1 ≤ (slotCodes nodes slot).length := by
  induction slot, hslot using hb.slot_induction with
  | leaf i x f hi h => rw [slotCodes_leaf h]; exact le_rfl
  | internal i l r f hi hl hr h ihl ihr =>
    rw [slotCodes_internal hb h, List.length_append, List.length_map, List.length_map]; omega

/-- A code is shorter than the number of leaves it is told apart from (41_encoder.md R150). -/
theorem slotCodes_code_length : ∀ p ∈ slotCodes nodes slot, p.2.length + 1 ≤ (slotCodes nodes slot).length := by
  induction slot, hslot using hb.slot_induction with
  | leaf i x f hi h => simp [slotCodes_leaf h]
  | internal i l r f hi hl hr h ihl ihr =>
    have posl := slotCodes_length_pos hb hl
    have posr := slotCodes_length_pos hb hr
    rw [slotCodes_internal hb h]
    simp only [List.mem_append, List.mem_map, List.length_append, List.length_map, consBit]
    rintro _ (⟨p, hp, rfl⟩ | ⟨p, hp, rfl⟩)
    · have := ihl p hp; simp only [List.length_cons]; omega
    · have := ihr p hp; simp only [List.length_cons]; omega

/-- A code leads from the slot to its symbol's leaf (41_encoder.md R150). -/
theorem follow_slotCodes : ∀ p ∈ slotCodes nodes slot,
    ∃ j f, follow nodes slot p.2 = some j ∧ nodes[j]? = some ⟨.leaf p.1, f⟩ := by
  induction slot, hslot using hb.slot_induction with
  | leaf i x f hi h =>
    simp only [slotCodes_leaf h, List.mem_singleton]
    rintro _ rfl
    exact ⟨i, f, rfl, h⟩
  | internal i l r f hi hl hr h ihl ihr =>
    rw [slotCodes_internal hb h]
    simp only [List.mem_append, List.mem_map]
    rintro _ (⟨p, hp, rfl⟩ | ⟨p, hp, rfl⟩)
    · simpa [consBit, follow, h] using ihl p hp
    · simpa [consBit, follow, h] using ihr p hp

/-- No code under a slot is the beginning of another's (41_encoder.md R157). -/
theorem slotCodes_prefixFree :
    ∀ p ∈ slotCodes nodes slot, ∀ q ∈ slotCodes nodes slot, p.2 <+: q.2 → p = q := by
  induction slot, hslot using hb.slot_induction with
  | leaf i x f hi h => simp [slotCodes_leaf h]
  | internal i l r f hi hl hr h ihl ihr =>
    rw [slotCodes_internal hb h]
    simp only [List.mem_append, List.mem_map]
    rintro _ (⟨p, hp, rfl⟩ | ⟨p, hp, rfl⟩) _ (⟨q, hq, rfl⟩ | ⟨q, hq, rfl⟩) hpq <;>
      obtain ⟨hbit, hpq⟩ := List.cons_prefix_cons.1 hpq
    · rw [ihl p hp q hq hpq]
    · cases hbit
    · cases hbit
    · rw [ihr p hp q hq hpq]

/-- The codes under a slot fill its tree: the sum of 2^(-length) is 1, in units of 2^(-n) (41_encoder.md R157). -/
theorem slotCodes_kraft {n : Nat} (hn : ∀ p ∈ slotCodes nodes slot, p.2.length ≤ n) :
    ((slotCodes nodes slot).map fun p => 2 ^ (n - p.2.length)).sum = 2 ^ n := by
  induction slot, hslot using hb.slot_induction generalizing n with
  | leaf i x f hi h => simp [slotCodes_leaf h]
  | internal i l r f hi hl hr h ihl ihr =>
    rw [slotCodes_internal hb h] at hn ⊢
    obtain ⟨p, hp⟩ := List.exists_mem_of_length_pos (slotCodes_length_pos hb hl)
    have hpos := hn (consBit false p) (List.mem_append_left _ (List.mem_map_of_mem hp))
    obtain ⟨m, rfl⟩ : ∃ m, n = m + 1 := ⟨n - 1, by simp only [consBit, List.length_cons] at hpos; omega⟩
    have half {b : Bool} {q : Symbol × BitString} : (consBit b q).2.length ≤ m + 1 ↔ q.2.length ≤ m := by simp [consBit]
    have hsuml := ihl fun q hq => half.1 (hn _ (List.mem_append_left _ (List.mem_map_of_mem hq)))
    have hsumr := ihr fun q hq => half.1 (hn _ (List.mem_append_right _ (List.mem_map_of_mem hq)))
    simp only [List.map_append, List.map_map, List.sum_append, Function.comp_def, consBit, List.length_cons,
      Nat.add_sub_add_right, hsuml, hsumr]
    omega

end

end Sys2Proof.Machine
end

section
/-! SUPPORT. What the merge loop keeps of frequencies, keys and slots, and the full tree that it ends
with (41_encoder.md R143 to R147). -/

namespace Sys2Proof.Machine

/-! ### The present symbols as a set -/

theorem presentSymbols_toFinset (input : List Symbol) : (presentSymbols input).toFinset = input.toFinset := by
  ext x
  rw [List.mem_toFinset, List.mem_toFinset, mem_presentSymbols_iff_mem]

theorem distinct_eq_card (input : List Symbol) : distinct input = input.toFinset.card := by
  rw [← presentSymbols_toFinset, List.toFinset_card_of_nodup (presentSymbols_nodup input), distinct]

theorem distinct_pos_iff (input : List Symbol) : 1 ≤ distinct input ↔ 1 ≤ input.length := by
  rw [distinct_eq_card, Nat.succ_le_iff, Nat.succ_le_iff, Finset.card_pos, List.toFinset_nonempty_iff,
    List.length_pos_iff]

theorem sum_presentSymbols (input : List Symbol) (g : Symbol → Nat) :
    ((presentSymbols input).map g).sum = ∑ x ∈ input.toFinset, g x := by
  rw [← presentSymbols_toFinset, List.sum_toFinset g (presentSymbols_nodup input)]

/-- There is one ascending list of the symbols that occur (41_encoder.md R143). -/
theorem eq_presentSymbols {input syms : List Symbol} (hrise : syms.Pairwise fun x y => x.toNat < y.toNat)
    (hmem : ∀ x, x ∈ syms ↔ 1 ≤ input.count x) : syms = presentSymbols input := by
  have : Std.Irrefl fun x y : Symbol => x.toNat < y.toNat := ⟨fun x => Nat.lt_irrefl _⟩
  have : Std.Antisymm fun x y : Symbol => x.toNat < y.toNat := ⟨fun x y h h' => absurd h' (Nat.lt_asymm h)⟩
  exact hrise.eq_of_mem_iff (presentSymbols_rising input) fun x => (hmem x).trans (mem_presentSymbols input x).symm

/-! ### The removal -/

/-- The least key comes before every other, or is it (41_encoder.md R145). -/
theorem leastKey_le (k : LiveKey) (ks : List LiveKey) : ∀ k' ∈ k :: ks,
    (leastKey k ks).freq < k'.freq ∨ ((leastKey k ks).freq = k'.freq ∧ (leastKey k ks).slot ≤ k'.slot) := by
  induction ks generalizing k with
  | nil => simp [leastKey]
  | cons x ks ih =>
    intro k' hk'
    have hx := ih x
    have hk := ih k
    have hxx := hx x List.mem_cons_self
    have hkk := hk k List.mem_cons_self
    simp only [leastKey]
    split
    case isTrue hbefore =>
      simp only [LiveKey.before, Bool.or_eq_true, Bool.and_eq_true, decide_eq_true_eq, beq_iff_eq] at hbefore
      rcases List.mem_cons.1 hk' with rfl | hk'
      · omega
      · exact hx k' hk'
    case isFalse hbefore =>
      simp only [LiveKey.before, Bool.or_eq_true, Bool.and_eq_true, decide_eq_true_eq, beq_iff_eq] at hbefore
      rcases List.mem_cons.1 hk' with rfl | hk'
      · exact hkk
      · rcases List.mem_cons.1 hk' with rfl | hk'
        · omega
        · exact hk k' (List.mem_cons_of_mem _ hk')

theorem removeLeast_le {live rest : List LiveKey} {a : LiveKey} (h : removeLeast live = some (a, rest)) :
    ∀ k ∈ live, a.freq < k.freq ∨ (a.freq = k.freq ∧ a.slot ≤ k.slot) := by
  cases live with
  | nil => cases h
  | cons k ks => cases h; exact leastKey_le k ks

theorem removeLeast_perm {live rest : List LiveKey} {a : LiveKey} (h : removeLeast live = some (a, rest)) :
    live.Perm (a :: rest) := by
  obtain ⟨ha, rfl, _⟩ := removeLeast_some h
  exact List.perm_cons_erase ha

theorem exists_removeLeast {live : List LiveKey} (h : live ≠ []) : ∃ a rest, removeLeast live = some (a, rest) := by
  cases live with
  | nil => exact absurd rfl h
  | cons k ks => exact ⟨_, _, rfl⟩

/-! ### The loop -/

theorem mergeLoop_of_lt {live : List LiveKey} (h : live.length < 2) (fuel : Nat) (nodes : List TreeNode) :
    mergeLoop fuel live nodes = nodes := by
  cases fuel with
  | zero => rfl
  | succ fuel =>
    rcases mergeLoop_cases fuel live nodes with ⟨_, he⟩ | ⟨a, b, live1, live2, h1, h2, _⟩
    · exact he
    · obtain ⟨_, _, hlen1⟩ := removeLeast_some h1
      obtain ⟨_, _, hlen2⟩ := removeLeast_some h2
      omega

theorem mergeLoop_merge {live live1 live2 : List LiveKey} {a b : LiveKey} (h1 : removeLeast live = some (a, live1))
    (h2 : removeLeast live1 = some (b, live2)) (fuel : Nat) (nodes : List TreeNode) :
    mergeLoop (fuel + 1) live nodes =
      mergeLoop fuel (live2 ++ [⟨a.freq + b.freq, nodes.length⟩])
        (nodes ++ [⟨.internal a.slot b.slot, a.freq + b.freq⟩]) := by
  simp [mergeLoop, h1, h2]

theorem exists_removeLeast_two {live : List LiveKey} (h : 2 ≤ live.length) :
    ∃ a b live1 live2, removeLeast live = some (a, live1) ∧ removeLeast live1 = some (b, live2) := by
  obtain ⟨a, live1, h1⟩ := exists_removeLeast (live := live) (by rintro rfl; simp at h)
  obtain ⟨_, _, hlen⟩ := removeLeast_some h1
  obtain ⟨b, live2, h2⟩ := exists_removeLeast (live := live1) (by rintro rfl; simp at hlen; omega)
  exact ⟨a, b, live1, live2, h1, h2⟩

/-- What every merge pass keeps holds at the end of the loop, with fewer than two nodes live (41_encoder.md R144). -/
theorem mergeLoop_induction {P : List LiveKey → List TreeNode → Prop}
    (merge : ∀ {live live1 live2 nodes a b}, P live nodes → removeLeast live = some (a, live1) →
      removeLeast live1 = some (b, live2) → P (live2 ++ [⟨a.freq + b.freq, nodes.length⟩])
        (nodes ++ [⟨.internal a.slot b.slot, a.freq + b.freq⟩]))
    {fuel : Nat} {live : List LiveKey} {nodes : List TreeNode} (h : P live nodes) (hfuel : live.length ≤ fuel + 1) :
    ∃ live', live'.length < 2 ∧ P live' (mergeLoop fuel live nodes) := by
  induction fuel generalizing live nodes with
  | zero => exact ⟨live, by omega, h⟩
  | succ fuel ih =>
    rcases mergeLoop_cases fuel live nodes with ⟨hlt, he⟩ | ⟨a, b, live1, live2, h1, h2, he⟩
    · exact ⟨live, hlt, by rwa [he]⟩
    · obtain ⟨_, _, hlen1⟩ := removeLeast_some h1
      obtain ⟨_, _, hlen2⟩ := removeLeast_some h2
      rw [he]
      exact ih (merge h h1 h2) (by rw [List.length_append, List.length_singleton]; omega)

/-- Any bound of at least one pass less than the live nodes gives the same nodes (41_encoder.md R144). -/
theorem mergeLoop_bound {fuel fuel' : Nat} {live : List LiveKey} (h : live.length ≤ fuel + 1)
    (h' : live.length ≤ fuel' + 1) (nodes : List TreeNode) :
    mergeLoop fuel live nodes = mergeLoop fuel' live nodes := by
  induction fuel generalizing fuel' live nodes with
  | zero => rw [mergeLoop_of_lt (by omega), mergeLoop_of_lt (by omega)]
  | succ fuel ih =>
    rcases Nat.lt_or_ge live.length 2 with hlt | hge
    · rw [mergeLoop_of_lt hlt, mergeLoop_of_lt hlt]
    · obtain ⟨a, b, live1, live2, h1, h2⟩ := exists_removeLeast_two hge
      obtain ⟨_, _, hlen1⟩ := removeLeast_some h1
      obtain ⟨_, _, hlen2⟩ := removeLeast_some h2
      obtain ⟨fuel', rfl⟩ : ∃ n, fuel' = n + 1 := ⟨fuel' - 1, by omega⟩
      rw [mergeLoop_merge h1 h2, mergeLoop_merge h1 h2]
      refine ih ?_ ?_ _ <;> rw [List.length_append, List.length_singleton] <;> omega

/-- Settles O33: the removal by `removeLeast_le`, a pass by `mergeLoop_merge`, and the bound by `mergeLoop_bound`. -/
theorem mergeTakesTheTwoLeastNodes : Obligations.MergeTakesTheTwoLeastNodes := by
  refine ⟨fun live hlive => ?_, fun fuel live nodes hlive => ?_, fun fuel live nodes hlive => mergeLoop_of_lt hlive _ _,
    fun input syms hrise hmem => ⟨seedLive (seedLeaves input), fun j => ?_, fun fuel hfuel => ?_⟩⟩
  · obtain ⟨a, rest, h⟩ := exists_removeLeast hlive
    obtain ⟨hmem, hrest, _⟩ := removeLeast_some h
    exact ⟨a, rest, h, hmem, hrest, removeLeast_le h⟩
  · obtain ⟨a, b, live1, live2, h1, h2⟩ := exists_removeLeast_two hlive
    exact ⟨a, b, live1, live2, h1, h2, mergeLoop_merge h1 h2 fuel nodes⟩
  · rw [seedLive_getElem?, seedLeaves, List.getElem?_map, eq_presentSymbols hrise hmem, Option.map_map]
    rfl
  · rw [eq_presentSymbols hrise hmem]
    exact mergeLoop_bound (by simp) hfuel _

/-! ### The invariant of the loop -/

/-- The slots of a node's children (41_encoder.md R144). -/
def TreeNode.children (p : TreeNode) : List Nat :=
  match p.kind with
  | .leaf _ => []
  | .internal l r => [l, r]

/-- The frequency of the node in a slot, if the slot is used. -/
def freqAt (nodes : List TreeNode) (slot : Nat) : Option Nat := (nodes[slot]?).map TreeNode.freq

/-- What the merge loop keeps of frequencies and slots: leaves are the seeded ones with their counts, an internal node
has its children's sum, live keys are those of their nodes and share out the input's length, and every slot is live or a
child of one node. -/
structure BuilderInv (input : List Symbol) (live : List LiveKey) (nodes : List TreeNode) : Prop where
  leaf : ∀ (i : Nat) (x : Symbol) (f : Nat), nodes[i]? = some ⟨.leaf x, f⟩ → i < distinct input ∧ f = input.count x
  internal : ∀ (i l r f : Nat), nodes[i]? = some ⟨.internal l r, f⟩ →
    ∃ g h, freqAt nodes l = some g ∧ freqAt nodes r = some h ∧ f = g + h
  key : ∀ k ∈ live, freqAt nodes k.slot = some k.freq
  total : (live.map LiveKey.freq).sum = input.length
  owners : (live.map LiveKey.slot ++ nodes.flatMap TreeNode.children).Perm (List.range nodes.length)
  bound : ∀ p ∈ nodes, p.freq ≤ input.length

theorem freqAt_append {nodes : List TreeNode} {slot g : Nat} (h : freqAt nodes slot = some g) (more : List TreeNode) :
    freqAt (nodes ++ more) slot = some g := by
  obtain ⟨p, hp, rfl⟩ := Option.map_eq_some_iff.1 h
  rw [freqAt, List.getElem?_append_left (List.getElem?_eq_some_iff.1 hp).1, hp]
  rfl

theorem freqAt_concat (nodes : List TreeNode) (p : TreeNode) : freqAt (nodes ++ [p]) nodes.length = some p.freq := by
  simp [freqAt]

/-- A used slot of a longer list is one of the list's or the new one. -/
theorem getElem?_concat_cases {nodes : List TreeNode} {p q : TreeNode} {i : Nat} (h : (nodes ++ [p])[i]? = some q) :
    nodes[i]? = some q ∨ (i = nodes.length ∧ p = q) := by
  rcases Nat.lt_or_ge i nodes.length with hlt | hge
  · exact .inl (by rwa [List.getElem?_append_left hlt] at h)
  · obtain ⟨hi, hq⟩ := List.getElem?_eq_some_iff.1 h
    obtain rfl : i = nodes.length := by
      rw [List.length_append, List.length_singleton] at hi; omega
    exact .inr ⟨rfl, by simpa using hq⟩

theorem seedLeaves_getElem? (input : List Symbol) (i : Nat) :
    (seedLeaves input)[i]? = ((presentSymbols input)[i]?).map fun x => ⟨.leaf x, input.count x⟩ := by
  rw [seedLeaves, List.getElem?_map]; rfl

theorem mem_seedLive {leaves : List TreeNode} {k : LiveKey} (h : k ∈ seedLive leaves) :
    freqAt leaves k.slot = some k.freq := by
  obtain ⟨p, hp, rfl⟩ := List.mem_map.1 h
  simp [freqAt, List.mem_zipIdx_iff_getElem?.1 hp]

/-- The counts of the present symbols sum to the input's length (41_encoder.md R142). -/
theorem sum_presentSymbols_count (input : List Symbol) :
    ((presentSymbols input).map input.count).sum = input.length := by
  rw [sum_presentSymbols]
  exact List.sum_toFinset_count_eq_length input

theorem seedLive_freqs (input : List Symbol) :
    (seedLive (seedLeaves input)).map LiveKey.freq = (presentSymbols input).map input.count := by
  rw [seedLive, seedLeaves, List.zipIdx_map, List.map_map, List.map_map]
  conv_rhs => rw [← List.zipIdx_map_fst 0 (presentSymbols input), List.map_map]
  rfl

theorem builderInv_seed (input : List Symbol) : BuilderInv input (seedLive (seedLeaves input)) (seedLeaves input) where
  leaf i x f h := by
    rw [seedLeaves_getElem?] at h
    obtain ⟨y, hy, he⟩ := Option.map_eq_some_iff.1 h
    cases he
    exact ⟨(List.getElem?_eq_some_iff.1 hy).1, rfl⟩
  internal i l r f h := by
    rw [seedLeaves_getElem?] at h
    obtain ⟨y, hy, he⟩ := Option.map_eq_some_iff.1 h
    cases he
  key k hk := mem_seedLive hk
  total := by rw [seedLive_freqs, sum_presentSymbols_count]
  owners := by
    have hslots : (seedLive (seedLeaves input)).map LiveKey.slot = List.range (seedLeaves input).length := by
      rw [seedLive, List.map_map, List.range_eq_range', ← List.zipIdx_map_snd 0 (seedLeaves input)]
      rfl
    have hchildren : (seedLeaves input).flatMap TreeNode.children = [] := by
      rw [seedLeaves, List.flatMap_map]
      exact List.flatMap_eq_nil_iff.2 fun _ _ => rfl
    rw [hslots, hchildren, List.append_nil]
  bound p hp := by
    obtain ⟨x, _, rfl⟩ := List.mem_map.1 hp
    exact List.count_le_length

/-- A merge pass keeps the invariant (41_encoder.md R144). -/
theorem BuilderInv.merge {input : List Symbol} {live live1 live2 : List LiveKey} {nodes : List TreeNode} {a b : LiveKey}
    (h : BuilderInv input live nodes) (h1 : removeLeast live = some (a, live1))
    (h2 : removeLeast live1 = some (b, live2)) :
    BuilderInv input (live2 ++ [⟨a.freq + b.freq, nodes.length⟩])
      (nodes ++ [⟨.internal a.slot b.slot, a.freq + b.freq⟩]) := by
  have hp : live.Perm (a :: b :: live2) := (removeLeast_perm h1).trans ((removeLeast_perm h2).cons a)
  have hkey : ∀ k ∈ a :: b :: live2, freqAt nodes k.slot = some k.freq := fun k hk => h.key k (hp.mem_iff.2 hk)
  have htotal : a.freq + (b.freq + (live2.map LiveKey.freq).sum) = input.length := by
    rw [← h.total, (hp.map LiveKey.freq).sum_eq]; rfl
  constructor
  case leaf =>
    intro i x f hn
    rcases getElem?_concat_cases hn with hn | ⟨_, hn⟩
    · exact h.leaf i x f hn
    · cases hn
  case internal =>
    intro i l r f hn
    rcases getElem?_concat_cases hn with hn | ⟨_, hn⟩
    · obtain ⟨g, k, hg, hk, hf⟩ := h.internal i l r f hn
      exact ⟨g, k, freqAt_append hg _, freqAt_append hk _, hf⟩
    · cases hn
      exact ⟨a.freq, b.freq, freqAt_append (hkey a (by simp)) _, freqAt_append (hkey b (by simp)) _, rfl⟩
  case key =>
    intro k hk
    rcases List.mem_append.1 hk with hk | hk
    · exact freqAt_append (hkey k (by simp [hk])) _
    · rw [List.mem_singleton.1 hk]; exact freqAt_concat _ _
  case total =>
    rw [List.map_append, List.sum_append, ← htotal]
    simp only [List.map_cons, List.map_nil, List.sum_singleton]; omega
  case owners =>
    refine List.perm_iff_count.2 fun c => ?_
    have hcount := h.owners.count_eq c
    have hlive := (hp.map LiveKey.slot).count_eq c
    simp only [List.count_append, List.map_cons, List.count_cons] at hcount hlive
    simp only [List.map_append, List.map_cons, List.map_nil, List.flatMap_append, List.flatMap_singleton,
      TreeNode.children, List.count_append, List.count_cons, List.count_nil, List.length_append, List.length_singleton,
      List.range_succ]
    omega
  case bound =>
    intro p hp
    rcases List.mem_append.1 hp with hp | hp
    · exact h.bound p hp
    · rw [List.mem_singleton.1 hp]; simp only; omega

/-! ### The tree -/

/-- The invariant of the builder's nodes, closed over one tree with its root in the last slot (41_encoder.md R147). -/
theorem exists_root_builderInv {input : List Symbol} (h : 1 ≤ distinct input) :
    ∃ root, Forest (presentSymbols input) [root] (buildTree input) ∧ BuilderInv input [root] (buildTree input) := by
  have merge := mergeLoop_induction
    (P := fun live nodes => Forest (presentSymbols input) live nodes ∧ BuilderInv input live nodes)
    (fun hP h1 h2 => ⟨hP.1.merge h1 h2, hP.2.merge h1 h2⟩)
    (fuel := (seedLeaves input).length) ⟨forest_seed h, builderInv_seed input⟩ (by simp)
  obtain ⟨live, hlt, hforest, hinv⟩ := merge
  obtain ⟨root, rfl⟩ := hforest.eq_singleton hlt
  exact ⟨root, hforest, hinv⟩

theorem buildTree_length (input : List Symbol) : (buildTree input).length = nodeCount (distinct input) := by
  rcases Nat.eq_zero_or_pos (distinct input) with h0 | hpos
  · have hseed : seedLeaves input = [] := List.eq_nil_of_length_eq_zero (by rw [seedLeaves_length, h0])
    rw [buildTree, hseed, h0]; rfl
  · obtain ⟨_, _, hlen⟩ := exists_root_buildTree hpos
    exact hlen

theorem Forest.root_slot {syms : List Symbol} {root : LiveKey} {nodes : List TreeNode} (h : Forest syms [root] nodes) :
    root.slot = nodes.length - 1 := Option.some.inj h.newest

end Sys2Proof.Machine
end

section
/-! SUPPORT. The full tree of an input and its code table: nodes, paths, that no code begins another, and the Kraft sum
(41_encoder.md R144, R147, R150, R157). -/

namespace Sys2Proof.Machine

/-! ### The nodes -/

theorem mem_children_internal {c l r f : Nat} : c ∈ (TreeNode.mk (.internal l r) f).children ↔ c = l ∨ c = r := by
  simp [TreeNode.children]

theorem childrenBelow_buildTree (input : List Symbol) : ChildrenBelow (buildTree input) := by
  rcases Nat.eq_zero_or_pos (distinct input) with h0 | hpos
  · have hnil : buildTree input = [] := List.eq_nil_of_length_eq_zero (by rw [buildTree_length, h0]; rfl)
    intro i l r f h
    rw [hnil] at h; cases h
  · obtain ⟨_, hforest, _⟩ := exists_root_builderInv hpos
    exact hforest.below

section
variable {input : List Symbol} {live : List LiveKey} {nodes : List TreeNode} (h : BuilderInv input live nodes)
include h

theorem BuilderInv.exists_internal {i : Nat} (hi : distinct input ≤ i) (hlt : i < nodes.length) :
    ∃ l r f, nodes[i]? = some ⟨.internal l r, f⟩ := by
  have hn := List.getElem?_eq_getElem hlt
  match hnode : nodes[i], hn with
  | ⟨.leaf x, f⟩, hn =>
    obtain ⟨hleaf, _⟩ := h.leaf i x f hn
    omega
  | ⟨.internal l r, f⟩, hn => exact ⟨l, r, f, hn⟩

theorem BuilderInv.owners_nodup : (live.map LiveKey.slot ++ nodes.flatMap TreeNode.children).Nodup :=
  h.owners.nodup_iff.2 List.nodup_range

theorem BuilderInv.children_ne {i l r f : Nat} (hn : nodes[i]? = some ⟨.internal l r, f⟩) : l ≠ r := by
  have hnodup := (List.nodup_append.1 h.owners_nodup).2.1
  have := (List.nodup_flatMap.1 hnodup).1 _ (List.mem_of_getElem? hn)
  simpa [TreeNode.children] using this

/-- No slot is a child of two nodes (41_encoder.md R144). -/
theorem BuilderInv.parent_unique {i j c : Nat} {p q : TreeNode} (hi : nodes[i]? = some p) (hj : nodes[j]? = some q)
    (hp : c ∈ p.children) (hq : c ∈ q.children) : i = j := by
  have hnodup := (List.nodup_append.1 h.owners_nodup).2.1
  have hdisjoint := List.pairwise_iff_getElem.1 (List.nodup_flatMap.1 hnodup).2
  obtain ⟨hilt, rfl⟩ := List.getElem?_eq_some_iff.1 hi
  obtain ⟨hjlt, rfl⟩ := List.getElem?_eq_some_iff.1 hj
  rcases Nat.lt_trichotomy i j with hlt | heq | hgt
  · exact absurd hq (hdisjoint i j hilt hjlt hlt hp)
  · exact heq
  · exact absurd hp (hdisjoint j i hjlt hilt hgt hq)

/-- A slot that is not live is a child. -/
theorem BuilderInv.exists_parent {c : Nat} (hc : c < nodes.length) (hlive : c ∉ live.map LiveKey.slot) :
    ∃ i l r f : Nat, nodes[i]? = some ⟨.internal l r, f⟩ ∧ (c = l ∨ c = r) := by
  have hmem := (List.mem_append.1 (h.owners.mem_iff.2 (List.mem_range.2 hc))).resolve_left hlive
  obtain ⟨p, hp, hcp⟩ := List.mem_flatMap.1 hmem
  obtain ⟨i, hi⟩ := List.getElem?_of_mem hp
  match p, hi, hcp with
  | ⟨.internal l r, f⟩, hi, hcp => exact ⟨i, l, r, f, hi, mem_children_internal.1 hcp⟩

end

/-- Settles O32, by the builder's invariant closed over its one root. -/
theorem mergeBuildsAFullTree : Obligations.MergeBuildsAFullTree := by
  intro input hinput
  have hpos := (distinct_pos_iff input).2 hinput
  have hlength := buildTree_length input
  obtain ⟨root, hforest, hinv⟩ := exists_root_builderInv hpos
  rw [← distinct_eq_card]
  refine ⟨hlength, fun i hi hlt => ?_, fun c hc => ?_, ?_⟩
  · obtain ⟨l, r, f, hn⟩ := hinv.exists_internal hi hlt
    obtain ⟨hl, hr⟩ := hforest.below i l r f hn
    obtain ⟨g, k, hg, hk, hf⟩ := hinv.internal i l r f hn
    exact ⟨l, r, f, g, k, hl, hr, hinv.children_ne hn, hn, hg, hk, hf⟩
  · have hroot : c ∉ [root].map LiveKey.slot := by
      simp only [List.map_cons, List.map_nil, List.mem_singleton, hforest.root_slot]; omega
    obtain ⟨i, l, r, f, hn, hchild⟩ := hinv.exists_parent (by omega) hroot
    refine ⟨i, ⟨l, r, f, hn, hchild⟩, ?_⟩
    rintro j ⟨l', r', f', hn', hchild'⟩
    exact hinv.parent_unique hn' hn (mem_children_internal.2 hchild') (mem_children_internal.2 hchild)
  · have hkey := hinv.key root List.mem_cons_self
    have htotal : root.freq = input.length := by simpa using hinv.total
    rwa [freqAt, hforest.root_slot, hlength, htotal, nodeCount, Nat.sub_sub] at hkey

/-! ### The code table -/

/-- With two or more present symbols the code table is that of the last slot (41_encoder.md R150). -/
theorem genCodes_eq_slotCodes {input : List Symbol} (h : 2 ≤ distinct input) :
    genCodes input = slotCodes (buildTree input) (rootSlot (distinct input)) := by
  have hlength := buildTree_length input
  rw [genCodes]
  split
  next hp => rw [distinct, hp] at h; simp at h
  next x hp => rw [distinct, hp] at h; simp at h
  next =>
    rw [walkCodes_eq_map (childrenBelow_buildTree input) _ (by rw [hlength, rootSlot, nodeCount]; omega)]
    simp

theorem rootSlot_lt {input : List Symbol} (h : 1 ≤ distinct input) :
    rootSlot (distinct input) < (buildTree input).length := by
  rw [buildTree_length, rootSlot, nodeCount]; omega

theorem genCodes_length (input : List Symbol) : (genCodes input).length = distinct input := by
  have := (genCodes_symbols_perm input).length_eq
  rwa [List.length_map] at this

theorem codeOf_mem_slotCodes {input : List Symbol} {x : Symbol} (h : 2 ≤ distinct input) (hx : x ∈ input) :
    (x, codeOf (genCodes input) x) ∈ slotCodes (buildTree input) (rootSlot (distinct input)) := by
  have hmem := codeOf_mem_genCodes hx
  rwa [genCodes_eq_slotCodes h] at hmem ⊢

/-- A code leads from the root to its symbol's leaf (41_encoder.md R150). -/
theorem follow_codeOf {input : List Symbol} {x : Symbol} (h : 2 ≤ distinct input) (hx : x ∈ input) :
    ∃ j f, follow (buildTree input) (rootSlot (distinct input)) (codeOf (genCodes input) x) = some j ∧
      (buildTree input)[j]? = some ⟨.leaf x, f⟩ :=
  follow_slotCodes (childrenBelow_buildTree input) (rootSlot_lt (by omega)) _ (codeOf_mem_slotCodes h hx)

/-- The root is no leaf, so a code has a bit. -/
theorem codeOf_length_pos {input : List Symbol} {x : Symbol} (h : 2 ≤ distinct input) (hx : x ∈ input) :
    1 ≤ (codeOf (genCodes input) x).length := by
  obtain ⟨j, f, hfollow, hleaf⟩ := follow_codeOf h hx
  obtain ⟨_, _, hinv⟩ := exists_root_builderInv (input := input) (by omega)
  by_contra hnil
  rw [List.length_eq_zero_iff.1 (by omega : (codeOf (genCodes input) x).length = 0)] at hfollow
  cases hfollow
  obtain ⟨hlt, _⟩ := hinv.leaf _ _ _ hleaf
  rw [rootSlot] at hlt; omega

/-- A code is at most one bit shorter than there are symbols (41_encoder.md R150). -/
theorem codeOf_length_lt {input : List Symbol} {x : Symbol} (h : 2 ≤ distinct input) (hx : x ∈ input) :
    (codeOf (genCodes input) x).length + 1 ≤ distinct input := by
  have hcode := slotCodes_code_length (childrenBelow_buildTree input) (rootSlot_lt (by omega)) _
    (codeOf_mem_slotCodes h hx)
  rwa [← genCodes_eq_slotCodes h, genCodes_length] at hcode

/-- Settles O34: the path by `follow_codeOf`, the lengths by the number of leaves. -/
theorem codesAreRootToLeafPaths : Obligations.CodesAreRootToLeafPaths := by
  intro input x h hx
  rw [← distinct_eq_card] at h ⊢
  have hpos := codeOf_length_pos h hx
  have hlt := codeOf_length_lt h hx
  have hle := distinct_le input
  exact ⟨follow_codeOf h hx, hpos, by omega, by omega⟩

theorem two_le_distinct {input : List Symbol} {x y : Symbol} (hx : x ∈ input) (hy : y ∈ input) (hne : x ≠ y) :
    2 ≤ distinct input := by
  rw [distinct_eq_card]
  exact Finset.one_lt_card.2 ⟨x, List.mem_toFinset.2 hx, y, List.mem_toFinset.2 hy, hne⟩

/-- Settles O40, by `slotCodes_prefixFree` at the root. -/
theorem codesArePrefixFree : Obligations.CodesArePrefixFree := by
  intro input x y hx hy hne
  have h := two_le_distinct hx hy hne
  have hfree := slotCodes_prefixFree (childrenBelow_buildTree input) (rootSlot_lt (by omega : 1 ≤ distinct input))
  exact fun hprefix =>
    hne (congrArg Prod.fst (hfree _ (codeOf_mem_slotCodes h hx) _ (codeOf_mem_slotCodes h hy) hprefix))

/-! ### The Kraft sum -/

/-- A table without repetitions is its symbols, each with its looked-up code. -/
theorem map_codeOf_eq {codes : List (Symbol × BitString)} (h : (codes.map Prod.fst).Nodup) :
    (codes.map Prod.fst).map (fun x => (x, codeOf codes x)) = codes := by
  induction codes with
  | nil => rfl
  | cons p ps ih =>
    obtain ⟨hp, hps⟩ := List.nodup_cons.1 h
    conv_rhs => rw [← ih hps]
    rw [List.map_cons, List.map_cons, codeOf, if_pos rfl]
    refine congrArg _ (List.map_congr_left fun x hx => ?_)
    rw [codeOf, if_neg (ne_of_mem_of_not_mem hx hp).symm]

/-- A sum over the input's symbols and their codes is the sum over the code table. -/
theorem sum_codes (input : List Symbol) (g : Symbol → BitString → Nat) :
    ∑ x ∈ input.toFinset, g x (codeOf (genCodes input) x) = ((genCodes input).map fun p => g p.1 p.2).sum := by
  conv_rhs => rw [← map_codeOf_eq (genCodes_symbols_nodup input), List.map_map]
  rw [← sum_presentSymbols]
  exact ((genCodes_symbols_perm input).map _).sum_eq.symm

/-- One distinct symbol is the whole input's. -/
theorem exists_single {input : List Symbol} (h : input.toFinset.card = 1) : ∃ x ∈ input, ∀ y ∈ input, y = x := by
  obtain ⟨x, hx⟩ := Finset.card_eq_one.1 h
  simp only [Finset.ext_iff, List.mem_toFinset, Finset.mem_singleton] at hx
  exact ⟨x, (hx x).2 rfl, fun y => (hx y).1⟩

theorem codeOf_of_not_mem {input : List Symbol} {x : Symbol} (h : x ∉ input) : codeOf (genCodes input) x = [] :=
  codeOf_eq_nil (mt mem_genCodes_symbols.1 h)

/-- Every symbol that occurs has a code of at least one bit (41_encoder.md R157). -/
theorem codeOf_length_pos_of_mem {input : List Symbol} {x : Symbol} (hx : x ∈ input) :
    1 ≤ (codeOf (genCodes input) x).length := by
  by_cases hall : ∀ y ∈ input, y = x
  · obtain ⟨hcode, _⟩ := singleSymbolCodeIsZero input x hx hall
    rw [hcode]; exact le_rfl
  · push Not at hall
    obtain ⟨y, hy, hne⟩ := hall
    exact codeOf_length_pos (two_le_distinct hy hx hne) hx

/-- The code lengths of two or more symbols fill the tree, in units of 2^(-n) (41_encoder.md R157). -/
theorem sum_code_lengths {input : List Symbol} (h : 2 ≤ distinct input) {n : Nat} (hn : 255 ≤ n) :
    ∑ x ∈ input.toFinset, 2 ^ (n - (codeOf (genCodes input) x).length) = 2 ^ n := by
  have hroot := rootSlot_lt (by omega : 1 ≤ distinct input)
  rw [sum_codes input fun _ code => 2 ^ (n - code.length), genCodes_eq_slotCodes h]
  refine slotCodes_kraft (childrenBelow_buildTree input) hroot fun p hp => ?_
  have hcode := slotCodes_code_length (childrenBelow_buildTree input) hroot p hp
  rw [← genCodes_eq_slotCodes h, genCodes_length] at hcode
  have := distinct_le input
  omega

/-- Settles O41: the codes' presence by `codeOf_length_pos_of_mem`, the sums by `sum_code_lengths` and R151. -/
theorem codeTableIsCompleteAndFull : Obligations.CodeTableIsCompleteAndFull := by
  refine ⟨fun input x => ⟨fun hlen => ?_, codeOf_length_pos_of_mem⟩, fun input h => ?_, fun input h => ?_⟩
  · by_contra hx
    rw [codeOf_of_not_mem hx] at hlen; cases hlen
  · exact sum_code_lengths (by rwa [distinct_eq_card]) (by omega)
  · obtain ⟨x, hx, hall⟩ := exists_single h
    obtain ⟨hcode, _⟩ := singleSymbolCodeIsZero input x hx hall
    have hset : input.toFinset = {x} := by
      rw [Finset.eq_singleton_iff_unique_mem]
      exact ⟨List.mem_toFinset.2 hx, fun y hy => hall y (List.mem_toFinset.1 hy)⟩
    rw [hset, Finset.sum_singleton, hcode]
    rfl

end Sys2Proof.Machine
end

section
/-! SUPPORT. The builder's codes are the shortest: no assignment of code lengths within the Kraft bound gives a shorter
stream. So a stream has at most 8 bits a symbol, and a rarer symbol no shorter code (41_encoder.md R155, R157). -/

namespace Sys2Proof.Machine

/-! ### Weights with lengths -/

/-- The Kraft sum of lengths, in units of 2^(-n). -/
def kraftSum (n : Nat) (lengths : Multiset Nat) : Nat := (lengths.map fun l => 2 ^ (n - l)).sum

/-- The total length of weighted codes, each pair a weight and a length. -/
def totalLength (pairs : Multiset (Nat × Nat)) : Nat := (pairs.map fun p => p.1 * p.2).sum

@[simp] theorem kraftSum_cons (n l : Nat) (lengths : Multiset Nat) :
    kraftSum n (l ::ₘ lengths) = 2 ^ (n - l) + kraftSum n lengths := by simp [kraftSum]

@[simp] theorem totalLength_cons (p : Nat × Nat) (pairs : Multiset (Nat × Nat)) :
    totalLength (p ::ₘ pairs) = p.1 * p.2 + totalLength pairs := by simp [totalLength]

/-- A multiple that is less than another leaves room for the unit. -/
theorem add_le_of_dvd_of_lt {d a b : Nat} (ha : d ∣ a) (hb : d ∣ b) (hlt : a < b) : a + d ≤ b := by
  obtain ⟨i, rfl⟩ := ha
  obtain ⟨j, rfl⟩ := hb
  exact Nat.mul_le_mul_left d (Nat.lt_of_mul_lt_mul_left hlt)

/-- A Kraft sum is a multiple of the term of a greatest length. -/
theorem dvd_kraftSum {n l : Nat} {lengths : Multiset Nat} (h : ∀ k ∈ lengths, k ≤ l) :
    2 ^ (n - l) ∣ kraftSum n lengths := by
  refine Multiset.dvd_sum fun t ht => ?_
  obtain ⟨k, hk, rfl⟩ := Multiset.mem_map.1 ht
  exact pow_dvd_pow 2 (Nat.sub_le_sub_left (h k hk) n)

/-- A least weight can be given the greatest length: the exchange keeps the lengths and does not lengthen the total. -/
theorem exists_least_longest {pairs : Multiset (Nat × Nat)} {a : Nat} {weights : Multiset Nat}
    (hpairs : pairs.map Prod.fst = a ::ₘ weights) (ha : ∀ m ∈ weights, a ≤ m) :
    ∃ l rest, rest.map Prod.fst = weights ∧ pairs.map Prod.snd = l ::ₘ rest.map Prod.snd ∧
      (∀ k ∈ rest.map Prod.snd, k ≤ l) ∧ a * l + totalLength rest ≤ totalLength pairs := by
  have hne : pairs ≠ 0 := by rintro rfl; simp at hpairs
  obtain ⟨⟨u, l⟩, hu, hmax⟩ := Multiset.exists_max_image Prod.snd hne
  obtain ⟨rest, rfl⟩ := Multiset.exists_cons_of_mem hu
  have hrest : ∀ k ∈ rest.map Prod.snd, k ≤ l := by
    intro k hk
    obtain ⟨p, hp, rfl⟩ := Multiset.mem_map.1 hk
    exact hmax p (Multiset.mem_cons_of_mem hp)
  rw [Multiset.map_cons] at hpairs
  by_cases hua : u = a
  · subst hua
    exact ⟨l, rest, (Multiset.cons_inj_right _).1 hpairs, Multiset.map_cons .., hrest, by rw [totalLength_cons]⟩
  · have hau : a ≤ u := by
      have hmem : u ∈ a ::ₘ weights := hpairs ▸ Multiset.mem_cons_self _ _
      exact ha u ((Multiset.mem_cons.1 hmem).resolve_left hua)
    have hamem : a ∈ u ::ₘ rest.map Prod.fst := hpairs ▸ Multiset.mem_cons_self _ _
    obtain ⟨⟨v, la⟩, hla, hv⟩ := Multiset.mem_map.1 ((Multiset.mem_cons.1 hamem).resolve_left (Ne.symm hua))
    obtain rfl : v = a := hv
    obtain ⟨rest, rfl⟩ := Multiset.exists_cons_of_mem hla
    refine ⟨l, (u, la) ::ₘ rest, ?_, by simp, by simpa using hrest, ?_⟩
    · rw [Multiset.map_cons, Multiset.cons_swap, Multiset.cons_inj_right] at hpairs
      rw [Multiset.map_cons, hpairs]
    · have hll : la ≤ l := hrest la (by simp)
      have := mul_add_mul_le_mul_add_mul hau hll
      simp only [totalLength_cons]
      omega

/-- The lengths left when the two least weights are merged: the new weight takes one bit less than the second of them
had, and the total falls by the new weight. -/
theorem exists_merged_lengths {n a b : Nat} {weights : Multiset Nat} {pairs : Multiset (Nat × Nat)}
    (hpairs : pairs.map Prod.fst = a ::ₘ b ::ₘ weights) (ha : ∀ m ∈ b ::ₘ weights, a ≤ m) (hb : ∀ m ∈ weights, b ≤ m)
    (hkraft : kraftSum n (pairs.map Prod.snd) ≤ 2 ^ n) :
    ∃ pairs', pairs'.map Prod.fst = (a + b) ::ₘ weights ∧ kraftSum n (pairs'.map Prod.snd) ≤ 2 ^ n ∧
      a + b + totalLength pairs' ≤ totalLength pairs := by
  obtain ⟨la, resta, hfsta, hsnda, hmaxa, hcosta⟩ := exists_least_longest hpairs ha
  obtain ⟨lb, rest, hfst, hsnd, hmax, hcost⟩ := exists_least_longest hfsta hb
  have hlb : lb ≤ la := hmaxa lb (by rw [hsnd]; exact Multiset.mem_cons_self _ _)
  rw [hsnda, hsnd, kraftSum_cons, kraftSum_cons] at hkraft
  have hpos : 0 < 2 ^ (n - la) := Nat.two_pow_pos _
  obtain ⟨l, rfl⟩ : ∃ l, lb = l + 1 := by
    refine ⟨lb - 1, (Nat.succ_pred_eq_of_pos (Nat.pos_of_ne_zero fun h0 => ?_)).symm⟩
    rw [h0, Nat.sub_zero] at hkraft
    omega
  have hunit : kraftSum n (rest.map Prod.snd) + 2 ^ (n - (l + 1)) + 2 ^ (n - (l + 1)) ≤ 2 ^ n := by
    refine add_le_of_dvd_of_lt (Nat.dvd_add (dvd_kraftSum hmax) dvd_rfl) (pow_dvd_pow 2 (Nat.sub_le _ _)) ?_
    omega
  refine ⟨(a + b, l) ::ₘ rest, by rw [Multiset.map_cons, hfst], ?_, ?_⟩
  · rw [Multiset.map_cons, kraftSum_cons]
    have hdouble : 2 ^ (n - l) ≤ 2 * 2 ^ (n - (l + 1)) := by
      rw [← pow_succ']; exact Nat.pow_le_pow_right (by omega) (by omega)
    simp only; omega
  · have hla := Nat.mul_le_mul_left a hlb
    rw [totalLength_cons]
    simp only [Nat.mul_add, Nat.add_mul, Nat.mul_one] at *
    omega

/-! ### The merge loop -/

/-- What the merge that made a node adds to the stream: its frequency, and nothing for a leaf (41_encoder.md R144). -/
def TreeNode.merged (p : TreeNode) : Nat :=
  match p.kind with
  | .leaf _ => 0
  | .internal _ _ => p.freq

/-- What the merges have added so far. -/
def mergedFreq (nodes : List TreeNode) : Nat := (nodes.map TreeNode.merged).sum

theorem mergedFreq_concat (nodes : List TreeNode) (l r f : Nat) :
    mergedFreq (nodes ++ [⟨.internal l r, f⟩]) = mergedFreq nodes + f := by simp [mergedFreq, TreeNode.merged]

theorem mergedFreq_seedLeaves (input : List Symbol) : mergedFreq (seedLeaves input) = 0 := by
  rw [mergedFreq, seedLeaves, List.map_map]
  exact List.sum_eq_zero (List.forall_mem_map.2 fun _ _ => rfl)

/-- The loop adds no more than the total length of any lengths within the Kraft bound. -/
theorem mergedFreq_mergeLoop_le {n fuel : Nat} {live : List LiveKey} {nodes : List TreeNode}
    {pairs : Multiset (Nat × Nat)} (hpairs : pairs.map Prod.fst = (live.map LiveKey.freq : List Nat))
    (hkraft : kraftSum n (pairs.map Prod.snd) ≤ 2 ^ n) :
    mergedFreq (mergeLoop fuel live nodes) ≤ mergedFreq nodes + totalLength pairs := by
  induction fuel generalizing live nodes pairs with
  | zero => exact Nat.le_add_right _ _
  | succ fuel ih =>
    rcases mergeLoop_cases fuel live nodes with ⟨_, he⟩ | ⟨a, b, live1, live2, h1, h2, he⟩
    · rw [he]; exact Nat.le_add_right _ _
    · have hp : live.Perm (a :: b :: live2) := (removeLeast_perm h1).trans ((removeLeast_perm h2).cons a)
      have hfreqs : pairs.map Prod.fst = a.freq ::ₘ b.freq ::ₘ (live2.map LiveKey.freq : List Nat) := by
        rw [hpairs]; exact Multiset.coe_eq_coe.2 (hp.map LiveKey.freq)
      have hleast {k : LiveKey} {ks rest : List LiveKey} (h : removeLeast ks = some (k, rest)) :
          ∀ m ∈ (rest.map LiveKey.freq : Multiset Nat), k.freq ≤ m := by
        intro m hm
        obtain ⟨k', hk', rfl⟩ := List.mem_map.1 (Multiset.mem_coe.1 hm)
        have := removeLeast_le h k' ((removeLeast_perm h).mem_iff.2 (List.mem_cons_of_mem _ hk'))
        omega
      have hleasta : ∀ m ∈ b.freq ::ₘ (live2.map LiveKey.freq : Multiset Nat), a.freq ≤ m := by
        intro m hm
        refine hleast h1 m (Multiset.mem_coe.2 ?_)
        exact ((removeLeast_perm h2).map LiveKey.freq).mem_iff.2 (by simpa using hm)
      obtain ⟨pairs', hfst, hkraft', hcost⟩ := exists_merged_lengths hfreqs hleasta (hleast h2) hkraft
      have hloop := ih (live := live2 ++ [⟨a.freq + b.freq, nodes.length⟩])
        (nodes := nodes ++ [⟨.internal a.slot b.slot, a.freq + b.freq⟩])
        (by rw [hfst, List.map_append]; exact Multiset.coe_eq_coe.2 (List.perm_append_singleton _ _).symm) hkraft'
      rw [he]
      rw [mergedFreq_concat] at hloop
      omega

/-! ### The stream -/

/-- The occurrences of the symbols under a slot. -/
def slotCount (input : List Symbol) (nodes : List TreeNode) (slot : Nat) : Nat :=
  ((slotCodes nodes slot).map fun p => input.count p.1).sum

/-- The bits that the codes under a slot take in the stream, one code for each occurrence (41_encoder.md R153). -/
def slotCost (input : List Symbol) (nodes : List TreeNode) (slot : Nat) : Nat :=
  ((slotCodes nodes slot).map fun p => input.count p.1 * p.2.length).sum

section
variable (input : List Symbol) {nodes : List TreeNode} {i l r f : Nat} {x : Symbol}

theorem slotCount_leaf (h : nodes[i]? = some ⟨.leaf x, f⟩) : slotCount input nodes i = input.count x := by
  simp [slotCount, slotCodes_leaf h]

theorem slotCost_leaf (h : nodes[i]? = some ⟨.leaf x, f⟩) : slotCost input nodes i = 0 := by
  simp [slotCost, slotCodes_leaf h]

theorem slotCount_internal (hb : ChildrenBelow nodes) (h : nodes[i]? = some ⟨.internal l r, f⟩) :
    slotCount input nodes i = slotCount input nodes l + slotCount input nodes r := by
  simp [slotCount, slotCodes_internal hb h, consBit, Function.comp_def]

/-- A node puts one bit in front of every code under its children. -/
theorem slotCost_internal (hb : ChildrenBelow nodes) (h : nodes[i]? = some ⟨.internal l r, f⟩) :
    slotCost input nodes i = slotCost input nodes l + slotCost input nodes r +
      (slotCount input nodes l + slotCount input nodes r) := by
  simp only [slotCost, slotCount, slotCodes_internal hb h, List.map_append, List.map_map, List.sum_append,
    Function.comp_def, consBit, List.length_cons, Nat.mul_add, Nat.mul_one, List.sum_map_add]
  omega

theorem slotCount_append (hb : ChildrenBelow nodes) (more : List TreeNode) (h : i < nodes.length) :
    slotCount input (nodes ++ more) i = slotCount input nodes i := by
  rw [slotCount, slotCodes_append hb more h, slotCount]

theorem slotCost_append (hb : ChildrenBelow nodes) (more : List TreeNode) (h : i < nodes.length) :
    slotCost input (nodes ++ more) i = slotCost input nodes i := by
  rw [slotCost, slotCodes_append hb more h, slotCost]

end

/-- A node's frequency counts the symbols under it (41_encoder.md R144). -/
theorem BuilderInv.freqAt_eq {input : List Symbol} {live : List LiveKey} {nodes : List TreeNode}
    (h : BuilderInv input live nodes) (hb : ChildrenBelow nodes) {slot : Nat} (hslot : slot < nodes.length) :
    freqAt nodes slot = some (slotCount input nodes slot) := by
  induction slot, hslot using hb.slot_induction with
  | leaf i x f hi hn =>
    obtain ⟨_, rfl⟩ := h.leaf i x f hn
    rw [freqAt, hn, slotCount_leaf input hn]; rfl
  | internal i l r f hi hl hr hn ihl ihr =>
    obtain ⟨g, k, hg, hk, rfl⟩ := h.internal i l r f hn
    cases ihl.symm.trans hg
    cases ihr.symm.trans hk
    rw [freqAt, hn, slotCount_internal input hb hn]; rfl

/-- What the loop keeps of the stream: the merges have added up to the bits of the codes under the live nodes. -/
structure CostInv (input : List Symbol) (live : List LiveKey) (nodes : List TreeNode) : Prop where
  forest : Forest (presentSymbols input) live nodes
  builder : BuilderInv input live nodes
  cost : (live.map fun k => slotCost input nodes k.slot).sum = mergedFreq nodes

theorem costInv_seed {input : List Symbol} (h : 1 ≤ distinct input) :
    CostInv input (seedLive (seedLeaves input)) (seedLeaves input) where
  forest := forest_seed h
  builder := builderInv_seed input
  cost := by
    rw [mergedFreq_seedLeaves]
    refine List.sum_eq_zero (List.forall_mem_map.2 fun k hk => ?_)
    have hfreq := mem_seedLive hk
    rw [freqAt, seedLeaves_getElem?] at hfreq
    cases hx : (presentSymbols input)[k.slot]? with
    | none => rw [hx] at hfreq; cases hfreq
    | some x => exact slotCost_leaf input (by rw [seedLeaves_getElem?, hx]; rfl)

/-- A merge makes the codes under the two nodes it takes one bit longer, and adds their frequencies (41_encoder.md R144,
R150). -/
theorem CostInv.merge {input : List Symbol} {live live1 live2 : List LiveKey} {nodes : List TreeNode} {a b : LiveKey}
    (h : CostInv input live nodes) (h1 : removeLeast live = some (a, live1))
    (h2 : removeLeast live1 = some (b, live2)) :
    CostInv input (live2 ++ [⟨a.freq + b.freq, nodes.length⟩])
      (nodes ++ [⟨.internal a.slot b.slot, a.freq + b.freq⟩]) where
  forest := h.forest.merge h1 h2
  builder := h.builder.merge h1 h2
  cost := by
    have hbelow := h.forest.below
    have hp : live.Perm (a :: b :: live2) := (removeLeast_perm h1).trans ((removeLeast_perm h2).cons a)
    have hslot : ∀ k ∈ a :: b :: live2, k.slot < nodes.length := fun k hk => h.forest.used k (hp.mem_iff.2 hk)
    have hcount : ∀ k ∈ a :: b :: live2, slotCount input nodes k.slot = k.freq := fun k hk =>
      Option.some.inj ((h.builder.freqAt_eq hbelow (hslot k hk)).symm.trans (h.builder.key k (hp.mem_iff.2 hk)))
    have hsa := hslot a (by simp)
    have hsb := hslot b (by simp)
    rw [mergedFreq_concat, ← h.cost, (hp.map _).sum_eq, List.map_append, List.sum_append,
      List.map_congr_left fun k hk => slotCost_append input hbelow _ (hslot k (by simp [hk]))]
    simp only [List.map_cons, List.map_nil, List.sum_cons, List.sum_nil,
      slotCost_internal input (h.forest.merge h1 h2).below List.getElem?_concat_length,
      slotCost_append input hbelow _ hsa, slotCost_append input hbelow _ hsb, slotCount_append input hbelow _ hsa,
      slotCount_append input hbelow _ hsb, hcount a (by simp), hcount b (by simp)]
    omega

/-- The stream has each symbol's code once for each occurrence (41_encoder.md R153). -/
theorem serialize_length (input : List Symbol) :
    (serialize input).length = ∑ x ∈ input.toFinset, input.count x * (codeOf (genCodes input) x).length := by
  rw [serialize, List.length_flatMap, Finset.sum_list_map_count]
  rfl

/-- With two or more symbols the stream is as long as the merged frequencies add up to (41_encoder.md R144). -/
theorem serialize_length_eq_mergedFreq {input : List Symbol} (h : 2 ≤ distinct input) :
    (serialize input).length = mergedFreq (buildTree input) := by
  obtain ⟨live, hlt, hinv⟩ := mergeLoop_induction (fuel := (seedLeaves input).length) CostInv.merge
    (costInv_seed (by omega : 1 ≤ distinct input)) (by simp)
  obtain ⟨root, rfl⟩ := hinv.forest.eq_singleton hlt
  have hslot : root.slot = rootSlot (distinct input) := by
    have hlength := buildTree_length input
    rw [buildTree] at hlength
    rw [hinv.forest.root_slot, hlength, rootSlot, nodeCount, Nat.sub_sub]
  rw [serialize_length, sum_codes input fun x code => input.count x * code.length, genCodes_eq_slotCodes h, ← hslot]
  exact (List.sum_singleton ..).symm.trans hinv.cost

/-- No lengths within the Kraft bound give a shorter stream: the builder's codes are optimal. -/
theorem serialize_length_le_of_kraft {input : List Symbol} (h : 2 ≤ distinct input) {n : Nat} {len : Symbol → Nat}
    (hkraft : ∑ x ∈ input.toFinset, 2 ^ (n - len x) ≤ 2 ^ n) :
    (serialize input).length ≤ ∑ x ∈ input.toFinset, input.count x * len x := by
  rw [← sum_presentSymbols] at hkraft ⊢
  have hloop := mergedFreq_mergeLoop_le (n := n) (fuel := (seedLeaves input).length)
    (live := seedLive (seedLeaves input)) (nodes := seedLeaves input)
    (pairs := ((presentSymbols input).map fun x => (input.count x, len x) : List (Nat × Nat)))
    (by rw [seedLive_freqs]; simp [Function.comp_def]) (by simpa [kraftSum, Function.comp_def] using hkraft)
  rw [mergedFreq_seedLeaves, Nat.zero_add, totalLength, Multiset.map_coe, Multiset.sum_coe, List.map_map] at hloop
  rw [serialize_length_eq_mergedFreq h]
  exact hloop

/-! ### Eight bits a symbol -/

theorem serialize_length_single {input : List Symbol} (h : input.toFinset.card = 1) :
    (serialize input).length = input.length := by
  obtain ⟨x, hx, hall⟩ := exists_single h
  obtain ⟨_, hstream⟩ := singleSymbolCodeIsZero input x hx hall
  rw [hstream, List.length_replicate]

/-- At most 256 symbols fit in codes of 8 bits, and no code table does worse (41_encoder.md R155). -/
theorem serialize_length_le_eight (input : List Symbol) : (serialize input).length ≤ 8 * input.length := by
  have hle := distinct_le input
  have hcases : distinct input = 0 ∨ distinct input = 1 ∨ 2 ≤ distinct input := by omega
  rcases hcases with h0 | h1 | h2
  · have hnil : input = [] := by
      rw [distinct_eq_card, Finset.card_eq_zero, List.toFinset_eq_empty_iff] at h0
      exact h0
    rw [hnil]; exact Nat.zero_le _
  · rw [serialize_length_single (by rwa [← distinct_eq_card])]; omega
  · refine (serialize_length_le_of_kraft h2 (n := 8) (len := fun _ => 8) ?_).trans_eq ?_
    · rw [distinct_eq_card] at hle
      simpa using hle
    · rw [← Finset.sum_mul, List.sum_toFinset_count_eq_length, Nat.mul_comm]

/-- Settles O39, by `serialize_length_le_eight`. -/
theorem streamFitsInBitbuf : Obligations.StreamFitsInBitbuf := by
  intro input hlen
  have hbits := serialize_length_le_eight input
  exact ⟨hbits, by omega, serialize_length_single⟩

/-! ### Rarer symbols -/

/-- A sum over a set with x and y is the terms of these two and the others'. -/
theorem sum_eq_pair_add {s : Finset Symbol} {x y : Symbol} (hx : x ∈ s) (hy : y ∈ s) (hne : x ≠ y) (f : Symbol → Nat) :
    ∑ z ∈ s, f z = f x + f y + ∑ z ∈ (s.erase x).erase y, f z := by
  rw [← Finset.add_sum_erase s f hx, ← Finset.add_sum_erase _ f (Finset.mem_erase.2 ⟨hne.symm, hy⟩), Nat.add_assoc]

/-- Settles O42: were the code of the more frequent symbol longer, exchanging the two lengths would shorten the stream,
against `serialize_length_le_of_kraft`. -/
theorem rarerSymbolsNeverGetShorterCodes : Obligations.RarerSymbolsNeverGetShorterCodes := by
  intro input x y hx hy hcount
  by_contra hlen
  have hne : x ≠ y := by rintro rfl; omega
  have h := two_le_distinct hx hy hne
  rw [← List.mem_toFinset] at hx hy
  have hmoves : {z | Equiv.swap x y z ≠ z} ⊆ (input.toFinset : Set Symbol) := by
    intro z hz
    by_contra hmem
    exact hz (Equiv.swap_apply_of_ne_of_ne (ne_of_mem_of_not_mem hx hmem).symm (ne_of_mem_of_not_mem hy hmem).symm)
  have hkraft : ∑ z ∈ input.toFinset, 2 ^ (256 - (codeOf (genCodes input) (Equiv.swap x y z)).length) ≤ 2 ^ 256 := by
    rw [(Equiv.swap x y).sum_comp input.toFinset (fun z => 2 ^ (256 - (codeOf (genCodes input) z).length)) hmoves,
      sum_code_lengths h (by omega)]
  have hopt := serialize_length_le_of_kraft h hkraft
  have hlt := mul_add_mul_lt_mul_add_mul hcount (Nat.not_le.1 hlen)
  have hrest : ∑ z ∈ (input.toFinset.erase x).erase y,
      input.count z * (codeOf (genCodes input) (Equiv.swap x y z)).length =
      ∑ z ∈ (input.toFinset.erase x).erase y, input.count z * (codeOf (genCodes input) z).length := by
    refine Finset.sum_congr rfl fun z hz => ?_
    simp only [Finset.mem_erase] at hz
    rw [Equiv.swap_apply_of_ne_of_ne hz.2.1 hz.1]
  rw [serialize_length, sum_eq_pair_add hx hy hne, sum_eq_pair_add hx hy hne, Equiv.swap_apply_left,
    Equiv.swap_apply_right, hrest] at hopt
  omega

end Sys2Proof.Machine
end

section
/-! SUPPORT. ENCODE's results as functions of the input it read: NODE, the tree registers, TREE_VALID and the stream
(41_encoder.md R156, R158). -/

namespace Sys2Proof.Machine

/-! ### NODE -/

theorem slotWords_subset_commitWords {input : List Symbol} {i : Nat} {p : TreeNode}
    (h : (buildTree input)[i]? = some p) : slotWords (p, i) ⊆ commitWords input := fun _ hw =>
  List.mem_append_left _ (List.mem_append_right _
    (List.mem_flatMap.2 ⟨(p, i), List.mem_zipIdx_iff_getElem?.2 h, hw⟩))

theorem nodeLinkWord_commitTables {input : List Symbol} {i : Nat} {p : TreeNode} (h : (buildTree input)[i]? = some p)
    (m : Memory) : Memory.tableWord (commitTables input m) (nodeLinkAddr i) = linkWord p.kind :=
  tableWord_commitTables_of_mem (slotWords_subset_commitWords h (by simp [slotWords])) m

theorem nodeFreqWord_commitTables {input : List Symbol} {i : Nat} {p : TreeNode} (h : (buildTree input)[i]? = some p)
    (m : Memory) : Memory.tableWord (commitTables input m) (nodeFreqAddr i) = BitVec.ofNat 32 p.freq :=
  tableWord_commitTables_of_mem (slotWords_subset_commitWords h (by simp [slotWords])) m

/-- Both words of an unused slot are 0 (41_encoder.md R156). -/
theorem nodeWord_commitTables_unused {input : List Symbol} {i a : Nat} (hi : i < 512)
    (hunused : (buildTree input).length ≤ i) (ha : IsNodeWord i a) (m : Memory) :
    Memory.tableWord (commitTables input m) a = 0#32 := by
  refine tableWord_commitTables_zero ?_ (fun w hw => ?_) m
  · rcases ha with rfl | rfl <;> simp only [nodeLinkAddr, nodeFreqAddr] <;> omega
  · rcases mem_commitWords_offset hw with ⟨x, _, hx⟩ | ⟨j, hj, hw⟩
    · exact (hx.apart_node hi ha).symm
    · exact (hw.apart_of_lt (by omega) ha).symm

/-- No node's frequency is more than the input's length (41_encoder.md R142, R144). -/
theorem buildTree_freq_le {input : List Symbol} {p : TreeNode} (h : p ∈ buildTree input) : p.freq ≤ input.length := by
  obtain ⟨_, _, hinv⟩ := mergeLoop_induction (fuel := (seedLeaves input).length) BuilderInv.merge
    (builderInv_seed input) (by simp)
  exact hinv.bound p h

theorem setWidth_nodeIndex {i : Nat} (h : i < 512) : (BitVec.ofNat 9 i).setWidth 32 = BitVec.ofNat 32 i := by
  apply BitVec.eq_of_toNat_eq
  simp only [BitVec.toNat_setWidth, BitVec.toNat_ofNat]
  omega

/-- Settles O30: a used slot by `nodeLinkWord_commitTables` and `nodeFreqWord_commitTables`, another by
`nodeWord_commitTables_unused`. -/
theorem encodeWritesEveryNode : Obligations.EncodeWritesEveryNode := by
  intro s h
  obtain ⟨t, ht, htables⟩ := exec_encode_tables h
  refine ⟨t, ht, fun i hi => ?_⟩
  rw [htables _ (by rw [nodeLinkAddr]; omega), htables _ (by rw [nodeFreqAddr]; omega)]
  have hfreq {p : TreeNode} (hp : (buildTree (symInOperand s s.symInLen.toNat))[i]? = some p) :
      (BitVec.ofNat 32 p.freq).toNat = p.freq := by
    have hle := buildTree_freq_le (List.mem_of_getElem? hp)
    rw [symInOperand_length] at hle
    exact Nat.mod_eq_of_lt (by omega)
  split
  next x f hp =>
    rw [nodeLinkWord_commitTables hp, nodeFreqWord_commitTables hp]
    exact ⟨leafLink_eq x, hfreq hp⟩
  next l r f hp =>
    obtain ⟨hl, hr⟩ := childrenBelow_buildTree _ i l r f hp
    rw [nodeLinkWord_commitTables hp, nodeFreqWord_commitTables hp, linkWord, internalLink_eq,
      setWidth_nodeIndex (by omega), setWidth_nodeIndex (by omega)]
    exact ⟨rfl, hfreq hp⟩
  next hp =>
    have hunused := List.getElem?_eq_none_iff.1 hp
    exact ⟨nodeWord_commitTables_unused hi hunused (.inl rfl) _, nodeWord_commitTables_unused hi hunused (.inr rfl) _⟩

/-! ### The registers -/

/-- SYM_IN and SYM_OUT lie between the tables and BITBUF, where a commit writes nothing (41_encoder.md R156). -/
theorem byte?_commitEncode_symbols (input : List Symbol) (s : State) {a : Nat} (hlo : 0x4000 ≤ a) (hhi : a < 0xC000) :
    Memory.byte? (s.commitEncode input).mem a = Memory.byte? s.mem a :=
  (byte?_packStream_below _ _ hhi).trans (byte?_commitTables_outside _ _ (isTableByte_of_ge hlo))

/-- Settles O28: the commit's registers hold the numbers of the input's distinct symbols, which fit them. -/
theorem encodeCompletesWithItsRegisters : Obligations.EncodeCompletesWithItsRegisters := by
  intro s h
  have hle := distinct_le (symInOperand s s.symInLen.toNat)
  have hvalid : decide (1 ≤ distinct (symInOperand s s.symInLen.toNat)) = decide (1 ≤ s.symInLen.toNat) := by
    rw [decide_eq_decide, distinct_pos_iff, symInOperand_length]
  refine ⟨_, exec_encode_ok h, ?_⟩
  simp only [← distinct_eq_card]
  refine ⟨by rw [← hvalid]; rfl, ?_, ?_, ?_, rfl, Nat.le_add_right _ _,
    fun a hlo hhi => byte?_commitEncode_symbols _ _ hlo hhi⟩
  · exact Nat.mod_eq_of_lt (by omega)
  · refine (Nat.mod_eq_of_lt (by rw [rootSlot]; omega)).trans ?_
    rw [rootSlot]; split <;> omega
  · refine (Nat.mod_eq_of_lt (by rw [nodeCount]; omega)).trans ?_
    rw [nodeCount]; split <;> omega

/-- Two commits of one input give the same tree, whatever was held before (41_encoder.md R158). -/
theorem sameTree_commitEncode (input : List Symbol) (s s' : State) :
    (s.commitEncode input).SameTree (s'.commitEncode input) := by
  refine ⟨rfl, rfl, rfl, rfl, fun a ha => ?_⟩
  have := (isTableByte_iff a).1 ha
  exact (byte?_packStream_below _ _ (by omega)).trans
    ((byte?_commitTables_table _ _ _ ha).trans (byte?_packStream_below _ _ (by omega)).symm)

/-- Settles O43: both states commit the same input, by `sameTree_commitEncode` and `word?_packStream`. -/
theorem encodeIsAFunctionOfItsInput : Obligations.EncodeIsAFunctionOfItsInput := by
  intro s s' h hlen hinput
  have h' : s'.symInLen.toNat ≤ 4096 := hlen ▸ h
  refine ⟨_, _, exec_encode_ok h, exec_encode_ok h', ?_⟩
  rw [hlen, hinput]
  exact ⟨sameTree_commitEncode _ (s.takeDraws _) (s'.takeDraws _), rfl, fun w hw hlt =>
    (word?_packStream _ _ hw hlt).trans (word?_packStream _ _ hw hlt).symm⟩

end Sys2Proof.Machine
end

section
/-! SUPPORT. DECODE on any tree: how WalkFull can end, what DECODE leaves alone, and that a second DECODE agrees
(42_decoder.md R175, R177, R178, R180, R182). -/

namespace Sys2Proof.Machine

/-! ### WalkFull, bit by bit -/

section
variable (m : Memory) (root : NodeIndex) (bits : BitString) (k cnt start : Nat)

theorem walkFull_nil_root : walkFull m root [] k root cnt start = ⟨[], .complete⟩ := by simp [walkFull]

theorem walkFull_nil_inside {node : NodeIndex} (h : node ≠ root) :
    walkFull m root [] k node cnt start = ⟨[], .trunc start⟩ := by simp [walkFull, h]

/-- The position of a code's first bit is kept once the walk has left the root (42_decoder.md R178). -/
def codeStart (node : NodeIndex) : Nat := if node = root then k else start

theorem walkFull_cons (b : Bool) (node : NodeIndex) :
    walkFull m root (b :: bits) k node cnt start =
      if linkIsLeaf (nodeLink m (linkChild (nodeLink m node) b)) then
        if cnt = 4096 then ⟨[], .ovf k⟩
        else (walkFull m root bits (k + 1) root (cnt + 1) (codeStart root k start node)).emit
          (linkSymbol (nodeLink m (linkChild (nodeLink m node) b)))
      else walkFull m root bits (k + 1) (linkChild (nodeLink m node) b) cnt (codeStart root k start node) := rfl

/-- At the root the walk forgets where the code before began. -/
theorem walkFull_root_start (start' : Nat) :
    walkFull m root bits k root cnt start = walkFull m root bits k root cnt start' := by
  cases bits with
  | nil => rw [walkFull_nil_root, walkFull_nil_root]
  | cons b bits => simp only [walkFull_cons, codeStart, if_true]

end

/-! ### How it ends -/

/-- A walk over any tree ends with all bits read, in the middle of a code, or at a bit that completes a code too many;
it never finds a bad bit (42_decoder.md R182). -/
theorem walkFull_ending (m : Memory) (root : NodeIndex) (bits : BitString) {k cnt start : Nat} {node : NodeIndex}
    (hstart : node = root ∨ start < k) :
    (walkFull m root bits k node cnt start).ending = .complete ∨
    (∃ j < k + bits.length, (walkFull m root bits k node cnt start).ending = .trunc j) ∨
    (∃ j < k + bits.length, (walkFull m root bits k node cnt start).ending = .ovf j ∧
      (walkFull m root bits k node cnt start).out.length + cnt = 4096) := by
  induction bits generalizing k cnt start node with
  | nil =>
    by_cases hnode : node = root
    · subst hnode; rw [walkFull_nil_root]; exact .inl rfl
    · rw [walkFull_nil_inside m root k cnt start hnode]
      exact .inr (.inl ⟨start, by have := hstart.resolve_left hnode; simpa using this, rfl⟩)
  | cons b bits ih =>
    have hlt : codeStart root k start node < k + 1 := by
      rw [codeStart]; split
      · exact Nat.lt_succ_self k
      · have := hstart.resolve_left ‹_›; omega
    have hlen : k + 1 + bits.length = k + (b :: bits).length := by rw [List.length_cons]; omega
    rw [walkFull_cons]
    split
    · split
      · exact .inr (.inr ⟨k, by omega, rfl, by simpa using ‹cnt = 4096›⟩)
      · have hrec := ih (k := k + 1) (cnt := cnt + 1) (start := codeStart root k start node) (node := root) (.inl rfl)
        rw [hlen] at hrec
        simp only [Walk.emit, List.length_cons]
        rwa [Nat.add_right_comm, Nat.add_assoc]
    · rw [← hlen]
      exact ih (.inr hlt)

theorem decodeWalk_of_two_le {s : State} (h : 2 ≤ s.nsym.toNat) (bits : BitString) :
    decodeWalk s bits = walkFull s.mem s.root bits 0 s.root 0 0 := if_pos h

/-- Settles O48, by `walkFull_ending`: the three ends, each with its position in the stream. -/
theorem fullTreeDecodesEveryStream : Obligations.FullTreeDecodesEveryStream := by
  intro s h1 h2 ht hn
  refine ⟨_, exec_decode_afterWalk h1 h2 ht, ?_⟩
  have hroom := decodeWalk_out_length s (streamOperand s s.bitLen.toNat)
  have hends := walkFull_ending s.mem s.root (streamOperand s s.bitLen.toNat) (k := 0) (cnt := 0) (start := 0)
    (.inl rfl)
  rw [← decodeWalk_of_two_le hn, streamOperand_length, Nat.zero_add] at hends
  rw [State.afterWalk_symOutLen s hroom]
  rcases hends with he | ⟨j, hj, he⟩ | ⟨j, hj, he, hout⟩ <;> simp only [State.afterWalk, he]
  · exact .inl ⟨rfl, rfl⟩
  · exact .inr (.inl ⟨rfl, (Nat.mod_eq_of_lt (by omega)).trans_lt hj⟩)
  · exact .inr (.inr ⟨rfl, (Nat.mod_eq_of_lt (by omega)).trans_lt hj, hout⟩)

/-! ### The frame, and a second DECODE -/

theorem walkFull_congr {m m' : Memory} (h : ∀ i, nodeLink m' i = nodeLink m i) (root : NodeIndex) (bits : BitString)
    (k : Nat) (node : NodeIndex) (cnt start : Nat) :
    walkFull m' root bits k node cnt start = walkFull m root bits k node cnt start := by
  induction bits generalizing k node cnt start with
  | nil => rfl
  | cons b bits ih => simp only [walkFull_cons, h, ih]

theorem walkSingle_congr {m m' : Memory} (h : ∀ i, nodeLink m' i = nodeLink m i) (bits : BitString) (k cnt : Nat) :
    walkSingle m' bits k cnt = walkSingle m bits k cnt := by
  induction bits generalizing k cnt with
  | nil => rfl
  | cons b bits ih => simp only [walkSingle, h, ih]

/-- A walk depends on NSYM, ROOT and the NODE_LINK words alone (42_decoder.md R170). -/
theorem decodeWalk_congr {s t : State} (hn : t.nsym = s.nsym) (hr : t.root = s.root)
    (hm : ∀ i, nodeLink t.mem i = nodeLink s.mem i) (bits : BitString) : decodeWalk t bits = decodeWalk s bits := by
  simp only [decodeWalk, hn, hr, walkFull_congr hm, walkSingle_congr hm]

/-- Where every word of the stream is written, the operand does not depend on the draws (42_decoder.md R180). -/
theorem streamOperand_congr {s t : State} {len : Nat}
    (hs : ∀ w, 32 * w < len → (Memory.word? s.mem (bitBufAddr w)).isSome = true)
    (ht : ∀ w, 32 * w < len → Memory.word? t.mem (bitBufAddr w) = Memory.word? s.mem (bitBufAddr w)) :
    streamOperand t len = streamOperand s len := by
  refine List.map_congr_left fun k hk => ?_
  have hk : 32 * (k / 32) < len := by rw [List.mem_range] at hk; omega
  obtain ⟨v, hv⟩ := Option.isSome_iff_exists.1 (hs _ hk)
  rw [streamBit_some hv, streamBit_some ((ht _ hk).trans hv)]

theorem byte?_writeSymOut_outside {out : List Symbol} (h : out.length ≤ 4096) (m : Memory) {a : Nat}
    (ha : a < 0x8000 ∨ 0xC000 ≤ a) : Memory.byte? (writeSymOut out m) a = Memory.byte? m a := by
  rw [byte?_writeSymOut _ _ _ h, if_neg (by omega)]

theorem State.afterWalk_mem (w : Walk) (s : State) : (s.afterWalk w).mem = writeSymOut w.out s.mem := by
  rw [State.afterWalk, State.endWalk_mem]; rfl

/-- What a walk's end changes (42_decoder.md R179, R180). -/
theorem State.afterWalk_eq (w : Walk) (s : State) : s.afterWalk w =
    { s with mem := (s.afterWalk w).mem, symOutLen := (s.afterWalk w).symOutLen, errInfo := (s.afterWalk w).errInfo,
             eng := .idle, draws := (s.afterWalk w).draws,
             status := { s.status with done := (s.afterWalk w).status.done, err := (s.afterWalk w).status.err,
                                       errCode := (s.afterWalk w).status.errCode, busy := false } } := by
  obtain ⟨out, ending⟩ := w
  cases ending <;> rfl

theorem State.afterWalk_errInfo_congr (w : Walk) (s t : State) : (s.afterWalk w).errInfo = (t.afterWalk w).errInfo := by
  obtain ⟨out, ending⟩ := w
  cases ending <;> rfl

theorem State.afterWalk_treeValid (w : Walk) (s : State) : (s.afterWalk w).status.treeValid = s.status.treeValid := by
  rw [State.afterWalk_eq]

/-- A second walk over written words gives the same output and end (42_decoder.md R180). -/
theorem decodeWalk_afterWalk {s : State} {w : Walk} (hroom : w.out.length ≤ 4096)
    (hwritten : ∀ i, 32 * i < s.bitLen.toNat → (Memory.word? s.mem (bitBufAddr i)).isSome = true) :
    decodeWalk (s.afterWalk w) (streamOperand (s.afterWalk w) s.bitLen.toNat) =
      decodeWalk s (streamOperand s s.bitLen.toNat) := by
  have hword : ∀ a, (a + 4 ≤ 0x8000 ∨ 0xC000 ≤ a) → Memory.word? (s.afterWalk w).mem a = Memory.word? s.mem a := by
    intro a ha
    refine Memory.word?_congr fun i hi => ?_
    rw [State.afterWalk_mem, byte?_writeSymOut_outside hroom _ (by omega)]
  rw [streamOperand_congr hwritten fun i hi => hword _ (by rw [bitBufAddr]; omega)]
  refine decodeWalk_congr (by rw [State.afterWalk_eq]) (by rw [State.afterWalk_eq]) (fun i => ?_) _
  have := i.isLt
  rw [nodeLink, nodeLink, Memory.tableWord, Memory.tableWord, hword _ (by rw [nodeLinkAddr]; omega)]

/-- Settles O50: each end of DECODE by its equation, the second walk by `decodeWalk_afterWalk`. -/
theorem decodeLeavesTheTreeAlone : Obligations.DecodeLeavesTheTreeAlone := by
  intro s
  rcases exec_decode_cases s with ⟨hlong, he⟩ | ⟨hempty, he⟩ | ⟨h1, h2, ht, he⟩ | ⟨h1, h2, ht, he⟩
  · exact ⟨_, he, rfl, fun _ _ => rfl, fun _ => ⟨_, exec_decode_tooLong hlong, rfl, rfl, fun _ _ => rfl⟩⟩
  · exact ⟨_, he, rfl, fun _ _ => rfl, fun _ => ⟨_, exec_decode_empty hempty, rfl, rfl, fun _ _ => rfl⟩⟩
  · exact ⟨_, he, rfl, fun _ _ => rfl, fun _ => ⟨_, exec_decode_noTree h1 h2 ht, rfl, rfl, fun _ _ => rfl⟩⟩
  · have hroom := decodeWalk_out_length s (streamOperand s s.bitLen.toNat)
    refine ⟨_, exec_decode_afterWalk h1 h2 ht, State.afterWalk_eq _ s, fun a ha => ?_, fun hwritten => ?_⟩
    · rw [State.afterWalk_mem, byte?_writeSymOut_outside hroom _ ha]
    · have hsame := decodeWalk_afterWalk hroom hwritten
      have hbits : ∀ w, (s.afterWalk w).bitLen = s.bitLen := fun w => by rw [State.afterWalk_eq]
      have hsecond := exec_decode_afterWalk (s := s.afterWalk (decodeWalk s (streamOperand s s.bitLen.toNat)))
        (by rwa [hbits]) (by rwa [hbits]) (by rwa [State.afterWalk_treeValid])
      rw [hbits, hsame] at hsecond
      refine ⟨_, hsecond, ?_, State.afterWalk_errInfo_congr _ _ _, fun j hj => ?_⟩
      · exact BitVec.eq_of_toNat_eq ((State.afterWalk_symOutLen _ hroom).trans (State.afterWalk_symOutLen _ hroom).symm)
      · rw [State.afterWalk_symOutLen s hroom] at hj
        rw [State.afterWalk_symbol? _ j hroom, State.afterWalk_symbol? _ j hroom, List.getElem?_eq_getElem hj,
          Option.some_or, Option.some_or]

end Sys2Proof.Machine
end

section
/-! SUPPORT. WalkFull on the tree of an input reads codes back: whole codes, a part of one at the end, one too many; and
so DECODE gives back what ENCODE wrote (42_decoder.md R175, R177, R178, R181). -/

namespace Sys2Proof.Machine

/-! ### The retained nodes -/

/-- The LINK words of the retained tree are those of the builder's nodes (41_encoder.md R156). -/
theorem State.HoldsTreeOf.nodeLink_eq {s : State} {input : List Symbol} (h : s.HoldsTreeOf input) {i : Nat}
    {p : TreeNode} (hp : (buildTree input)[i]? = some p) : nodeLink s.mem (BitVec.ofNat 9 i) = linkWord p.kind := by
  obtain ⟨_, _, _, _, _, _, hbytes⟩ := h
  obtain ⟨hlt, _⟩ := List.getElem?_eq_some_iff.1 hp
  have hle := buildTree_length_le input
  have hi : (BitVec.ofNat 9 i).toNat = i := Nat.mod_eq_of_lt (by omega)
  rw [nodeLink, hi, ← nodeLinkWord_commitTables hp []]
  refine Memory.tableWord_congr fun j hj => hbytes _ ?_
  rw [isTableByte_iff, nodeLinkAddr]; omega

section
variable {s : State} {input : List Symbol} (h : s.HoldsTreeOf input)
include h

theorem State.HoldsTreeOf.treeValid : s.status.treeValid = true := by
  obtain ⟨ht, _⟩ := h
  exact ht

theorem State.HoldsTreeOf.input_length : 1 ≤ input.length ∧ input.length ≤ 4096 := by
  obtain ⟨_, hpos, hroom, _⟩ := h
  exact ⟨hpos, hroom⟩

theorem State.HoldsTreeOf.root_eq : s.root = BitVec.ofNat 9 (rootSlot (distinct input)) := by
  obtain ⟨_, _, _, _, hroot, _⟩ := h
  exact hroot

theorem State.HoldsTreeOf.nsym_toNat : s.nsym.toNat = distinct input := by
  obtain ⟨_, _, _, hnsym, _⟩ := h
  have hle := distinct_le input
  rw [hnsym]
  exact Nat.mod_eq_of_lt (by omega)

end

theorem linkIsLeaf_internal (l r : Nat) : linkIsLeaf (linkWord (.internal l r)) = false := linkIsLeaf_internalLink _ _

theorem linkIsLeaf_leaf (x : Symbol) : linkIsLeaf (linkWord (.leaf x)) = true := linkIsLeaf_leafLink x

theorem linkChild_internal (l r : Nat) (b : Bool) :
    linkChild (linkWord (.internal l r)) b = BitVec.ofNat 9 (if b then r else l) := by
  rw [linkWord, linkChild_internalLink]; cases b <;> rfl

theorem follow_cons {nodes : List TreeNode} {i j : Nat} {b : Bool} {path : BitString}
    (h : follow nodes i (b :: path) = some j) :
    ∃ l r f, nodes[i]? = some ⟨.internal l r, f⟩ ∧ follow nodes (if b then r else l) path = some j := by
  rw [follow] at h
  split at h
  next l r f hn => exact ⟨l, r, f, hn, h⟩
  next => cases h

theorem exists_internal_of_follow {nodes : List TreeNode} {i j : Nat} {path : BitString} (hne : path ≠ [])
    (h : follow nodes i path = some j) : ∃ l r f, nodes[i]? = some ⟨.internal l r, f⟩ := by
  obtain ⟨b, path, rfl⟩ := List.exists_cons_of_ne_nil hne
  obtain ⟨l, r, f, hn, _⟩ := follow_cons h
  exact ⟨l, r, f, hn⟩

/-! ### One code -/

/-- A memory holds the LINK words of a builder's nodes, whose root is in the last slot. -/
structure HoldsNodes (nodes : List TreeNode) (root : Nat) (m : Memory) : Prop where
  below : ChildrenBelow nodes
  length_le : nodes.length ≤ 511
  root_last : root + 1 = nodes.length
  link : ∀ (i : Nat) (p : TreeNode), nodes[i]? = some p → nodeLink m (BitVec.ofNat 9 i) = linkWord p.kind

section
variable {nodes : List TreeNode} {root : Nat} {m : Memory} (h : HoldsNodes nodes root m)
include h

theorem HoldsNodes.ne_root {i : Nat} (hi : i < root) : BitVec.ofNat 9 i ≠ BitVec.ofNat 9 root := by
  have := h.length_le
  have := h.root_last
  intro he
  have hnat := congrArg BitVec.toNat he
  rw [BitVec.toNat_ofNat, BitVec.toNat_ofNat, Nat.mod_eq_of_lt (by omega), Nat.mod_eq_of_lt (by omega)] at hnat
  omega

/-- A bit at an internal node whose child is a leaf completes a code. -/
theorem HoldsNodes.walk_to_leaf {i l r f f' : Nat} {x : Symbol} (b : Bool) (hn : nodes[i]? = some ⟨.internal l r, f⟩)
    (hc : nodes[if b then r else l]? = some ⟨.leaf x, f'⟩) (bits : BitString) (k cnt start : Nat) :
    walkFull m (BitVec.ofNat 9 root) (b :: bits) k (BitVec.ofNat 9 i) cnt start =
      if cnt = 4096 then ⟨[], .ovf k⟩
      else (walkFull m (BitVec.ofNat 9 root) bits (k + 1) (BitVec.ofNat 9 root) (cnt + 1) 0).emit x := by
  rw [walkFull_cons, h.link i _ hn, linkChild_internal, h.link _ _ hc, linkIsLeaf_leaf, if_pos rfl,
    walkFull_root_start m _ bits (k + 1) (cnt + 1) _ 0]
  rw [linkWord, linkSymbol_leafLink]

/-- A bit at an internal node whose child is internal goes on from the child. -/
theorem HoldsNodes.walk_to_internal {i l r f l' r' f' : Nat} (b : Bool) (hn : nodes[i]? = some ⟨.internal l r, f⟩)
    (hc : nodes[if b then r else l]? = some ⟨.internal l' r', f'⟩) (bits : BitString) (k cnt start : Nat) :
    walkFull m (BitVec.ofNat 9 root) (b :: bits) k (BitVec.ofNat 9 i) cnt start =
      walkFull m (BitVec.ofNat 9 root) bits (k + 1) (BitVec.ofNat 9 (if b then r else l)) cnt
        (codeStart (BitVec.ofNat 9 root) k start (BitVec.ofNat 9 i)) := by
  rw [walkFull_cons, h.link i _ hn, linkChild_internal, h.link _ _ hc, linkIsLeaf_internal, if_neg Bool.false_ne_true]

/-- A path to a leaf writes the leaf's symbol and goes back to the root, or ends the walk at its last bit where SYM_OUT is
full (42_decoder.md R175, R177). -/
theorem HoldsNodes.walk_code {code : BitString} {i j f : Nat} {x : Symbol} (hne : code ≠ [])
    (hfollow : follow nodes i code = some j) (hleaf : nodes[j]? = some ⟨.leaf x, f⟩) (rest : BitString)
    (k cnt start : Nat) :
    walkFull m (BitVec.ofNat 9 root) (code ++ rest) k (BitVec.ofNat 9 i) cnt start =
      if cnt = 4096 then ⟨[], .ovf (k + code.length - 1)⟩
      else (walkFull m (BitVec.ofNat 9 root) rest (k + code.length) (BitVec.ofNat 9 root) (cnt + 1) 0).emit x := by
  induction code generalizing i k start with
  | nil => exact absurd rfl hne
  | cons b code ih =>
    obtain ⟨l, r, g, hn, hfollow⟩ := follow_cons hfollow
    cases code with
    | nil =>
      cases hfollow
      exact h.walk_to_leaf b hn hleaf rest k cnt start
    | cons b' code =>
      obtain ⟨l', r', g', hc⟩ := exists_internal_of_follow (by simp) hfollow
      rw [List.cons_append, h.walk_to_internal b hn hc, ih (by simp) hfollow]
      simp only [List.length_cons, Nat.add_assoc, Nat.add_comm 1]

/-- A part of a path, not all of it, ends the walk in the middle of the code, with the position of the code's first bit
(42_decoder.md R178). -/
theorem HoldsNodes.walk_part {part rest : BitString} {i j : Nat} (hi : i < root ∨ (i = root ∧ part ≠ []))
    (hne : rest ≠ []) (hfollow : follow nodes i (part ++ rest) = some j) (k cnt start : Nat) :
    walkFull m (BitVec.ofNat 9 root) part k (BitVec.ofNat 9 i) cnt start =
      ⟨[], .trunc (codeStart (BitVec.ofNat 9 root) k start (BitVec.ofNat 9 i))⟩ := by
  induction part generalizing i k start with
  | nil =>
    have hroot := h.ne_root (hi.resolve_right fun hr => hr.2 rfl)
    rw [walkFull_nil_inside m _ k cnt start hroot, codeStart, if_neg hroot]
  | cons b part ih =>
    rw [List.cons_append] at hfollow
    obtain ⟨l, r, g, hn, hfollow⟩ := follow_cons hfollow
    obtain ⟨l', r', g', hc⟩ := exists_internal_of_follow (by simp [hne]) hfollow
    obtain ⟨hl, hr⟩ := h.below i l r g hn
    have hchild : (if b then r else l) < root := by split <;> omega
    rw [h.walk_to_internal b hn hc, ih (.inl hchild) hfollow, codeStart, if_neg (h.ne_root hchild)]

end

/-! ### The codes of an input -/

section
variable {s : State} {input : List Symbol} (h : s.HoldsTreeOf input) (hd : 2 ≤ distinct input)
include h hd

theorem State.HoldsTreeOf.holdsNodes : HoldsNodes (buildTree input) (rootSlot (distinct input)) s.mem where
  below := childrenBelow_buildTree input
  length_le := buildTree_length_le input
  root_last := by rw [buildTree_length, rootSlot, nodeCount]; omega
  link _ _ hp := h.nodeLink_eq hp

/-- A symbol's code writes the symbol, or ends the walk at its last bit where SYM_OUT is full (42_decoder.md R175,
R177). -/
theorem State.HoldsTreeOf.walk_codeOf {x : Symbol} (hx : x ∈ input) (rest : BitString) (k cnt : Nat) :
    walkFull s.mem s.root (codeOf (genCodes input) x ++ rest) k s.root cnt 0 =
      if cnt = 4096 then ⟨[], .ovf (k + (codeOf (genCodes input) x).length - 1)⟩
      else (walkFull s.mem s.root rest (k + (codeOf (genCodes input) x).length) s.root (cnt + 1) 0).emit x := by
  obtain ⟨j, f, hfollow, hleaf⟩ := follow_codeOf hd hx
  have hne : codeOf (genCodes input) x ≠ [] := List.ne_nil_of_length_pos (codeOf_length_pos hd hx)
  rw [h.root_eq]
  exact (h.holdsNodes hd).walk_code hne hfollow hleaf rest k cnt 0

/-- The codes of symbols that SYM_OUT has room for write them, and the walk goes on with the bits that follow. -/
theorem State.HoldsTreeOf.walk_codes {xs : List Symbol} (hxs : ∀ x ∈ xs, x ∈ input) {cnt : Nat}
    (hroom : cnt + xs.length ≤ 4096) (rest : BitString) (k : Nat) :
    walkFull s.mem s.root (xs.flatMap (codeOf (genCodes input)) ++ rest) k s.root cnt 0 =
      ⟨xs ++ (walkFull s.mem s.root rest (k + (xs.flatMap (codeOf (genCodes input))).length) s.root
          (cnt + xs.length) 0).out,
        (walkFull s.mem s.root rest (k + (xs.flatMap (codeOf (genCodes input))).length) s.root
          (cnt + xs.length) 0).ending⟩ := by
  induction xs generalizing cnt k with
  | nil => rfl
  | cons x xs ih =>
    rw [List.length_cons] at hroom
    have hxs' : ∀ y ∈ xs, y ∈ input := fun y hy => hxs y (List.mem_cons_of_mem x hy)
    rw [List.flatMap_cons, List.append_assoc, h.walk_codeOf hd (hxs x List.mem_cons_self), if_neg (by omega),
      ih hxs' (by omega)]
    simp only [Walk.emit, List.cons_append, List.length_append, List.length_cons, Nat.add_assoc, Nat.add_comm 1]

/-- A part of a code, not empty and not all of it, ends the walk at its first bit (42_decoder.md R178). -/
theorem State.HoldsTreeOf.walk_codePart {y : Symbol} (hy : y ∈ input) {p : BitString} (hne : p ≠ [])
    (hprefix : p <+: codeOf (genCodes input) y) (hpart : p ≠ codeOf (genCodes input) y) (k cnt : Nat) :
    walkFull s.mem s.root p k s.root cnt 0 = ⟨[], .trunc k⟩ := by
  obtain ⟨q, hq⟩ := hprefix
  obtain ⟨j, _, hfollow, _⟩ := follow_codeOf hd hy
  have hqne : q ≠ [] := by rintro rfl; exact hpart (by simpa using hq)
  rw [h.root_eq, (h.holdsNodes hd).walk_part (.inr ⟨rfl, hne⟩) hqne (hq ▸ hfollow), codeStart, if_pos rfl]

/-- DECODE's walk over codes and what follows them. -/
theorem State.HoldsTreeOf.decodeWalk_codes {xs : List Symbol} (hxs : ∀ x ∈ xs, x ∈ input) (hroom : xs.length ≤ 4096)
    {rest : BitString} {e : WalkEnd}
    (hrest : walkFull s.mem s.root rest (xs.flatMap (codeOf (genCodes input))).length s.root xs.length 0 = ⟨[], e⟩) :
    decodeWalk s (xs.flatMap (codeOf (genCodes input)) ++ rest) = ⟨xs, e⟩ := by
  rw [decodeWalk_of_two_le (by rwa [h.nsym_toNat]), h.walk_codes hd hxs (by omega), Nat.zero_add, Nat.zero_add, hrest,
    List.append_nil]

end

/-- SYM_OUT_LEN and SYM_OUT hold the symbols `xs` (42_decoder.md R179). -/
def State.HoldsOutput (xs : List Symbol) (s : State) : Prop :=
  s.symOutLen.toNat = xs.length ∧ ∀ j (h : j < xs.length), Memory.symbol? s.mem (symOutAddr j) = some xs[j]

/-- The state after a walk that wrote `xs`. -/
theorem exec_decode_of_walk {s : State} {xs : List Symbol} {e : WalkEnd} (h1 : 1 ≤ s.bitLen.toNat)
    (h2 : s.bitLen.toNat ≤ 32768) (ht : s.status.treeValid = true) (hxs : xs.length ≤ 4096)
    (hwalk : decodeWalk s (streamOperand s s.bitLen.toNat) = ⟨xs, e⟩) :
    exec .decode s = .next (s.afterWalk ⟨xs, e⟩) ∧ (s.afterWalk ⟨xs, e⟩).HoldsOutput xs := by
  refine ⟨hwalk ▸ exec_decode_afterWalk h1 h2 ht, State.afterWalk_symOutLen s hxs, fun j hj => ?_⟩
  rw [State.afterWalk_symbol? s j hxs, List.getElem?_eq_getElem hj, Option.some_or]

/-- Settles O51, by `State.HoldsTreeOf.decodeWalk_codes` with each of the three ends of the stream. -/
theorem decodeReadsCodesBack : Obligations.DecodeReadsCodesBack := by
  constructor
  · intro s input xs p h hd hxs hroom h1 h2 hp hstream
    rw [← distinct_eq_card] at hd
    have hlen := congrArg List.length hstream
    rw [streamOperand_length, List.length_append] at hlen
    by_cases hnil : p = []
    · subst hnil
      have hwalk := h.decodeWalk_codes hd hxs hroom (walkFull_nil_root s.mem s.root _ _ 0)
      obtain ⟨hexec, hout, hsyms⟩ := exec_decode_of_walk h1 h2 h.treeValid hroom (hstream ▸ hwalk)
      exact ⟨_, hexec, hout, hsyms, fun _ => ⟨rfl, rfl⟩, fun hne => absurd rfl hne⟩
    · obtain ⟨y, hy, hprefix, hpart⟩ := hp.resolve_left hnil
      have hwalk := h.decodeWalk_codes hd hxs hroom (h.walk_codePart hd hy hnil hprefix hpart _ _)
      obtain ⟨hexec, hout, hsyms⟩ := exec_decode_of_walk h1 h2 h.treeValid hroom (hstream ▸ hwalk)
      exact ⟨_, hexec, hout, hsyms, fun he => absurd he hnil, fun _ => ⟨rfl, Nat.mod_eq_of_lt (by omega)⟩⟩
  · intro s input xs y rest h hd hxs hfull hy h2 hstream
    rw [← distinct_eq_card] at hd
    have hpos := codeOf_length_pos hd hy
    have hlen := congrArg List.length hstream
    rw [streamOperand_length, List.length_append, List.length_append] at hlen
    have hwalk := h.decodeWalk_codes hd hxs hfull.le ((h.walk_codeOf hd hy rest _ _).trans (if_pos hfull))
    rw [← List.append_assoc, ← hstream] at hwalk
    obtain ⟨hexec, hout, hsyms⟩ := exec_decode_of_walk (by omega) h2 h.treeValid hfull.le hwalk
    refine ⟨_, hexec, rfl, hout.trans hfull, hsyms, ?_⟩
    refine (congrArg (· + 1) (Nat.mod_eq_of_lt ?_)).trans ?_ <;> omega

/-! ### The round trip -/

/-- With one symbol the tree is its leaf (41_encoder.md R143). -/
theorem buildTree_of_single {input : List Symbol} {x : Symbol} (hx : x ∈ input) (hall : ∀ y ∈ input, y = x) :
    buildTree input = [⟨.leaf x, input.count x⟩] := by
  have hseed : seedLeaves input = [⟨.leaf x, input.count x⟩] := by
    rw [seedLeaves, presentSymbols_of_single hx hall]; rfl
  rw [buildTree, hseed, mergeLoop_of_lt (by simp)]

/-- DECODE's walk over the stream of the retained tree's own input writes that input (42_decoder.md R181). -/
theorem State.HoldsTreeOf.decodeWalk_serialize {s : State} {input : List Symbol} (h : s.HoldsTreeOf input) :
    decodeWalk s (serialize input) = ⟨input, .complete⟩ := by
  obtain ⟨hpos, hroom⟩ := h.input_length
  have hcases : distinct input = 1 ∨ 2 ≤ distinct input := by
    have := (distinct_pos_iff input).2 hpos; omega
  rcases hcases with hone | htwo
  · obtain ⟨x, hx, hall⟩ := exists_single (by rwa [← distinct_eq_card])
    obtain ⟨_, hstream⟩ := singleSymbolCodeIsZero input x hx hall
    have hsymbol : firstSymbol s.mem = x := by
      have hlink := h.nodeLink_eq (i := 0) (by rw [buildTree_of_single hx hall]; rfl)
      rw [firstSymbol, hlink, linkWord, linkSymbol_leafLink]
    rw [decodeWalk_of_nsym_lt (by rw [h.nsym_toNat, hone]; decide), hstream,
      walkSingle_of_zeros s.mem (n := input.length) (e := .complete)
        ((Nat.zero_add _).trans_le hroom) (fun j hj => by simp [hj]) (by simp [walkSingle_nil]), hsymbol,
      ← List.eq_replicate_of_mem hall]
  · have hwalk := h.decodeWalk_codes htwo (fun _ hx => hx) hroom (walkFull_nil_root s.mem s.root _ _ 0)
    rwa [List.append_nil] at hwalk

/-- The stream operand is the packed stream, whatever else memory holds (30_encoding.md R95; 41_encoder.md R154). -/
theorem streamOperand_of_packed {s : State} {stream : BitString}
    (h : ∀ w, 32 * w < stream.length → Memory.word? s.mem (bitBufAddr w) = some (packWord stream w)) :
    streamOperand s stream.length = stream := by
  refine List.ext_getElem (by rw [streamOperand_length]) fun k _ hk => ?_
  rw [streamOperand_getElem, streamBit_some (h (k / 32) (by omega)), msbBit_packWord, List.getD_eq_getElem _ _ hk]

theorem serialize_length_pos {input : List Symbol} (h : 1 ≤ input.length) : 1 ≤ (serialize input).length := by
  obtain ⟨x, hx⟩ := List.exists_mem_of_length_pos h
  by_contra hnil
  have hcode := List.flatMap_eq_nil_iff.1 (List.length_eq_zero_iff.1 (by omega : (serialize input).length = 0)) x hx
  have hpos := codeOf_length_pos_of_mem hx
  rw [hcode] at hpos; cases hpos

/-- DECODE of what a commit wrote, in any state with that tree, BIT_LEN and BITBUF, gives the input back. -/
theorem exec_decode_after_commitEncode {s u : State} {input : List Symbol} (hpos : 1 ≤ input.length)
    (hlen : input.length ≤ 4096) (htree : (s.commitEncode input).SameTree u)
    (hbits : u.bitLen = (s.commitEncode input).bitLen)
    (hbuf : ∀ a, 0xC000 ≤ a → a < 0xD000 → Memory.byte? u.mem a = Memory.byte? (s.commitEncode input).mem a) :
    exec .decode u = .next (u.afterWalk ⟨input, .complete⟩) ∧ (u.afterWalk ⟨input, .complete⟩).HoldsOutput input := by
  have hholds := (s.holdsTreeOf_commitEncode hpos hlen ((distinct_pos_iff input).2 hpos)).of_sameTree htree
  have hfits := serialize_length_le_eight input
  have hstream : u.bitLen.toNat = (serialize input).length := by
    rw [hbits]; exact Nat.mod_eq_of_lt (by omega)
  have hpacked : streamOperand u u.bitLen.toNat = serialize input := by
    rw [hstream]
    refine streamOperand_of_packed fun w hw => ?_
    rw [← word?_packStream (serialize input) (commitTables input s.mem) (by omega) hw]
    exact Memory.word?_congr fun i hi => hbuf _ (by rw [bitBufAddr]; omega) (by rw [bitBufAddr]; omega)
  have hnonempty := serialize_length_pos hpos
  exact exec_decode_of_walk (by omega) (by omega) hholds.treeValid hlen (hpacked ▸ hholds.decodeWalk_serialize)

/-- Settles O52: an empty input leaves an empty stream, and another is read back by `exec_decode_after_commitEncode`. -/
theorem roundTrip : Obligations.RoundTrip := by
  intro s t u h hencode htree hbits hbuf
  rw [exec_encode_ok h] at hencode
  cases hencode
  have hlen := symInOperand_length s s.symInLen.toNat
  rcases Nat.eq_zero_or_pos s.symInLen.toNat with h0 | hpos
  · have hempty : u.bitLen.toNat = 0 := by
      have hnil : symInOperand s s.symInLen.toNat = [] := List.eq_nil_of_length_eq_zero (hlen.trans h0)
      rw [hbits, State.succeed_bitLen, State.commitEncode_bitLen, hnil]; rfl
    exact ⟨_, exec_decode_empty hempty, rfl, rfl, h0.symm, fun i hi => by omega⟩
  · obtain ⟨hexec, hout, hsyms⟩ := exec_decode_after_commitEncode (s := s.takeDraws s.symInLen.toNat) (by rwa [hlen])
      (by rwa [hlen]) htree hbits hbuf
    refine ⟨_, hexec, rfl, rfl, hout.trans hlen, fun i hi => ?_⟩
    rw [hsyms i (by rwa [hlen]), List.getElem?_eq_getElem]

end Sys2Proof.Machine
end

section
/-! SUPPORT. The whole machine: what a step does to STATUS, memory and the retained tree, the invariant that every step
keeps, and the end of every running command (10_state.md R27, R35, R40, R44; 40_commands.md R121; 60_exceptions.md R200). -/

namespace Sys2Proof.Machine

/-! ### The engine's step -/

theorem step_engine {s : State} {op : BitVec 4} {w : Word} (hok : s.status.reservedErrCode = false)
    (hnext : nextTurn s = .engine) (heng : s.eng = .busy op w) : step s = runCommand w s.popTurn := by
  rw [step_eq_takeTurn hok, hnext, takeTurn, engineStep, State.popTurn_eng, heng]

/-- Settles O20, by `step_engine`, and `runCommand` on a legal and on an illegal word. -/
theorem stepRunsTheDecodedCommand : Obligations.StepRunsTheDecodedCommand := by
  intro s op w hok hnext heng
  have hstep := step_engine hok hnext heng
  exact ⟨hstep, fun i hd => hstep.trans (runCommand_command hd _),
    fun hillegal => hstep.trans (runCommand_of_illegalFields hillegal _)⟩

/-- A run goes on from the state that its first step answers. -/
theorem run_succ {s t : State} (h : step s = .next t) (k : Nat) :
    Sys2Proof.core.run (k + 1) s = Sys2Proof.core.run k t := by
  have hstep : Sys2Proof.core.step s = .next t := h
  simp only [Host.Core.run, hstep]

/-- Settles O21: the host's step issues the word by `hostWrite_cmd`, the engine's ends it by `step_engine`. -/
theorem illegalWordEndsInError : Obligations.IllegalWordEndsInError := by
  intro s w rest ts hok hidle hturns hprog hillegal
  have hissue : step s =
      .next { s.issue w with rsp := some (.write false), program := rest, turns := .engine :: ts } := by
    rw [step_wr hok (by rw [nextTurn, hturns]) hprog, hostWrite_cmd, if_neg (by simp [hidle]), hturns]
    rfl
  have hend := (step_engine
    (s := { s.issue w with rsp := some (.write false), program := rest, turns := .engine :: ts })
    rfl rfl rfl).trans (runCommand_of_illegalFields hillegal _)
  exact (run_succ hissue 1).trans (run_succ hend 0)

/-! ### The end of a command -/

/-- What the end of every command keeps, and the ways it can end: DONE without an error and ERR_INFO 0, or an error
(40_commands.md R121; 60_exceptions.md R201). -/
structure CommandEnd (s t : State) : Prop where
  ie : t.ie = s.ie
  symInLen : t.symInLen = s.symInLen
  rsp : t.rsp = s.rsp
  program : t.program = s.program
  turns : t.turns = s.turns
  symIn : ∀ a, 0x4000 ≤ a → a < 0x8000 → Memory.byte? t.mem a = Memory.byte? s.mem a
  ends : (∃ v, t.status = (s.status.setTreeValid v).succeed ∧ t.errInfo = 0#32) ∨ ∃ e, t.status = s.status.fail e
  wf : Memory.wf s.mem → Memory.wf t.mem
  whole : Memory.BitBufWhole s.mem → Memory.BitBufWhole t.mem
  symOutLen : s.symOutLen.toNat ≤ 4096 → t.symOutLen.toNat ≤ 4096
  tree : s.TreeOk → t.TreeOk

theorem State.TreeOk.of_sameTree {s t : State} (h : s.TreeOk) (hs : s.SameTree t) : t.TreeOk :=
  h.imp (fun hn => hn.of_sameTree hs) fun ⟨input, hi⟩ => ⟨input, hi.of_sameTree hs⟩

theorem CommandEnd.raise (e : ErrorKind) (info : Word) (s : State) : CommandEnd s (s.raise e info) :=
  ⟨rfl, rfl, rfl, rfl, rfl, fun _ _ _ => rfl, .inr ⟨e, rfl⟩, id, id, id,
    fun h => h.of_sameTree (State.sameTree_of_eq rfl rfl rfl rfl rfl)⟩

theorem CommandEnd.succeed (s : State) : CommandEnd s s.succeed :=
  ⟨rfl, rfl, rfl, rfl, rfl, fun _ _ _ => rfl, .inl ⟨s.status.treeValid, rfl, rfl⟩, id, id, id,
    fun h => h.of_sameTree (State.sameTree_of_eq rfl rfl rfl rfl rfl)⟩

/-- The end of a DECODE of nothing (42_decoder.md R172). -/
theorem CommandEnd.decodeNothing (s : State) : CommandEnd s ({ s with symOutLen := 0#13 } : State).succeed :=
  ⟨rfl, rfl, rfl, rfl, rfl, fun _ _ _ => rfl, .inl ⟨s.status.treeValid, rfl, rfl⟩, id, id, fun _ => Nat.zero_le _,
    fun h => h.of_sameTree (State.sameTree_of_eq rfl rfl rfl rfl rfl)⟩

theorem byte?_clearTables_buffer (m : Memory) {a : Nat} (h : 0x4000 ≤ a) :
    Memory.byte? (Memory.clearTables m) a = Memory.byte? m a := by
  rw [Memory.byte?_clearTables, isTableByte_of_ge h, if_neg Bool.false_ne_true]

theorem CommandEnd.clear (s : State) : CommandEnd s s.dropTree.succeed where
  ie := rfl
  symInLen := rfl
  rsp := rfl
  program := rfl
  turns := rfl
  symIn a ha _ := byte?_clearTables_buffer s.mem ha
  ends := .inl ⟨false, rfl, rfl⟩
  wf := Memory.wf_clearTables
  whole := Memory.bitBufWhole_congr fun a ha _ => byte?_clearTables_buffer s.mem (by omega)
  symOutLen := id
  tree _ := .inl ⟨rfl, rfl, rfl, rfl, fun a ha => (Memory.byte?_clearTables s.mem a).trans (if_pos ha)⟩

/-- A commit of nothing leaves no tree (41_encoder.md R156; 10_state.md R44). -/
theorem State.noTree_commitEncode_nil (s : State) : (s.commitEncode []).NoTree := by
  refine ⟨commitEncode_nil_treeValid s, ?_, ?_, ?_, fun a ha => ?_⟩
  · rw [State.commitEncode_nsym, distinct_nil]
  · rw [State.commitEncode_root, distinct_nil]; rfl
  · rw [State.commitEncode_nnodes, distinct_nil]; rfl
  · have hwords : commitWords [] = [] := by decide
    have := (isTableByte_iff a).1 ha
    rw [State.commitEncode_mem, byte?_packStream_below _ _ (by omega), commitTables_eq, hwords, Memory.setWords_nil,
      Memory.byte?_clearTables, if_pos ha]

theorem CommandEnd.encode {s : State} (h : s.symInLen.toNat ≤ 4096) :
    CommandEnd s (((s.takeDraws s.symInLen.toNat).commitEncode (symInOperand s s.symInLen.toNat)).succeed) where
  ie := rfl
  symInLen := rfl
  rsp := rfl
  program := rfl
  turns := rfl
  symIn a hlo hhi := byte?_commitEncode_symbols _ _ hlo (by omega)
  ends := .inl ⟨_, rfl, rfl⟩
  wf hwf := Memory.wf_setWords _ (Memory.wf_setWords _ (Memory.wf_clearTables hwf))
  whole hwhole := bitBufWhole_packStream _
    (Memory.bitBufWhole_congr (fun a ha _ => byte?_commitTables_outside _ _ (isTableByte_of_ge (by omega))) hwhole)
  symOutLen := id
  tree _ := by
    have hlen := symInOperand_length s s.symInLen.toNat
    rcases Nat.eq_zero_or_pos s.symInLen.toNat with h0 | hpos
    · rw [List.eq_nil_of_length_eq_zero (hlen.trans h0)]
      exact .inl (State.noTree_commitEncode_nil _)
    · exact .inr ⟨_, State.holdsTreeOf_commitEncode _ (by omega) (by omega) ((distinct_pos_iff _).2 (by omega))⟩

theorem Memory.wf_writeSymOut (out : List Symbol) {m : Memory} (h : Memory.wf m) : Memory.wf (writeSymOut out m) := by
  have key : ∀ (l : List (Symbol × Nat)) {m : Memory}, Memory.wf m →
      Memory.wf (l.foldl (fun m p => Memory.setByte m (symOutAddr p.2) p.1) m) := by
    intro l
    induction l with
    | nil => exact id
    | cons p l ih => exact fun hm => ih (Memory.wf_setByte _ _ hm)
  exact key _ h

/-- DECODE keeps the retained tree (42_decoder.md R180). -/
theorem sameTree_afterWalk {w : Walk} (hroom : w.out.length ≤ 4096) (s : State) : s.SameTree (s.afterWalk w) := by
  rw [State.afterWalk_eq]
  refine ⟨rfl, rfl, rfl, rfl, fun a ha => ?_⟩
  have := (isTableByte_iff a).1 ha
  simp only [State.afterWalk_mem, byte?_writeSymOut_outside hroom _ (show a < 0x8000 ∨ 0xC000 ≤ a by omega)]

theorem CommandEnd.decode {w : Walk} (hroom : w.out.length ≤ 4096) (s : State) : CommandEnd s (s.afterWalk w) where
  ie := by rw [State.afterWalk_eq]
  symInLen := by rw [State.afterWalk_eq]
  rsp := by rw [State.afterWalk_eq]
  program := by rw [State.afterWalk_eq]
  turns := by rw [State.afterWalk_eq]
  symIn a _ hhi := by rw [State.afterWalk_mem, byte?_writeSymOut_outside hroom _ (.inl hhi)]
  ends := by
    obtain ⟨out, ending⟩ := w
    cases ending with
    | complete => exact .inl ⟨s.status.treeValid, rfl, rfl⟩
    | badBits | ovf | trunc => exact .inr ⟨_, rfl⟩
  wf hwf := by rw [State.afterWalk_mem]; exact Memory.wf_writeSymOut _ hwf
  whole := by
    rw [State.afterWalk_mem]
    exact Memory.bitBufWhole_congr fun a ha _ => byte?_writeSymOut_outside hroom _ (.inr ha)
  symOutLen _ := by rw [State.afterWalk_symOutLen s hroom]; exact hroom
  tree h := h.of_sameTree (sameTree_afterWalk hroom s)

/-- Every command ends so (40_commands.md R121). -/
theorem exec_commandEnd {i : Instr} {s t : State} (h : exec i s = .next t) : CommandEnd s t := by
  cases i with
  | nop => cases h; exact CommandEnd.succeed s
  | clear => cases h; exact CommandEnd.clear s
  | encode =>
    rcases Nat.lt_or_ge 4096 s.symInLen.toNat with hlen | hlen
    · rw [exec_encode_tooLong hlen] at h; cases h; exact CommandEnd.raise ..
    · rw [exec_encode_ok hlen] at h; cases h; exact CommandEnd.encode hlen
  | decode =>
    rcases exec_decode_cases s with ⟨_, he⟩ | ⟨_, he⟩ | ⟨_, _, _, he⟩ | ⟨_, _, _, he⟩ <;> rw [he] at h <;> cases h
    · exact CommandEnd.raise ..
    · exact CommandEnd.decodeNothing s
    · exact CommandEnd.raise ..
    · exact CommandEnd.decode (decodeWalk_out_length s _) s

theorem runCommand_commandEnd {w : Word} {s t : State} (h : runCommand w s = .next t) : CommandEnd s t := by
  cases hd : decode w with
  | command i => rw [runCommand_command hd] at h; exact exec_commandEnd h
  | illegal x => rw [runCommand_illegal hd] at h; cases h; exact CommandEnd.raise ..

theorem CommandEnd.busyWr_lastOp {s t : State} (h : CommandEnd s t) :
    t.status.busyWr = s.status.busyWr ∧ t.status.lastOp = s.status.lastOp := by
  rcases h.ends with ⟨v, hst, _⟩ | ⟨e, hst⟩ <;> rw [hst] <;> exact ⟨rfl, rfl⟩

/-- Settles O22, by `runCommand_commandEnd` and `runCommand_stopped`. -/
theorem everyCommandCompletes : Obligations.EveryCommandCompletes := by
  intro s w hdone herr hcode
  obtain ⟨t, ht⟩ := runCommand_answers_next w s
  obtain ⟨heng, hbusy⟩ := runCommand_stopped ht
  have hend := runCommand_commandEnd ht
  obtain ⟨hbusyWr, hlastOp⟩ := hend.busyWr_lastOp
  refine ⟨t, ht, heng, hbusy, hbusyWr, hlastOp, hend.ie, hend.symInLen, hend.rsp, hend.program, hend.turns, hend.symIn, ?_⟩
  rcases hend.ends with ⟨v, hst, hinfo⟩ | ⟨e, hst⟩ <;> rw [hst]
  · exact .inl ⟨rfl, herr, hcode, hinfo⟩
  · exact .inr ⟨hdone, rfl, e.code_range⟩

/-! ### What a host step keeps -/

/-- What a host step keeps: the tree, the results of commands and SYM_OUT, and the forms of STATUS and memory
(10_state.md R35, R40). -/
structure HostKeeps (s t : State) : Prop where
  tree : s.SameTree t
  symOutLen : t.symOutLen = s.symOutLen
  errInfo : t.errInfo = s.errInfo
  symOut : ∀ a, 0x8000 ≤ a → a < 0xC000 → Memory.byte? t.mem a = Memory.byte? s.mem a
  statusOk : s.status.Ok → t.status.Ok
  wf : Memory.wf s.mem → Memory.wf t.mem
  whole : Memory.BitBufWhole s.mem → Memory.BitBufWhole t.mem

theorem HostKeeps.trans {s t u : State} (h : HostKeeps s t) (h' : HostKeeps t u) : HostKeeps s u where
  tree := h.tree.trans h'.tree
  symOutLen := h'.symOutLen.trans h.symOutLen
  errInfo := h'.errInfo.trans h.errInfo
  symOut a hlo hhi := (h'.symOut a hlo hhi).trans (h.symOut a hlo hhi)
  statusOk hok := h'.statusOk (h.statusOk hok)
  wf hwf := h'.wf (h.wf hwf)
  whole hwhole := h'.whole (h.whole hwhole)

/-- A step that writes no byte and keeps the tree registers and the results. -/
theorem HostKeeps.of_mem_eq {s t : State} (htree : s.SameTree t) (hout : t.symOutLen = s.symOutLen)
    (hinfo : t.errInfo = s.errInfo) (hmem : t.mem = s.mem) (hok : s.status.Ok → t.status.Ok) : HostKeeps s t :=
  ⟨htree, hout, hinfo, fun _ _ _ => by rw [hmem], hok, fun h => by rwa [hmem], fun h => by rwa [hmem]⟩

theorem HostKeeps.of_sameBlock {s t : State} (h : s.SameBlock t) : HostKeeps s t := by
  obtain ⟨hstatus, _, _, _, hout, hnsym, hroot, hnnodes, hinfo, _, hmem⟩ := h
  exact .of_mem_eq (State.sameTree_of_eq (by rw [hstatus]) hnsym hroot hnnodes hmem) hout hinfo hmem fun hok => by
    rwa [hstatus]

theorem Status.ok_issue (op : BitVec 4) (t : Status) : (t.issue op).Ok := by
  unfold Status.Ok; simp

theorem Status.ok_writeOneToClear (v : Word) {t : Status} (h : t.Ok) : (t.writeOneToClear v).Ok := by
  obtain ⟨hcode, hends, hbusy, hle⟩ := h
  unfold Status.Ok
  cases hclear : v.getLsbD 2 <;> simp_all

/-- A write to SYM_IN stores one byte below SYM_OUT (30_encoding.md R94). -/
theorem HostKeeps.symIn {i : Nat} (hi : i < 4096) (b : Byte) (r : Option Response) (s : State) :
    HostKeeps s { s with mem := Memory.setByte s.mem (symInAddr i) b, rsp := r } where
  tree := s.sameTree_setByte b (by rw [symInAddr]; omega)
  symOutLen := rfl
  errInfo := rfl
  symOut a hlo _ := Memory.byte?_setByte_other _ _ (by rw [symInAddr]; omega)
  statusOk := id
  wf := Memory.wf_setByte _ _
  whole := Memory.bitBufWhole_congr fun a hlo _ => Memory.byte?_setByte_other _ _ (by rw [symInAddr]; omega)

/-- A write to BITBUF stores one whole word above SYM_OUT (20_memory.md R71). -/
theorem HostKeeps.bitBuf (w : Nat) (v : Word) (r : Option Response) (s : State) :
    HostKeeps s { s with mem := Memory.setWord s.mem (bitBufAddr w) v, rsp := r } where
  tree := s.sameTree_setWord v (by rw [bitBufAddr]; omega)
  symOutLen := rfl
  errInfo := rfl
  symOut a _ hhi := (Memory.byte?_setWord _ _ _ _).trans (if_neg (by rw [bitBufAddr]; omega))
  statusOk := id
  wf := Memory.wf_setWord _ _
  whole := Memory.bitBufWhole_setWord w v

/-- No write of the host reaches a result (10_state.md R40; 20_memory.md R65, R68). -/
theorem hostWrite_keeps (off : Offset) (v : Word) (s : State) : HostKeeps s (hostWrite off v s) := by
  rcases hostWrite_cases off v s with ⟨_, h⟩ | ⟨_, h⟩ | ⟨_, _, h⟩ | ⟨_, h⟩ | ⟨_, h⟩ | ⟨_, _, h⟩ | ⟨_, _, h⟩ |
    ⟨_, i, ht, h⟩ | ⟨_, w, _, h⟩ | h <;> rw [h]
  case inr.inr.inl =>
    exact .of_mem_eq (State.sameTree_of_eq rfl rfl rfl rfl rfl) rfl rfl rfl fun _ => Status.ok_issue _ _
  case inr.inr.inr.inl =>
    exact .of_mem_eq (State.sameTree_of_eq rfl rfl rfl rfl rfl) rfl rfl rfl (Status.ok_writeOneToClear v)
  case inr.inr.inr.inr.inr.inr.inr.inl => exact .symIn (target_eq_symIn ht) _ _ s
  case inr.inr.inr.inr.inr.inr.inr.inr.inl => exact .bitBuf w v _ s
  all_goals exact .of_mem_eq (State.sameTree_of_eq rfl rfl rfl rfl rfl) rfl rfl rfl id

theorem sameBlock_program (s : State) (p : List HostOp) : s.SameBlock { s with program := p } :=
  ⟨rfl, rfl, rfl, rfl, rfl, rfl, rfl, rfl, rfl, rfl, rfl⟩

theorem sameBlock_popTurn (s : State) : s.SameBlock s.popTurn :=
  ⟨rfl, rfl, rfl, rfl, rfl, rfl, rfl, rfl, rfl, rfl, rfl⟩

theorem hostStep_keeps {s t : State} (h : hostStep s = .next t) : HostKeeps s t := by
  rcases hostStep_cases h with ⟨_, rfl⟩ | ⟨off, rest, _, rfl⟩ | ⟨off, v, rest, _, rfl⟩ |
    ⟨off, mask, val, rest, _, rfl | rfl⟩
  · exact .of_sameBlock (sameBlock_program t t.program)
  · exact .of_sameBlock (sameBlock_hostRead off s rest s.turns)
  · exact (HostKeeps.of_sameBlock (sameBlock_program s rest)).trans (hostWrite_keeps off v _)
  · exact .of_sameBlock (sameBlock_hostRead off s rest s.turns)
  · exact .of_sameBlock (sameBlock_hostRead off s s.program s.turns)

/-- A host's turn keeps the results (10_state.md R40). -/
theorem step_host_keeps {s t : State} (h : hostStep s.popTurn = .next t) : HostKeeps s t :=
  (HostKeeps.of_sameBlock (sameBlock_popTurn s)).trans (hostStep_keeps h)

/-- Settles O57, by `step_host_keeps`. -/
theorem hostStepsChangeNoResult : Obligations.HostStepsChangeNoResult := by
  intro s t h hnext
  obtain ⟨_, ⟨_, hhost⟩ | ⟨hturn, _⟩ | ⟨hturn, _⟩⟩ := step_next_cases h
  · have hkeeps := step_host_keeps hhost
    exact ⟨hkeeps.tree, hkeeps.symOutLen, hkeeps.errInfo, hkeeps.symOut⟩
  · cases hnext.symm.trans hturn
  · cases hnext.symm.trans hturn

/-! ### Who changes the tree -/

/-- DECODE changes no table and no tree register (42_decoder.md R180). -/
theorem exec_decode_sameTree {s t : State} (h : exec .decode s = .next t) : s.SameTree t := by
  rcases exec_decode_cases s with ⟨_, he⟩ | ⟨_, he⟩ | ⟨_, _, _, he⟩ | ⟨_, _, _, he⟩ <;> rw [he] at h <;> cases h
  case inr.inr.inr => exact sameTree_afterWalk (decodeWalk_out_length s _) s
  all_goals exact State.sameTree_of_eq rfl rfl rfl rfl rfl

/-- A command other than CLEAR and ENCODE keeps the tree (10_state.md R35). -/
theorem runCommand_tree_cases {w : Word} {s t : State} (h : runCommand w s = .next t) :
    s.SameTree t ∨ w = encode .clear ∨ w = encode .encode := by
  rcases runCommand_cases h with ⟨_, rfl⟩ | ⟨_, rfl⟩ | ⟨hd, _⟩ | ⟨hd, _⟩ | ⟨_, he⟩
  · exact .inl (State.sameTree_of_eq rfl rfl rfl rfl rfl)
  · exact .inl (State.sameTree_of_eq rfl rfl rfl rfl rfl)
  · exact .inr (.inl ((decode_eq_command_iff w .clear).1 hd))
  · exact .inr (.inr ((decode_eq_command_iff w .encode).1 hd))
  · exact .inl (exec_decode_sameTree he)

/-- Settles O55: a host's turn by `step_host_keeps`, an engine's by `runCommand_tree_cases`. -/
theorem onlyEncodeClearAndResetChangeTheTree : Obligations.OnlyEncodeClearAndResetChangeTheTree := by
  intro s t h htree
  have hpop : s.SameTree s.popTurn := State.sameTree_of_eq rfl rfl rfl rfl rfl
  obtain ⟨_, ⟨_, hhost⟩ | ⟨hturn, hengine⟩ | ⟨hturn, _⟩⟩ := step_next_cases h
  · exact absurd (step_host_keeps hhost).tree htree
  · rcases engineStep_cases hengine with ⟨_, rfl⟩ | ⟨op, w, heng, hrun⟩
    · exact absurd hpop htree
    · rcases runCommand_tree_cases hrun with hsame | hw
      · exact absurd (hpop.trans hsame) htree
      · exact .inr ⟨hturn, op, w, heng, hw⟩
  · exact .inl hturn

/-! ### The invariant -/

/-- A command's end keeps STATUS's rules, since an issue left it without DONE and ERR (10_state.md R27). -/
theorem CommandEnd.statusOk {s t : State} (h : CommandEnd s t) (hok : s.status.Ok) (hbusy : s.status.busy = true) :
    t.status.Ok := by
  obtain ⟨hcode, _, hrunning, _⟩ := hok
  obtain ⟨hdone, herr⟩ := hrunning hbusy
  have hzero : s.status.errCode = 0#4 := by
    by_contra hne
    rw [hcode.2 hne] at herr; cases herr
  unfold Status.Ok
  rcases h.ends with ⟨v, hst, _⟩ | ⟨e, hst⟩ <;> rw [hst]
  · simp [herr, hzero]
  · obtain ⟨hpos, hle⟩ := e.code_range
    have hne : e.code ≠ 0#4 := by intro he; rw [he] at hpos; cases hpos
    simp [hdone, hne, hle]

/-- Settles O54: ENG by `step_keeps_engOk`, a host's turn by `step_host_keeps`, the engine's by
`runCommand_commandEnd`. -/
theorem everyStepKeepsTheInvariant : Obligations.EveryStepKeepsTheInvariant := by
  intro s t ⟨hok, heng, hwf, hwhole, hout, htree⟩ h
  have heng' := step_keeps_engOk heng h
  obtain ⟨_, ⟨_, hhost⟩ | ⟨_, hengine⟩ | ⟨_, rfl⟩⟩ := step_next_cases h
  · have hkeeps := step_host_keeps hhost
    exact ⟨hkeeps.statusOk hok, heng', hkeeps.wf hwf, hkeeps.whole hwhole, hkeeps.symOutLen ▸ hout,
      htree.of_sameTree hkeeps.tree⟩
  · rcases engineStep_cases hengine with ⟨_, rfl⟩ | ⟨op, w, hbusy, hrun⟩
    · exact ⟨hok, heng', hwf, hwhole, hout, htree⟩
    · have hend := runCommand_commandEnd hrun
      exact ⟨hend.statusOk hok (heng.busy_iff.2 ⟨op, w, hbusy⟩), heng', hend.wf hwf, hend.whole hwhole,
        hend.symOutLen hout, hend.tree htree⟩
  · exact resetSatisfiesTheInvariant

/-! ### Faults -/

/-- No agent's step is a fault: only a reserved ERRCODE is (93_implementation_defined.md U17). -/
theorem takeTurn_ne_fault (turn : Turn) (s : State) (f : Fault) : takeTurn turn s ≠ .fault f := by
  intro h
  cases turn with
  | host =>
    rw [takeTurn, hostStep] at h
    split at h
    · cases h
    next op rest _ =>
      cases op with
      | rd | wr | nonWord => cases h
      | poll off mask val => rw [hostOperation] at h; split at h <;> cases h
  | engine =>
    rw [takeTurn, engineStep] at h
    split at h
    · cases h
    next w _ =>
      obtain ⟨t, ht⟩ := runCommand_answers_next w s
      cases ht.symm.trans h
  | reset => cases h

theorem State.Inv.not_reserved {s : State} (h : s.Inv) : s.status.reservedErrCode = false := by
  obtain ⟨⟨_, _, _, hle⟩, _⟩ := h
  exact (reservedErrCode_false_iff _).2 hle

/-- Settles O58, by `step_reserved` and `takeTurn_ne_fault`. -/
theorem reservedErrorCodesFault : Obligations.ReservedErrorCodesFault := by
  refine ⟨fun s h => step_reserved (by simpa [Status.reservedErrCode] using h), fun s f h => ?_⟩
  rw [step_eq_takeTurn h.not_reserved]
  exact takeTurn_ne_fault _ _ f

/-! ### The end of a running command -/

theorem hostWrite_host (off : Offset) (v : Word) (s : State) :
    (hostWrite off v s).program = s.program ∧ (hostWrite off v s).turns = s.turns := by
  rcases hostWrite_cases off v s with ⟨_, h⟩ | ⟨_, h⟩ | ⟨_, _, h⟩ | ⟨_, h⟩ | ⟨_, h⟩ | ⟨_, _, h⟩ | ⟨_, _, h⟩ |
    ⟨_, _, _, h⟩ | ⟨_, _, _, h⟩ | h <;> rw [h] <;> exact ⟨rfl, rfl⟩

theorem hostRead_host (off : Offset) (s : State) :
    (hostRead off s).program = s.program ∧ (hostRead off s).turns = s.turns := by
  rw [hostRead_eq]; exact ⟨rfl, rfl⟩

/-- A program of whole-word transactions always goes on, and stays one (20_memory.md R61). -/
theorem hostStep_of_wordsOnly {s : State} (h : wordsOnly s.program = true) :
    ∃ t, hostStep s = .next t ∧ wordsOnly t.program = true ∧ t.turns = s.turns := by
  cases hp : s.program with
  | nil => exact ⟨s, by rw [hostStep, hp], h, rfl⟩
  | cons op rest =>
    rw [hp, wordsOnly, List.all_cons, Bool.and_eq_true] at h
    obtain ⟨hop, hrest⟩ := h
    have hstep : hostStep s = hostOperation op rest s := by rw [hostStep, hp]
    rw [hstep]
    cases op with
    | rd off =>
      obtain ⟨hprog, hturns⟩ := hostRead_host off { s with program := rest }
      exact ⟨_, rfl, hprog ▸ hrest, hturns⟩
    | wr off v =>
      obtain ⟨hprog, hturns⟩ := hostWrite_host off v { s with program := rest }
      exact ⟨_, rfl, hprog ▸ hrest, hturns⟩
    | poll off mask val =>
      simp only [hostOperation]
      split
      · obtain ⟨hprog, hturns⟩ := hostRead_host off { s with program := rest }
        exact ⟨_, rfl, hprog ▸ hrest, hturns⟩
      · obtain ⟨hprog, hturns⟩ := hostRead_host off s
        refine ⟨_, rfl, ?_, hturns⟩
        rw [hprog, hp, wordsOnly, List.all_cons, Bool.and_eq_true]
        exact ⟨rfl, hrest⟩
    | nonWord kind off => cases hop

/-- A busy block's step ends the command, or uses up a turn of the host (00_scope.md R7; log 1). -/
theorem step_of_busy {s : State} (hinv : s.Inv) (hbusy : s.eng ≠ .idle) (hprog : wordsOnly s.program = true) :
    ∃ t, step s = .next t ∧ (t.eng = .idle ∨
      (wordsOnly t.program = true ∧ t.turns = s.turns.tail ∧ s.turns ≠ [])) := by
  rw [step_eq_takeTurn hinv.not_reserved]
  cases hturn : nextTurn s with
  | host =>
    obtain ⟨t, ht, hwords, hturns⟩ := hostStep_of_wordsOnly (s := s.popTurn) hprog
    refine ⟨t, ht, .inr ⟨hwords, hturns, fun hnil => ?_⟩⟩
    cases heng : s.eng with
    | idle => exact hbusy heng
    | busy op w => rw [nextTurn, hnil, heng] at hturn; cases hturn
  | engine =>
    cases heng : s.eng with
    | idle => exact absurd heng hbusy
    | busy op w =>
      obtain ⟨t, ht⟩ := runCommand_answers_next w s.popTurn
      obtain ⟨hidle, _⟩ := runCommand_stopped ht
      exact ⟨t, by rw [takeTurn, engineStep, State.popTurn_eng, heng]; exact ht, .inl hidle⟩
  | reset => exact ⟨_, rfl, .inl rfl⟩

/-- Settles O24, by induction on the fixed turns with `step_of_busy`. -/
theorem everyCommandIsEventuallyEnded : Obligations.EveryCommandIsEventuallyEnded := by
  intro s
  induction hts : s.turns generalizing s with
  | nil =>
    intro hinv hbusy hprog
    obtain ⟨t, ht, hidle | ⟨_, _, hne⟩⟩ := step_of_busy hinv hbusy hprog
    · exact ⟨1, t, le_rfl, run_succ ht 0, hidle⟩
    · exact absurd hts hne
  | cons turn ts ih =>
    intro hinv hbusy hprog
    obtain ⟨t, ht, hnext⟩ := step_of_busy hinv hbusy hprog
    by_cases hidle : t.eng = .idle
    · exact ⟨1, t, by simp, run_succ ht 0, hidle⟩
    · obtain ⟨hwords, hturns, _⟩ := hnext.resolve_left hidle
      obtain ⟨k, u, hk, hrun, hend⟩ := ih t (by rw [hturns, hts, List.tail_cons])
        (everyStepKeepsTheInvariant s t hinv ht) hidle hwords
      exact ⟨k + 1, u, by rw [List.length_cons]; omega, (run_succ ht k).trans hrun, hend⟩

end Sys2Proof.Machine
end
